-- ==== Sys2Proof/Word.lean ====
section
/-! DEFINITION. The value types of the block: the 8-bit and 32-bit words of the command interface (R37, R48), the
26-letter alphabet (R7) and the 26-entry tables over it (R23, R27, R28, R31). -/

namespace Sys2Proof

/-- An 8-bit field of a command or response word (R48, R51), and the width of every register (R10). -/
abbrev Byte := BitVec 8

/-- A 32-bit command or response word (R2, R37). -/
abbrev Word := BitVec 32

/-- An index of the alphabet, an integer in [0,25] (R7). A cell of the key store or of the ROM holds one: R10 says that
only 0 to 25 are ever stored and that the upper bits of such a cell are not storage (log 3). -/
abbrev Letter := Fin 26

/-- A 26-entry table of letters: a wiring, the reflector or the plugboard. -/
abbrev Table := Vector Letter 26

/-- The letters in rising order, the order of every search and check (R84, R85, R86, R91). -/
def letters : List Letter := List.finRange 26

/-- A letter as a byte: `zext_8` of the cell (R11). -/
def letterByte (v : Letter) : Byte := BitVec.ofNat 8 v.val

end Sys2Proof
end

