-- ==== Sys2Proof/Syntax.lean ====
section
/-! DEFINITION. The commands of ECE-CMD-1 (R52), with their opcodes, operand forms (R49) and classes (R61, R87, R108). -/

namespace Sys2Proof

/-- A command: one constructor per row of spec/opcode_table.json, its arguments the fields its form uses, in the order
S, A, B (R48, R49). Every operand is an 8-bit field taken as it is (R50): a value outside the command's legal range is
still a command, and the command's own rule refuses it. -/
inductive Instr where
  | nop
  | keyClear
  | unlock
  | commit
  | setRotorCount (n : Byte)
  | loadRotorStd (k t : Byte)
  | loadRotorShift (k sh : Byte)
  | writeWiring (k idx v : Byte)
  | setNotch (k v : Byte)
  | setPosition (k v : Byte)
  | setRing (k v : Byte)
  | setRingSeed (k v : Byte)
  | loadReflStd (r : Byte)
  | writeRefl (idx v : Byte)
  | plugClear
  | plugSwap (a b : Byte)
  | writePlug (idx v : Byte)
  | setPolicy (f : Byte)
  | xlateIndex (v : Byte)
  | xlateChar (c : Byte)
  | stagePlug (v : Byte)
  | stageFwd (v : Byte)
  | stageRefl (v : Byte)
  | stageBwd (v : Byte)
  | readWiring (k idx : Byte)
  | readNotch (k : Byte)
  | readPosition (k : Byte)
  | readRing (k : Byte)
  | readRefl (idx : Byte)
  | readPlug (idx : Byte)
  | readRotorCount
  | readPolicy
  | readStatus
  | readMaxRotors
  | readRomWiring (t idx : Byte)
  | readRomNotch (t : Byte)
  | readRomRefl (r idx : Byte)
deriving DecidableEq, Repr

/-- The assigned opcodes (R52), under the names of their commands. -/
inductive Opcode where
  | nop | keyClear | unlock | commit
  | setRotorCount | loadRotorStd | loadRotorShift | writeWiring | setNotch | setPosition | setRing | setRingSeed
  | loadReflStd | writeRefl
  | plugClear | plugSwap | writePlug
  | setPolicy
  | xlateIndex | xlateChar | stagePlug | stageFwd | stageRefl | stageBwd
  | readWiring | readNotch | readPosition | readRing | readRefl | readPlug | readRotorCount | readPolicy | readStatus
  | readMaxRotors | readRomWiring | readRomNotch | readRomRefl
deriving DecidableEq, Repr

/-- The operand forms (R49), named by the fields they use. -/
inductive Form where
  | z | b | s | a | sb | sa | ab | sab
deriving DecidableEq, Repr

/-- The operand fields of a command word (R48). -/
inductive Field where
  | S | A | B
deriving DecidableEq, Repr

/-- How a command is checked: lifecycle (R80 to R82), configuration (R61), pipeline (R87), or read-back and NOP (R108). -/
inductive CommandClass where
  | lifecycle | config | pipeline | readBack
deriving DecidableEq, Repr

end Sys2Proof
end

