-- ==== Sys2Proof/WellFormed.lean ====
section
/-! DEFINITION. The operand ranges of the commands, as spec/opcode_table.json and each command's rule give them, on a
block with `maxRotors` slots. A command that fails a check is still a command (R50): its rule refuses it with the error
R124 names. The bits of an operand need no check, since each is one 8-bit field. -/

namespace Sys2Proof

/-- A slot number is below MAX_ROTORS (R61, check_slot). -/
abbrev slotInRange (maxRotors : Nat) (k : Byte) : Bool := decide (k.toNat < maxRotors)

/-- An index, value, notch, position, ring setting or shift is in [0,25] (R61, check_A26 and check_B26). -/
abbrev letterInRange (v : Byte) : Bool := decide (v.toNat < 26)

/-- A rotor count is at most MAX_ROTORS (R63). -/
abbrev countInRange (maxRotors : Nat) (n : Byte) : Bool := decide (n.toNat ≤ maxRotors)

/-- A rotor type is in 1..8 (R64, R120, R121). -/
abbrev rotorTypeInRange (t : Byte) : Bool := decide (1 ≤ t.toNat ∧ t.toNat ≤ 8)

/-- A reflector selector is 0 or 1 (R71, R122). -/
abbrev reflSelectorInRange (r : Byte) : Bool := decide (r.toNat ≤ 1)

/-- POLICY flags have bits 7:2 clear (R76). -/
abbrev policyInRange (f : Byte) : Bool := decide (f.toNat < 4)

/-- Every operand of the command is in the range its rule gives it, on a block with `maxRotors` slots. -/
def Instr.wellFormed (maxRotors : Nat) : Instr → Bool
  | .nop => true
  | .keyClear => true
  | .unlock => true
  | .commit => true
  | .setRotorCount n => countInRange maxRotors n
  | .loadRotorStd k t => slotInRange maxRotors k && rotorTypeInRange t
  | .loadRotorShift k sh => slotInRange maxRotors k && letterInRange sh
  | .writeWiring k idx v => slotInRange maxRotors k && letterInRange idx && letterInRange v
  | .setNotch k v => slotInRange maxRotors k && letterInRange v
  | .setPosition k v => slotInRange maxRotors k && letterInRange v
  | .setRing k v => slotInRange maxRotors k && letterInRange v
  | .setRingSeed k v => slotInRange maxRotors k && letterInRange v
  | .loadReflStd r => reflSelectorInRange r
  | .writeRefl idx v => letterInRange idx && letterInRange v
  | .plugClear => true
  | .plugSwap a b => letterInRange a && letterInRange b
  | .writePlug idx v => letterInRange idx && letterInRange v
  | .setPolicy f => policyInRange f
  | .xlateIndex v => letterInRange v
  | .xlateChar _ => true
  | .stagePlug v => letterInRange v
  | .stageFwd v => letterInRange v
  | .stageRefl v => letterInRange v
  | .stageBwd v => letterInRange v
  | .readWiring k idx => slotInRange maxRotors k && letterInRange idx
  | .readNotch k => slotInRange maxRotors k
  | .readPosition k => slotInRange maxRotors k
  | .readRing k => slotInRange maxRotors k
  | .readRefl idx => letterInRange idx
  | .readPlug idx => letterInRange idx
  | .readRotorCount => true
  | .readPolicy => true
  | .readStatus => true
  | .readMaxRotors => true
  | .readRomWiring t idx => rotorTypeInRange t && letterInRange idx
  | .readRomNotch t => rotorTypeInRange t
  | .readRomRefl r idx => reflSelectorInRange r && letterInRange idx

end Sys2Proof
end

