-- ==== Sys2Proof/Decode.lean ====
section
/-! DEFINITION. Command words to commands and back: the opcode map (R52) and its command classes, the operand forms (R49), the total decoder
(R57) and the encoder. -/

namespace Sys2Proof

/-- The opcode of a command. -/
def Instr.opcode : Instr → Opcode
  | .nop => .nop
  | .keyClear => .keyClear
  | .unlock => .unlock
  | .commit => .commit
  | .setRotorCount _ => .setRotorCount
  | .loadRotorStd _ _ => .loadRotorStd
  | .loadRotorShift _ _ => .loadRotorShift
  | .writeWiring _ _ _ => .writeWiring
  | .setNotch _ _ => .setNotch
  | .setPosition _ _ => .setPosition
  | .setRing _ _ => .setRing
  | .setRingSeed _ _ => .setRingSeed
  | .loadReflStd _ => .loadReflStd
  | .writeRefl _ _ => .writeRefl
  | .plugClear => .plugClear
  | .plugSwap _ _ => .plugSwap
  | .writePlug _ _ => .writePlug
  | .setPolicy _ => .setPolicy
  | .xlateIndex _ => .xlateIndex
  | .xlateChar _ => .xlateChar
  | .stagePlug _ => .stagePlug
  | .stageFwd _ => .stageFwd
  | .stageRefl _ => .stageRefl
  | .stageBwd _ => .stageBwd
  | .readWiring _ _ => .readWiring
  | .readNotch _ => .readNotch
  | .readPosition _ => .readPosition
  | .readRing _ => .readRing
  | .readRefl _ => .readRefl
  | .readPlug _ => .readPlug
  | .readRotorCount => .readRotorCount
  | .readPolicy => .readPolicy
  | .readStatus => .readStatus
  | .readMaxRotors => .readMaxRotors
  | .readRomWiring _ _ => .readRomWiring
  | .readRomNotch _ => .readRomNotch
  | .readRomRefl _ _ => .readRomRefl

/-- The class of an opcode: the configuration commands are those R61 lists, the pipeline commands those of R87, the
read commands and NOP those of R108; KEY_CLEAR, UNLOCK and COMMIT are the lifecycle commands (R52, R77). -/
def Opcode.commandClass : Opcode → CommandClass
  | .keyClear | .unlock | .commit => .lifecycle
  | .setRotorCount | .loadRotorStd | .loadRotorShift | .writeWiring | .setNotch | .setPosition | .setRing
  | .setRingSeed | .loadReflStd | .writeRefl | .plugClear | .plugSwap | .writePlug | .setPolicy => .config
  | .xlateIndex | .xlateChar | .stagePlug | .stageFwd | .stageRefl | .stageBwd => .pipeline
  | .nop | .readWiring | .readNotch | .readPosition | .readRing | .readRefl | .readPlug | .readRotorCount
  | .readPolicy | .readStatus | .readMaxRotors | .readRomWiring | .readRomNotch | .readRomRefl => .readBack

/-- The class of a command. -/
def Instr.commandClass (i : Instr) : CommandClass := i.opcode.commandClass

/-- The OP byte of an opcode (R52). -/
def Opcode.byte : Opcode → Byte
  | .nop => 0x00#8
  | .keyClear => 0x01#8
  | .unlock => 0x02#8
  | .commit => 0x03#8
  | .setRotorCount => 0x10#8
  | .loadRotorStd => 0x11#8
  | .loadRotorShift => 0x12#8
  | .writeWiring => 0x13#8
  | .setNotch => 0x14#8
  | .setPosition => 0x15#8
  | .setRing => 0x16#8
  | .setRingSeed => 0x17#8
  | .loadReflStd => 0x20#8
  | .writeRefl => 0x21#8
  | .plugClear => 0x30#8
  | .plugSwap => 0x31#8
  | .writePlug => 0x32#8
  | .setPolicy => 0x40#8
  | .xlateIndex => 0x50#8
  | .xlateChar => 0x51#8
  | .stagePlug => 0x52#8
  | .stageFwd => 0x53#8
  | .stageRefl => 0x54#8
  | .stageBwd => 0x55#8
  | .readWiring => 0x60#8
  | .readNotch => 0x61#8
  | .readPosition => 0x62#8
  | .readRing => 0x63#8
  | .readRefl => 0x64#8
  | .readPlug => 0x65#8
  | .readRotorCount => 0x66#8
  | .readPolicy => 0x67#8
  | .readStatus => 0x68#8
  | .readMaxRotors => 0x69#8
  | .readRomWiring => 0x6A#8
  | .readRomNotch => 0x6B#8
  | .readRomRefl => 0x6C#8

/-- The operand form of an opcode (R52). -/
def Opcode.form : Opcode → Form
  | .nop => .z
  | .keyClear => .z
  | .unlock => .z
  | .commit => .z
  | .setRotorCount => .b
  | .loadRotorStd => .sb
  | .loadRotorShift => .sb
  | .writeWiring => .sab
  | .setNotch => .sb
  | .setPosition => .sb
  | .setRing => .sb
  | .setRingSeed => .sb
  | .loadReflStd => .b
  | .writeRefl => .ab
  | .plugClear => .z
  | .plugSwap => .ab
  | .writePlug => .ab
  | .setPolicy => .b
  | .xlateIndex => .b
  | .xlateChar => .b
  | .stagePlug => .b
  | .stageFwd => .b
  | .stageRefl => .b
  | .stageBwd => .b
  | .readWiring => .sa
  | .readNotch => .s
  | .readPosition => .s
  | .readRing => .s
  | .readRefl => .a
  | .readPlug => .a
  | .readRotorCount => .z
  | .readPolicy => .z
  | .readStatus => .z
  | .readMaxRotors => .z
  | .readRomWiring => .sa
  | .readRomNotch => .s
  | .readRomRefl => .sa

/-- Every assigned opcode, in the order of R52's table. -/
def Opcode.all : List Opcode :=
  [.nop, .keyClear, .unlock, .commit] ++
  [.setRotorCount, .loadRotorStd, .loadRotorShift, .writeWiring, .setNotch, .setPosition, .setRing, .setRingSeed] ++
  [.loadReflStd, .writeRefl] ++
  [.plugClear, .plugSwap, .writePlug] ++
  [.setPolicy] ++
  [.xlateIndex, .xlateChar, .stagePlug, .stageFwd, .stageRefl, .stageBwd] ++
  [.readWiring, .readNotch, .readPosition, .readRing, .readRefl, .readPlug, .readRotorCount, .readPolicy,
   .readStatus, .readMaxRotors, .readRomWiring, .readRomNotch, .readRomRefl]

/-- OPMAP (R57): the opcode an OP byte is assigned to, if any. -/
def opcodeOf (op : Byte) : Option Opcode := Opcode.all.find? fun o => o.byte == op

/-- Whether a form uses a field (R49). -/
def Form.uses : Form → Field → Bool
  | .z, _ => false
  | .b, f => f == .B
  | .s, f => f == .S
  | .a, f => f == .A
  | .sb, f => f == .S || f == .B
  | .sa, f => f == .S || f == .A
  | .ab, f => f == .A || f == .B
  | .sab, _ => true

/-- The mask of fixed bits of a form (R49). -/
def Form.mask : Form → Word
  | .z => 0xFFFFFFFF#32
  | .b => 0xFFFFFF00#32
  | .s => 0xFF00FFFF#32
  | .a => 0xFFFF00FF#32
  | .sb => 0xFF00FF00#32
  | .sa => 0xFF0000FF#32
  | .ab => 0xFFFF0000#32
  | .sab => 0xFF000000#32

/-- Field OP, bits 31:24 (R48). -/
def opField (w : Word) : Byte := w.extractLsb' 24 8

/-- Field S, bits 23:16 (R48). -/
def sField (w : Word) : Byte := w.extractLsb' 16 8

/-- Field A, bits 15:8 (R48). -/
def aField (w : Word) : Byte := w.extractLsb' 8 8

/-- Field B, bits 7:0 (R48). -/
def bField (w : Word) : Byte := w.extractLsb' 0 8

/-- The value of an operand field in a word (R48). -/
def fieldOf (w : Word) : Field → Byte
  | .S => sField w
  | .A => aField w
  | .B => bField w

/-- The word with the four fields given (R48). -/
def wordOf (op sF aF bF : Byte) : Word := op ++ sF ++ aF ++ bF

/-- The command of an opcode with its operands taken from the fields S, A, B (R52). -/
def Opcode.command (sF aF bF : Byte) : Opcode → Instr
  | .nop => .nop
  | .keyClear => .keyClear
  | .unlock => .unlock
  | .commit => .commit
  | .setRotorCount => .setRotorCount bF
  | .loadRotorStd => .loadRotorStd sF bF
  | .loadRotorShift => .loadRotorShift sF bF
  | .writeWiring => .writeWiring sF aF bF
  | .setNotch => .setNotch sF bF
  | .setPosition => .setPosition sF bF
  | .setRing => .setRing sF bF
  | .setRingSeed => .setRingSeed sF bF
  | .loadReflStd => .loadReflStd bF
  | .writeRefl => .writeRefl aF bF
  | .plugClear => .plugClear
  | .plugSwap => .plugSwap aF bF
  | .writePlug => .writePlug aF bF
  | .setPolicy => .setPolicy bF
  | .xlateIndex => .xlateIndex bF
  | .xlateChar => .xlateChar bF
  | .stagePlug => .stagePlug bF
  | .stageFwd => .stageFwd bF
  | .stageRefl => .stageRefl bF
  | .stageBwd => .stageBwd bF
  | .readWiring => .readWiring sF aF
  | .readNotch => .readNotch sF
  | .readPosition => .readPosition sF
  | .readRing => .readRing sF
  | .readRefl => .readRefl aF
  | .readPlug => .readPlug aF
  | .readRotorCount => .readRotorCount
  | .readPolicy => .readPolicy
  | .readStatus => .readStatus
  | .readMaxRotors => .readMaxRotors
  | .readRomWiring => .readRomWiring sF aF
  | .readRomNotch => .readRomNotch sF
  | .readRomRefl => .readRomRefl sF aF

/-- What a command word is (R57). -/
inductive Decoded where
  /-- the OP byte is not assigned (R53) -/
  | illegal (op : Byte)
  /-- the opcode is assigned and the field its form does not use is nonzero (R54) -/
  | reserved (op : Opcode) (f : Field)
  /-- a command -/
  | command (i : Instr)
deriving DecidableEq, Repr

/-- The first nonzero field that the form does not use, taken in the order S, A, B (R54). -/
def reservedField (form : Form) (w : Word) : Option Field :=
  [Field.S, Field.A, Field.B].find? fun f => fieldOf w f != 0#8 && !form.uses f

/-- The decoder, total on all words (R57). -/
def decode (w : Word) : Decoded :=
  match opcodeOf (opField w) with
  | none => .illegal (opField w)
  | some op =>
    match reservedField op.form w with
    | some f => .reserved op f
    | none => .command (op.command (sField w) (aField w) (bField w))

/-- The operands of a command in the fields S, A, B, with 0 in each field its form does not use (R49). -/
def Instr.operands : Instr → Byte × Byte × Byte
  | .nop => (0, 0, 0)
  | .keyClear => (0, 0, 0)
  | .unlock => (0, 0, 0)
  | .commit => (0, 0, 0)
  | .setRotorCount n => (0, 0, n)
  | .loadRotorStd k t => (k, 0, t)
  | .loadRotorShift k sh => (k, 0, sh)
  | .writeWiring k idx v => (k, idx, v)
  | .setNotch k v => (k, 0, v)
  | .setPosition k v => (k, 0, v)
  | .setRing k v => (k, 0, v)
  | .setRingSeed k v => (k, 0, v)
  | .loadReflStd r => (0, 0, r)
  | .writeRefl idx v => (0, idx, v)
  | .plugClear => (0, 0, 0)
  | .plugSwap a b => (0, a, b)
  | .writePlug idx v => (0, idx, v)
  | .setPolicy f => (0, 0, f)
  | .xlateIndex v => (0, 0, v)
  | .xlateChar c => (0, 0, c)
  | .stagePlug v => (0, 0, v)
  | .stageFwd v => (0, 0, v)
  | .stageRefl v => (0, 0, v)
  | .stageBwd v => (0, 0, v)
  | .readWiring k idx => (k, idx, 0)
  | .readNotch k => (k, 0, 0)
  | .readPosition k => (k, 0, 0)
  | .readRing k => (k, 0, 0)
  | .readRefl idx => (0, idx, 0)
  | .readPlug idx => (0, idx, 0)
  | .readRotorCount => (0, 0, 0)
  | .readPolicy => (0, 0, 0)
  | .readStatus => (0, 0, 0)
  | .readMaxRotors => (0, 0, 0)
  | .readRomWiring t idx => (t, idx, 0)
  | .readRomNotch t => (t, 0, 0)
  | .readRomRefl r idx => (r, idx, 0)

/-- The word of a command (R48, R49, R52). -/
def encode (i : Instr) : Word :=
  wordOf i.opcode.byte i.operands.1 i.operands.2.1 i.operands.2.2

/-- A command word given as a number whose low `nbits` bits count: the bits above them are 0. Every row of
spec/opcode_table.json is one 32-bit word, numbered as R11 numbers it. -/
def tableWord (nbits w : Nat) : Word := BitVec.ofNat 32 (w % 2 ^ nbits)

/-- The command the decoder reads from a row's bits, and none where it refuses them. -/
def decodeTableWord (nbits w : Nat) : Option Instr :=
  match decode (tableWord nbits w) with
  | .command i => some i
  | .illegal _ => none
  | .reserved _ _ => none

end Sys2Proof
end

