-- ==== Sys2Proof/Config.lean ====
section
/-! DEFINITION. What an implementation of the block fixes: MAX_ROTORS (R8) and the standard-wiring ROM (R9, R31), with
the laws the spec puts on them (R32) and the default the spec recommends (R33). No behaviour of the block is left open
as a free value (93_implementation_defined.md, Part 1), so there is no opaque constant here. -/

namespace Sys2Proof

/-- Every value appears: the table is a bijection on [0,25] (R84). -/
abbrev IsPermutation (t : Table) : Prop := ∀ v : Letter, ∃ i : Letter, t[i] = v

/-- The table is its own inverse (R16, R85, R86). -/
abbrev IsInvolution (t : Table) : Prop := ∀ x : Letter, t[t[x]] = x

/-- No letter maps to itself (R32, R85). -/
abbrev HasNoFixedPoint (t : Table) : Prop := ∀ x : Letter, t[x] ≠ x

/-- The ROM's entry for one standard rotor type (R31). -/
structure StdRotor where
  /-- STD_ROTOR[t] -/
  wiring : Table
  /-- STD_NOTCH[t] -/
  notch : Letter
deriving DecidableEq, Repr

/-- STD_ROM (R31): eight standard rotors, type t at index t - 1, and two standard reflectors. -/
structure StdRom where
  rotors : Vector StdRotor 8
  refls : Vector Table 2
deriving DecidableEq, Repr

/-- The laws of R32 that the cell type does not already give: each wiring a permutation, each reflector self-inverse
with no fixed point. -/
abbrev StdRom.Lawful (rom : StdRom) : Prop :=
  (∀ t : Fin 8, IsPermutation rom.rotors[t].wiring) ∧
  (∀ r : Fin 2, IsInvolution rom.refls[r] ∧ HasNoFixedPoint rom.refls[r])

/-- The parameters of a block (R8, R9). -/
structure Config where
  /-- MAX_ROTORS, the number of rotor slots -/
  maxRotors : Nat
  /-- STD_ROM -/
  rom : StdRom
deriving DecidableEq, Repr

/-- The range of MAX_ROTORS (R8) and the laws of the ROM (R32). -/
abbrev Config.Lawful (c : Config) : Prop :=
  1 ≤ c.maxRotors ∧ c.maxRotors ≤ 255 ∧ c.rom.Lawful

/-- The ROM content R33 recommends: rotors I to VIII with their notches, reflectors UKW-B and UKW-C.
PRESUMED: the spec marks the table 'from general knowledge, not in source' (log 2). -/
def StdRom.historical : StdRom where
  rotors := #v[
    { wiring := #v[4, 10, 12, 5, 11, 6, 3, 16, 21, 25, 13, 19, 14, 22, 24, 7, 23, 20, 18, 15, 0, 8, 1, 17, 2, 9],
      notch := 16 },
    { wiring := #v[0, 9, 3, 10, 18, 8, 17, 20, 23, 1, 11, 7, 22, 19, 12, 2, 16, 6, 25, 13, 15, 24, 5, 21, 14, 4],
      notch := 4 },
    { wiring := #v[1, 3, 5, 7, 9, 11, 2, 15, 17, 19, 23, 21, 25, 13, 24, 4, 8, 22, 6, 0, 10, 12, 20, 18, 16, 14],
      notch := 21 },
    { wiring := #v[4, 18, 14, 21, 15, 25, 9, 0, 24, 16, 20, 8, 17, 7, 23, 11, 13, 5, 19, 6, 10, 3, 2, 12, 22, 1],
      notch := 9 },
    { wiring := #v[21, 25, 1, 17, 6, 8, 19, 24, 20, 15, 18, 3, 13, 7, 11, 23, 0, 22, 12, 9, 16, 14, 5, 4, 2, 10],
      notch := 25 },
    { wiring := #v[9, 15, 6, 21, 14, 20, 12, 5, 24, 16, 1, 4, 13, 7, 25, 17, 3, 10, 0, 18, 23, 11, 8, 2, 19, 22],
      notch := 25 },
    { wiring := #v[13, 25, 9, 7, 6, 17, 2, 23, 12, 24, 18, 22, 1, 14, 20, 5, 0, 8, 21, 11, 15, 4, 10, 16, 3, 19],
      notch := 25 },
    { wiring := #v[5, 10, 16, 7, 19, 11, 23, 14, 2, 1, 9, 18, 15, 3, 25, 17, 0, 12, 4, 22, 13, 8, 20, 24, 6, 21],
      notch := 25 }]
  refls := #v[
    #v[24, 17, 20, 7, 16, 18, 11, 3, 15, 23, 13, 6, 14, 10, 12, 8, 4, 1, 5, 25, 2, 22, 21, 9, 0, 19],
    #v[5, 21, 15, 9, 8, 0, 14, 24, 4, 3, 17, 25, 23, 22, 6, 2, 19, 10, 20, 16, 18, 1, 13, 12, 7, 11]]

/-- The block that State.reset is: the recommended ROM, and the MAX_ROTORS of the spec's test vectors
(95_test_vectors.md, section 0). DESIGN CHOICE: R8 leaves MAX_ROTORS open (log 1). -/
def Config.default : Config where
  maxRotors := 8
  rom := StdRom.historical

end Sys2Proof
end

