-- ==== Sys2Proof/Machine/State.lean ====
section
/-! DEFINITION. The state of the block (10_state.md): the key store, the status flags and the ROM, with the two ports as
the host sees them; the reasons a step can stop; and the reset state (R34). -/

namespace Sys2Proof.Machine

/-- One rotor slot: WIRING[k], NOTCH[k], POS[k] and RING[k] (R16, R23 to R26). -/
structure RotorSlot where
  wiring : Table
  notch : Letter
  pos : Letter
  ring : Letter
deriving DecidableEq, Repr

/-- The key store (R36). Its rotor slots are listed slot 0 first, the outermost and leftmost rotor (R22); their number
is MAX_ROTORS (R8, log 1). -/
structure KeyStore where
  /-- ROTOR_COUNT (R21) -/
  rotorCount : Byte
  /-- the rotor slots 0 to MAX_ROTORS - 1 -/
  slots : List RotorSlot
  /-- REFL (R27) -/
  refl : Table
  /-- PLUG (R28) -/
  plug : Table
  /-- POLICY (R29) -/
  policy : Byte
deriving DecidableEq, Repr

/-- The flags of STATUS (R30). The register's 8-bit view is Status.byte in Machine/Flags.lean (log 4). -/
structure Status where
  /-- KEY_VALID, bit 0 -/
  keyValid : Bool
  /-- FAULT, bit 1 -/
  fault : Bool
  /-- BUILD_ERR, bit 2 -/
  buildErr : Bool
deriving DecidableEq, Repr

/-- What the host does to the block (R149). -/
inductive HostMove where
  /-- the host sends a command word -/
  | send (w : Word)
  /-- the platform applies reset; `cutOff` is the command, if any, that has arrived but not yet responded, which the
  reset abandons (R139) -/
  | reset (cutOff : Option Word)
deriving DecidableEq, Repr

/-- The state of the block, and beside it the model's own record of its two ports. -/
structure State where
  /-- the key store (R21 to R29) -/
  key : KeyStore
  /-- STATUS (R30) -/
  status : Status
  /-- STD_ROM (R31), which no command and no reset writes -/
  rom : StdRom
  /-- THE MODEL'S OWN: the host's moves that the block has not yet taken, in arrival order (R42, R149; log 6) -/
  pending : List HostMove
  /-- THE MODEL'S OWN: the response words emitted so far, oldest first (R148; log 7) -/
  responses : List Word
deriving DecidableEq, Repr

/-- The reasons for which the machine could stop with a fault: none. Every command word has one defined outcome
(R57, R124; 93_implementation_defined.md, Part 1), and FAULT_INVERSE_MISS is a response and the flag STATUS.FAULT, after
which the block goes on (R91, R127; log 10). Having no constructor is safe where the block is built to the spec. -/
inductive Fault : Type
deriving DecidableEq, Repr

/-- The reasons for which the model could refuse a command. -/
inductive Refusal where
  /-- Raised by an arm of exec for a command that has no meaning yet, and by nothing else; safe. No arm raises it now. -/
  | notModelled (mnemonic : String)
deriving DecidableEq, Repr

/-- MAX_ROTORS (R8): the number of rotor slots. -/
def KeyStore.maxRotors (key : KeyStore) : Nat := key.slots.length

/-- MAX_ROTORS of the block. -/
def State.maxRotors (s : State) : Nat := s.key.maxRotors

/-- The identity table, the reset value of a wiring (R23) and of the plugboard (R28). -/
def identityTable : Table := Vector.ofFn fun i => i

/-- A rotor slot after reset (R34). -/
def RotorSlot.reset : RotorSlot where
  wiring := identityTable
  notch := 0
  pos := 0
  ring := 0

/-- The key store after reset, on a block with `maxRotors` slots and the given ROM (R34). -/
def KeyStore.reset (maxRotors : Nat) (rom : StdRom) : KeyStore where
  rotorCount := 0#8
  slots := List.replicate maxRotors RotorSlot.reset
  refl := rom.refls[0]
  plug := identityTable
  policy := 0x00#8

/-- The flags after reset (R34). -/
def Status.reset : Status where
  keyValid := false
  fault := false
  buildErr := false

/-- The state right after reset (R34, R139) of a block built with the given parameters (R8, R9), with nothing sent to
it and nothing answered. -/
def State.resetOf (c : Config) : State where
  key := KeyStore.reset c.maxRotors c.rom
  status := Status.reset
  rom := c.rom
  pending := []
  responses := []

/-- The state right after reset of the block with the default parameters (logs 1 and 2). -/
def State.reset : State := State.resetOf Config.default

end Sys2Proof.Machine
end

