-- ==== Sys2Proof/Machine/Flags.lean ====
section
/-! DEFINITION. The status codes (R124), the flags of STATUS (R30) with what an error does to them (R62, R91, R123), and
the bits of POLICY (R29). -/

namespace Sys2Proof.Machine

/-- The status codes (R124). -/
inductive StatusCode where
  | ok | errIllegal | errReserved | errLocked | errNoKey | errRange | errSelector | errFaulted
  | errRotorNotPerm | errReflNotInvol | errReflFixed | errPlugNotInvol | errBuild
  | faultInverseMiss
deriving DecidableEq, Repr

/-- The 8-bit value of a status code (R124). -/
def StatusCode.code : StatusCode → Byte
  | .ok => 0x00#8
  | .errIllegal => 0x01#8
  | .errReserved => 0x02#8
  | .errLocked => 0x03#8
  | .errNoKey => 0x04#8
  | .errRange => 0x05#8
  | .errSelector => 0x06#8
  | .errFaulted => 0x07#8
  | .errRotorNotPerm => 0x10#8
  | .errReflNotInvol => 0x11#8
  | .errReflFixed => 0x12#8
  | .errPlugNotInvol => 0x13#8
  | .errBuild => 0x14#8
  | .faultInverseMiss => 0x20#8

/-- What `raise Error(status, data)` reports (R13). -/
structure ErrorReport where
  code : StatusCode
  data : Byte
deriving DecidableEq, Repr

/-- The STATUS register as READ_STATUS gives it: {00000, BUILD_ERR, FAULT, KEY_VALID} (R30, R118). -/
def Status.byte (st : Status) : Byte :=
  0#5 ++ BitVec.ofBool st.buildErr ++ BitVec.ofBool st.fault ++ BitVec.ofBool st.keyValid

/-- The errors that mark a key under construction as malformed (R62). -/
def isBuildFailure : StatusCode → Bool
  | .errReserved | .errRange | .errSelector => true
  | .ok | .errIllegal | .errLocked | .errNoKey | .errFaulted | .errRotorNotPerm | .errReflNotInvol | .errReflFixed
  | .errPlugNotInvol | .errBuild | .faultInverseMiss => false

/-- The flags after an error (R13, R123): an inverse miss sets FAULT (R91); a configuration command refused with
ERR_RESERVED, ERR_RANGE or ERR_SELECTOR while KEY_VALID = 0 sets BUILD_ERR (R62); no other flag changes. The class is
that of the command, and none for an unassigned opcode. -/
def statusAfterError (cls : Option CommandClass) (code : StatusCode) (st : Status) : Status :=
  { st with
    fault := st.fault || code == .faultInverseMiss
    buildErr := st.buildErr || (cls == some .config && !st.keyValid && isBuildFailure code) }

/-- POLICY.SPACE_TO_X, bit 0 (R29). -/
def KeyStore.spaceToX (key : KeyStore) : Bool := key.policy.getLsbD 0

/-- POLICY.REFL_NO_FIXED, bit 1 (R29). -/
def KeyStore.reflNoFixed (key : KeyStore) : Bool := key.policy.getLsbD 1

end Sys2Proof.Machine
end

