-- ==== Sys2Proof/Machine/Operands.lean ====
section
/-! DEFINITION. The operand checks the commands share (R61, R63, R64, R71, R76, R120 to R122). Each answers the operand
in the type its rule gives it, or the error and the number of the field at fault (R124). -/

namespace Sys2Proof.Machine

/-- The number of a field in an error's DATA (R54, R124). -/
def fieldNumber : Field → Byte
  | .S => 1#8
  | .A => 2#8
  | .B => 3#8

/-- check_slot(k) of field S (R61), answering the slot's contents. -/
def checkSlot (key : KeyStore) (k : Byte) : Except ErrorReport RotorSlot :=
  match key.slots[k.toNat]? with
  | some slot => .ok slot
  | none => .error ⟨.errRange, fieldNumber .S⟩

/-- An index or value in [0,25]: check_A26 and check_B26 (R61). -/
def checkLetter (f : Field) (b : Byte) : Except ErrorReport Letter :=
  if h : b.toNat < 26 then .ok ⟨b.toNat, h⟩ else .error ⟨.errRange, fieldNumber f⟩

/-- A rotor count in field B (R63). -/
def checkCount (key : KeyStore) (n : Byte) : Except ErrorReport Byte :=
  if n.toNat > key.maxRotors then .error ⟨.errRange, fieldNumber .B⟩ else .ok n

/-- A standard rotor type in 1..8 (R64, R120, R121), answering its index in the ROM. -/
def checkRotorType (f : Field) (t : Byte) : Except ErrorReport (Fin 8) :=
  if h : t.toNat < 1 ∨ t.toNat > 8 then .error ⟨.errSelector, fieldNumber f⟩ else .ok ⟨t.toNat - 1, by omega⟩

/-- A standard reflector selector, 0 or 1 (R71, R122). -/
def checkReflSelector (f : Field) (r : Byte) : Except ErrorReport (Fin 2) :=
  if h : r.toNat > 1 then .error ⟨.errSelector, fieldNumber f⟩ else .ok ⟨r.toNat, by omega⟩

/-- POLICY flags in field B: bits 7:2 must be 0 (R76). -/
def checkPolicyFlags (f : Byte) : Except ErrorReport Byte :=
  if f.extractLsb' 2 6 ≠ 0#6 then .error ⟨.errReserved, fieldNumber .B⟩ else .ok f

end Sys2Proof.Machine
end

