-- ==== Sys2Proof/Machine/Ops.lean ====
section
/-! DEFINITION. The shared operations: mod26 (R12), the response of a command (R51), raising an error (R13, R123), and the
common behaviour of the configuration (R61, R62), pipeline (R87) and read commands (R108). -/

namespace Sys2Proof.Machine

/-- What a command answers. -/
abbrev Result := Host.Outcome State Fault Refusal

/-- mod26(x): the r in [0,25] with x - r divisible by 26 (R12). -/
def mod26 (x : Int) : Letter := ⟨(x % 26).toNat, by omega⟩

/-- The response word {0x0000, status, data} (R51). -/
def responseWord (code data : Byte) : Word := 0x0000#16 ++ code ++ data

/-- respond(status, data) (R13, R51): the command ends and its one response word leaves the block. -/
def respond (code : StatusCode) (data : Byte) (s : State) : State :=
  { s with responses := s.responses ++ [responseWord code.code data] }

/-- raise Error(status, data) (R13, R123): the command ends with the error as its response, and no state changes but the
flags of statusAfterError. The block has no trap: nothing is saved, no mode changes and control goes nowhere (R130); the
next command executes normally, so no return exists (R131). -/
def raiseError (cls : Option CommandClass) (e : ErrorReport) (s : State) : State :=
  respond e.code e.data { s with status := statusAfterError cls e.code s.status }

/-- The common behaviour of the configuration commands (R61): the lock, then the operands, then the writes. `body` checks
the operands and answers the key store after the writes, so that all the writes happen or none (R39). -/
def runConfig (body : Except ErrorReport KeyStore) (s : State) : Result :=
  if s.status.keyValid then .next (raiseError (some .config) ⟨.errLocked, 0#8⟩ s)
  else match body with
    | .error e => .next (raiseError (some .config) e s)
    | .ok key => .next (respond .ok 0#8 { s with key := key })

/-- The common behaviour of the pipeline commands (R87): the fault, then the key, then the operand and the computation,
which `body` gives. The key store is not written. -/
def runPipeline (body : Except ErrorReport Byte) (s : State) : Result :=
  if s.status.fault then .next (raiseError (some .pipeline) ⟨.errFaulted, 0#8⟩ s)
  else if !s.status.keyValid then .next (raiseError (some .pipeline) ⟨.errNoKey, 0#8⟩ s)
  else match body with
    | .error e => .next (raiseError (some .pipeline) e s)
    | .ok data => .next (respond .ok data s)

/-- The common behaviour of NOP and the read commands (R108): only their own operands are checked, in either phase and
whatever FAULT is, and no state is written. -/
def runRead (body : Except ErrorReport Byte) (s : State) : Result :=
  match body with
  | .error e => .next (raiseError (some .readBack) e s)
  | .ok data => .next (respond .ok data s)

/-- The key store with slot k replaced. -/
def KeyStore.setSlot (key : KeyStore) (k : Byte) (slot : RotorSlot) : KeyStore :=
  { key with slots := key.slots.set k.toNat slot }

/-- The active rotors, slots 0 to ROTOR_COUNT - 1 in stack order (R21, R22). -/
def KeyStore.activeSlots (key : KeyStore) : List RotorSlot := key.slots.take key.rotorCount.toNat

end Sys2Proof.Machine
end

