-- ==== Sys2Proof/Machine/Lifecycle.lean ====
section
/-! DEFINITION. The key lifecycle (41_key_lifecycle.md): validation (R83 to R86), KEY_CLEAR, UNLOCK and COMMIT. -/

namespace Sys2Proof.Machine

/-- The rotor check of one table: every value has an index (R84). -/
def isPermutationTable (t : Table) : Bool := letters.all fun v => letters.any fun i => t[i] == v

/-- The smallest slot, counted from `k`, whose wiring is not a permutation (R84). -/
def firstNonPermutation (k : Nat) : List RotorSlot → Option Nat
  | [] => none
  | slot :: rest => if isPermutationTable slot.wiring then firstNonPermutation (k + 1) rest else some k

/-- The smallest x with t[t[x]] ≠ x (R85, R86). -/
def firstNonInvolution (t : Table) : Option Letter := letters.find? fun x => t[t[x]] != x

/-- The smallest x with t[x] = x (R85). -/
def firstFixedPoint (t : Table) : Option Letter := letters.find? fun x => t[x] == x

/-- Check 1 of validate(): every active rotor is a permutation (R83, R84). -/
def checkRotors (key : KeyStore) : Except ErrorReport Unit :=
  match firstNonPermutation 0 key.activeSlots with
  | some k => .error ⟨.errRotorNotPerm, BitVec.ofNat 8 k⟩
  | none => .ok ()

/-- Check 2: the reflector is an involution (R83, R85). -/
def checkReflector (key : KeyStore) : Except ErrorReport Unit :=
  match firstNonInvolution key.refl with
  | some x => .error ⟨.errReflNotInvol, letterByte x⟩
  | none => .ok ()

/-- Check 3: with POLICY.REFL_NO_FIXED, the reflector has no fixed point (R83, R85). -/
def checkReflectorFixed (key : KeyStore) : Except ErrorReport Unit :=
  if key.reflNoFixed then
    match firstFixedPoint key.refl with
    | some x => .error ⟨.errReflFixed, letterByte x⟩
    | none => .ok ()
  else .ok ()

/-- Check 4: the plugboard is an involution (R83, R86). -/
def checkPlugboard (key : KeyStore) : Except ErrorReport Unit :=
  match firstNonInvolution key.plug with
  | some x => .error ⟨.errPlugNotInvol, letterByte x⟩
  | none => .ok ()

/-- validate() (R83): the four checks in order, and the first failure. -/
def validate (key : KeyStore) : Except ErrorReport Unit := do
  checkRotors key
  checkReflector key
  checkReflectorFixed key
  checkPlugboard key

/-- KEY_CLEAR (R80): the key store at its reset values, KEY_VALID and BUILD_ERR 0, FAULT unchanged. -/
def execKeyClear (s : State) : Result :=
  .next (respond .ok 0#8
    { s with
      key := KeyStore.reset s.maxRotors s.rom
      status := { s.status with keyValid := false, buildErr := false } })

/-- UNLOCK (R81). -/
def execUnlock (s : State) : Result :=
  .next (respond .ok 0#8 { s with status := { s.status with keyValid := false } })

/-- COMMIT (R82). -/
def execCommit (s : State) : Result :=
  if s.status.keyValid then .next (respond .ok 0#8 s)
  else if s.status.buildErr then .next (raiseError (some .lifecycle) ⟨.errBuild, 0#8⟩ s)
  else match validate s.key with
    | .error e => .next (raiseError (some .lifecycle) e s)
    | .ok _ => .next (respond .ok 0#8 { s with status := { s.status with keyValid := true } })

end Sys2Proof.Machine
end

