-- ==== Sys2Proof/Machine/Pipeline.lean ====
section
/-! DEFINITION. The substitution pipeline (42_pipeline.md): the stage functions (R88 to R92) and the commands that run
them (R93 to R99). -/

namespace Sys2Proof.Machine

/-- plug(v) = PLUG[v] (R88). -/
def plugStage (key : KeyStore) (v : Letter) : Letter := key.plug[v]

/-- refl(v) = REFL[v] (R90). -/
def reflStage (key : KeyStore) (v : Letter) : Letter := key.refl[v]

/-- The offset d = POS[k] - RING[k], an integer in [-25, 25] (R16, R89). -/
def RotorSlot.offset (slot : RotorSlot) : Int := (slot.pos.val : Int) - (slot.ring.val : Int)

/-- The table index a letter enters a rotor at: mod26(v + d) (R89, R91). -/
def RotorSlot.entry (slot : RotorSlot) (v : Letter) : Letter := mod26 ((v.val : Int) + slot.offset)

/-- The letter a rotor's table output leaves it as: mod26(output - d) (R89, R91). -/
def RotorSlot.exit (slot : RotorSlot) (output : Letter) : Letter := mod26 ((output.val : Int) - slot.offset)

/-- One rotor of the forward pass (R89). -/
def RotorSlot.forward (slot : RotorSlot) (v : Letter) : Letter := slot.exit slot.wiring[slot.entry v]

/-- The smallest j with t[j] = entry, the linear search of R91. -/
def findInverse (t : Table) (entry : Letter) : Option Letter := letters.find? fun j => t[j] == entry

/-- One rotor of the backward pass, in slot `k` (R91). -/
def RotorSlot.backward (slot : RotorSlot) (k : Nat) (v : Letter) : Except ErrorReport Letter :=
  match findInverse slot.wiring (slot.entry v) with
  | some output => .ok (slot.exit output)
  | none => .error ⟨.faultInverseMiss, BitVec.ofNat 8 k⟩

/-- fwd(v): the active slots in order, slot 0 first (R89). -/
def fwdPass (key : KeyStore) (v : Letter) : Letter := key.activeSlots.foldl (fun v slot => slot.forward v) v

/-- The backward pass through a list of slots whose first is slot `k`: the last slot first (R91). -/
def bwdSlots (k : Nat) : List RotorSlot → Letter → Except ErrorReport Letter
  | [], v => .ok v
  | slot :: rest, v => do
    let v ← bwdSlots (k + 1) rest v
    slot.backward k v

/-- bwd(v): the active slots from ROTOR_COUNT - 1 down to 0 (R91). -/
def bwdPass (key : KeyStore) (v : Letter) : Except ErrorReport Letter := bwdSlots 0 key.activeSlots v

/-- E(v) = plug(bwd(refl(fwd(plug(v))))), with bwd's fault (R92). -/
def encipher (key : KeyStore) (v : Letter) : Except ErrorReport Letter := do
  let v ← bwdPass key (reflStage key (fwdPass key (plugStage key v)))
  pure (plugStage key v)

/-- The letter a byte is processed as, and whether its output is a capital; none for a byte that passes through (R94). -/
def classifyByte (key : KeyStore) (c : Byte) : Option (Letter × Bool) :=
  if key.spaceToX ∧ c = 0x20#8 then some (23, true)
  else if h : 0x41 ≤ c.toNat ∧ c.toNat ≤ 0x5A then some (⟨c.toNat - 0x41, by omega⟩, true)
  else if h : 0x61 ≤ c.toNat ∧ c.toNat ≤ 0x7A then some (⟨c.toNat - 0x61, by omega⟩, false)
  else none

/-- upper(i) or lower(i): an index as an ASCII letter (R14). -/
def letterToAscii (v : Letter) (capital : Bool) : Byte :=
  if capital then 0x41#8 + letterByte v else 0x61#8 + letterByte v

/-- The per-character transform of one byte (R94). -/
def xlateByte (key : KeyStore) (c : Byte) : Except ErrorReport Byte :=
  match classifyByte key c with
  | some (v, capital) => do
    let o ← encipher key v
    pure (letterToAscii o capital)
  | none => pure c

/-- XLATE_INDEX v (R93). -/
def execXlateIndex (v : Byte) (s : State) : Result :=
  runPipeline (do
    let v ← checkLetter .B v
    let o ← encipher s.key v
    pure (letterByte o)) s

/-- XLATE_CHAR c (R94); decryption is the same command (R95). -/
def execXlateChar (c : Byte) (s : State) : Result := runPipeline (xlateByte s.key c) s

/-- STAGE_PLUG v (R96). -/
def execStagePlug (v : Byte) (s : State) : Result :=
  runPipeline (do
    let v ← checkLetter .B v
    pure (letterByte (plugStage s.key v))) s

/-- STAGE_FWD v (R97). -/
def execStageFwd (v : Byte) (s : State) : Result :=
  runPipeline (do
    let v ← checkLetter .B v
    pure (letterByte (fwdPass s.key v))) s

/-- STAGE_REFL v (R98). -/
def execStageRefl (v : Byte) (s : State) : Result :=
  runPipeline (do
    let v ← checkLetter .B v
    pure (letterByte (reflStage s.key v))) s

/-- STAGE_BWD v (R99). -/
def execStageBwd (v : Byte) (s : State) : Result :=
  runPipeline (do
    let v ← checkLetter .B v
    let o ← bwdPass s.key v
    pure (letterByte o)) s

end Sys2Proof.Machine
end

