-- ==== Sys2Proof/Machine/ReadBack.lean ====
section
/-! DEFINITION. NOP and the read-back commands (43_readback.md). -/

namespace Sys2Proof.Machine

/-- NOP (R109). -/
def execNop (s : State) : Result := runRead (pure 0#8) s

/-- READ_WIRING k, i (R110). -/
def execReadWiring (k idx : Byte) (s : State) : Result :=
  runRead (do
    let slot ← checkSlot s.key k
    let idx ← checkLetter .A idx
    pure (letterByte slot.wiring[idx])) s

/-- READ_NOTCH k (R111). -/
def execReadNotch (k : Byte) (s : State) : Result :=
  runRead (do
    let slot ← checkSlot s.key k
    pure (letterByte slot.notch)) s

/-- READ_POSITION k (R112). -/
def execReadPosition (k : Byte) (s : State) : Result :=
  runRead (do
    let slot ← checkSlot s.key k
    pure (letterByte slot.pos)) s

/-- READ_RING k (R113). -/
def execReadRing (k : Byte) (s : State) : Result :=
  runRead (do
    let slot ← checkSlot s.key k
    pure (letterByte slot.ring)) s

/-- READ_REFL i (R114). -/
def execReadRefl (idx : Byte) (s : State) : Result :=
  runRead (do
    let idx ← checkLetter .A idx
    pure (letterByte s.key.refl[idx])) s

/-- READ_PLUG i (R115). -/
def execReadPlug (idx : Byte) (s : State) : Result :=
  runRead (do
    let idx ← checkLetter .A idx
    pure (letterByte s.key.plug[idx])) s

/-- READ_ROTOR_COUNT (R116). -/
def execReadRotorCount (s : State) : Result := runRead (pure s.key.rotorCount) s

/-- READ_POLICY (R117). -/
def execReadPolicy (s : State) : Result := runRead (pure s.key.policy) s

/-- READ_STATUS (R118). -/
def execReadStatus (s : State) : Result := runRead (pure s.status.byte) s

/-- READ_MAX_ROTORS (R119). -/
def execReadMaxRotors (s : State) : Result := runRead (pure (BitVec.ofNat 8 s.maxRotors)) s

/-- READ_ROM_WIRING t, i (R120). -/
def execReadRomWiring (t idx : Byte) (s : State) : Result :=
  runRead (do
    let t ← checkRotorType .S t
    let idx ← checkLetter .A idx
    pure (letterByte s.rom.rotors[t].wiring[idx])) s

/-- READ_ROM_NOTCH t (R121). -/
def execReadRomNotch (t : Byte) (s : State) : Result :=
  runRead (do
    let t ← checkRotorType .S t
    pure (letterByte s.rom.rotors[t].notch)) s

/-- READ_ROM_REFL s, i (R122). -/
def execReadRomRefl (r idx : Byte) (s : State) : Result :=
  runRead (do
    let r ← checkReflSelector .S r
    let idx ← checkLetter .A idx
    pure (letterByte s.rom.refls[r][idx])) s

end Sys2Proof.Machine
end

