-- ==== Sys2Proof/Machine/RotorConfig.lean ====
section
/-! DEFINITION. The rotor slot commands (40_key_config.md, section 2). -/

namespace Sys2Proof.Machine

/-- SET_ROTOR_COUNT n (R63). -/
def execSetRotorCount (n : Byte) (s : State) : Result :=
  runConfig (do
    let n ← checkCount s.key n
    pure { s.key with rotorCount := n }) s

/-- LOAD_ROTOR_STD k, t (R64): POS[k] and RING[k] are not changed. -/
def execLoadRotorStd (k t : Byte) (s : State) : Result :=
  runConfig (do
    let slot ← checkSlot s.key k
    let t ← checkRotorType .B t
    pure (s.key.setSlot k { slot with wiring := s.rom.rotors[t].wiring, notch := s.rom.rotors[t].notch })) s

/-- The wiring of the shift rotor: entry i is mod26(i + s) (R65). -/
def shiftTable (sh : Letter) : Table := Vector.ofFn fun i => mod26 ((i.val : Int) + (sh.val : Int))

/-- LOAD_ROTOR_SHIFT k, s (R65). -/
def execLoadRotorShift (k sh : Byte) (s : State) : Result :=
  runConfig (do
    let slot ← checkSlot s.key k
    let sh ← checkLetter .B sh
    pure (s.key.setSlot k { slot with wiring := shiftTable sh, notch := 0 })) s

/-- WRITE_WIRING k, i, v (R66). -/
def execWriteWiring (k idx v : Byte) (s : State) : Result :=
  runConfig (do
    let slot ← checkSlot s.key k
    let idx ← checkLetter .A idx
    let v ← checkLetter .B v
    pure (s.key.setSlot k { slot with wiring := slot.wiring.set idx v })) s

/-- SET_NOTCH k, v (R67). -/
def execSetNotch (k v : Byte) (s : State) : Result :=
  runConfig (do
    let slot ← checkSlot s.key k
    let v ← checkLetter .B v
    pure (s.key.setSlot k { slot with notch := v })) s

/-- SET_POSITION k, v (R68). -/
def execSetPosition (k v : Byte) (s : State) : Result :=
  runConfig (do
    let slot ← checkSlot s.key k
    let v ← checkLetter .B v
    pure (s.key.setSlot k { slot with pos := v })) s

/-- SET_RING k, v (R69). -/
def execSetRing (k v : Byte) (s : State) : Result :=
  runConfig (do
    let slot ← checkSlot s.key k
    let v ← checkLetter .B v
    pure (s.key.setSlot k { slot with ring := v })) s

/-- SET_RING_SEED k, v (R70). -/
def execSetRingSeed (k v : Byte) (s : State) : Result :=
  runConfig (do
    let slot ← checkSlot s.key k
    let v ← checkLetter .B v
    pure (s.key.setSlot k { slot with ring := v, pos := v })) s

end Sys2Proof.Machine
end

