-- ==== Sys2Proof/Machine/TableConfig.lean ====
section
/-! DEFINITION. The reflector, plugboard and policy commands (40_key_config.md, sections 3 to 5). -/

namespace Sys2Proof.Machine

/-- LOAD_REFL_STD s (R71). -/
def execLoadReflStd (r : Byte) (s : State) : Result :=
  runConfig (do
    let r ← checkReflSelector .B r
    pure { s.key with refl := s.rom.refls[r] }) s

/-- WRITE_REFL i, v (R72). -/
def execWriteRefl (idx v : Byte) (s : State) : Result :=
  runConfig (do
    let idx ← checkLetter .A idx
    let v ← checkLetter .B v
    pure { s.key with refl := s.key.refl.set idx v }) s

/-- PLUG_CLEAR (R73). -/
def execPlugClear (s : State) : Result :=
  runConfig (pure { s.key with plug := identityTable }) s

/-- PLUG_SWAP a, b (R74): the second write wins when a = b, and an earlier pairing of a or b is not undone. -/
def execPlugSwap (a b : Byte) (s : State) : Result :=
  runConfig (do
    let a ← checkLetter .A a
    let b ← checkLetter .B b
    pure { s.key with plug := (s.key.plug.set a b).set b a }) s

/-- WRITE_PLUG i, v (R75): one entry, with no symmetric partner write. -/
def execWritePlug (idx v : Byte) (s : State) : Result :=
  runConfig (do
    let idx ← checkLetter .A idx
    let v ← checkLetter .B v
    pure { s.key with plug := s.key.plug.set idx v }) s

/-- SET_POLICY f (R76). -/
def execSetPolicy (f : Byte) (s : State) : Result :=
  runConfig (do
    let f ← checkPolicyFlags f
    pure { s.key with policy := f }) s

end Sys2Proof.Machine
end

