-- ==== Sys2Proof/Machine/Dispatch.lean ====
section
/-! DEFINITION. Every command to its meaning, one arm per constructor of Instr. -/

namespace Sys2Proof.Machine

/-- The effect of one command, its response included. -/
def exec (i : Instr) (s : State) : Host.Outcome State Fault Refusal :=
  match i with
  | .nop => Sys2Proof.Machine.execNop s
  | .keyClear => Sys2Proof.Machine.execKeyClear s
  | .unlock => Sys2Proof.Machine.execUnlock s
  | .commit => Sys2Proof.Machine.execCommit s
  | .setRotorCount n => Sys2Proof.Machine.execSetRotorCount n s
  | .loadRotorStd k t => Sys2Proof.Machine.execLoadRotorStd k t s
  | .loadRotorShift k sh => Sys2Proof.Machine.execLoadRotorShift k sh s
  | .writeWiring k idx v => Sys2Proof.Machine.execWriteWiring k idx v s
  | .setNotch k v => Sys2Proof.Machine.execSetNotch k v s
  | .setPosition k v => Sys2Proof.Machine.execSetPosition k v s
  | .setRing k v => Sys2Proof.Machine.execSetRing k v s
  | .setRingSeed k v => Sys2Proof.Machine.execSetRingSeed k v s
  | .loadReflStd r => Sys2Proof.Machine.execLoadReflStd r s
  | .writeRefl idx v => Sys2Proof.Machine.execWriteRefl idx v s
  | .plugClear => Sys2Proof.Machine.execPlugClear s
  | .plugSwap a b => Sys2Proof.Machine.execPlugSwap a b s
  | .writePlug idx v => Sys2Proof.Machine.execWritePlug idx v s
  | .setPolicy f => Sys2Proof.Machine.execSetPolicy f s
  | .xlateIndex v => Sys2Proof.Machine.execXlateIndex v s
  | .xlateChar c => Sys2Proof.Machine.execXlateChar c s
  | .stagePlug v => Sys2Proof.Machine.execStagePlug v s
  | .stageFwd v => Sys2Proof.Machine.execStageFwd v s
  | .stageRefl v => Sys2Proof.Machine.execStageRefl v s
  | .stageBwd v => Sys2Proof.Machine.execStageBwd v s
  | .readWiring k idx => Sys2Proof.Machine.execReadWiring k idx s
  | .readNotch k => Sys2Proof.Machine.execReadNotch k s
  | .readPosition k => Sys2Proof.Machine.execReadPosition k s
  | .readRing k => Sys2Proof.Machine.execReadRing k s
  | .readRefl idx => Sys2Proof.Machine.execReadRefl idx s
  | .readPlug idx => Sys2Proof.Machine.execReadPlug idx s
  | .readRotorCount => Sys2Proof.Machine.execReadRotorCount s
  | .readPolicy => Sys2Proof.Machine.execReadPolicy s
  | .readStatus => Sys2Proof.Machine.execReadStatus s
  | .readMaxRotors => Sys2Proof.Machine.execReadMaxRotors s
  | .readRomWiring t idx => Sys2Proof.Machine.execReadRomWiring t idx s
  | .readRomNotch t => Sys2Proof.Machine.execReadRomNotch t s
  | .readRomRefl r idx => Sys2Proof.Machine.execReadRomRefl r idx s

end Sys2Proof.Machine
end

