-- ==== Sys2Proof/Machine/Port.lean ====
section
/-! DEFINITION. The command port: executing one command word (R57, R123, R126), and the reset input (R139). -/

namespace Sys2Proof.Machine

/-- One command word: decoded, then executed or refused. ERR_ILLEGAL comes first, then ERR_RESERVED for an unused field,
then the command's own checks (R126). A configuration command refused for a reserved field while unlocked sets
BUILD_ERR like any other refusal (R62, log 13). -/
def executeWord (w : Word) (s : State) : Result :=
  match decode w with
  | .illegal op => .next (raiseError none ⟨.errIllegal, op⟩ s)
  | .reserved op f => .next (raiseError (some op.commandClass) ⟨.errReserved, fieldNumber f⟩ s)
  | .command i => exec i s

/-- The reset input (R139): every register, table and flag at its reset value, the ROM unchanged. What the host has
still to send and what the block has already answered are the host's, and stay (logs 7 and 8). -/
def applyReset (s : State) : State :=
  { s with key := KeyStore.reset s.maxRotors s.rom, status := Status.reset }

/-- One move of the host, which the block has taken from its port. A command that the reset cuts off has no response
and no effect (R139). -/
def takeMove (m : HostMove) (s : State) : Result :=
  match m with
  | .send w => executeWord w s
  | .reset _ => .next (applyReset s)

/-- The oldest move of the host, taken and carried out; with none, the block is idle and holds its state (R138, R140). -/
def takeNext (s : State) : Result :=
  match s.pending with
  | [] => .next s
  | m :: rest => takeMove m { s with pending := rest }

/-- The state with a command word as the next the block takes. -/
def placeNext (w : Word) (s : State) : State := { s with pending := .send w :: s.pending }

end Sys2Proof.Machine
end

