-- ==== Sys2Proof/Machine/Step.lean ====
section
/-! DEFINITION. The step of the block (R17): one command word of its port, in arrival order (R42), or one reset. -/

namespace Sys2Proof.Machine

/-- One step: the oldest move of the host is taken and carried out; with none, the state holds. -/
def step (s : State) : Host.Outcome State Fault Refusal := takeNext s

/-- The state with the given command word as the next the block takes. The block fetches nothing (R19): its program is
what the host sends, so this stands for the host sending that word now (log 9). -/
def State.withFetchWord (s : State) (nbits w : Nat) : State := placeNext (tableWord nbits w) s

end Sys2Proof.Machine
end

