-- ==== Sys2Proof/Machine/Pseudo.lean ====
section
/-! DEFINITION. The pseudo-instructions and their expansions (R59). A pseudo-instruction has no encoding and no meaning
of its own: the host sends the commands of its expansion, which respond one by one. The text they are written in is the
toolchain's, outside the block (R58). -/

namespace Sys2Proof.Machine

/-- The pseudo-instructions (R59), with their operands read: letters as indices, text as bytes. -/
inductive Pseudo where
  | loadWiring (k : Byte) (table : Table)
  | loadRefl (table : Table)
  | plugPairs (pairs : List (Letter × Letter))
  | rotors (types : List Byte)
  | rings (settings : List Byte)
  | xlateStr (text : List Byte)
deriving DecidableEq, Repr

/-- The commands of a pseudo-instruction, in the order given (R59). -/
def Pseudo.expand : Pseudo → List Instr
  | .loadWiring k table => letters.map fun i => .writeWiring k (letterByte i) (letterByte table[i])
  | .loadRefl table => letters.map fun i => .writeRefl (letterByte i) (letterByte table[i])
  | .plugPairs pairs => pairs.map fun p => .plugSwap (letterByte p.1) (letterByte p.2)
  | .rotors types =>
    .setRotorCount (BitVec.ofNat 8 types.length) ::
      types.zipIdx.map fun p => .loadRotorStd (BitVec.ofNat 8 p.2) p.1
  | .rings settings => settings.zipIdx.map fun p => .setRingSeed (BitVec.ofNat 8 p.2) p.1
  | .xlateStr text => text.map .xlateChar

/-- The host's moves that send a list of commands (R149). -/
def sendCommands (is : List Instr) : List HostMove := is.map fun i => .send (encode i)

end Sys2Proof.Machine
end

