-- ==== Sys2Proof/Safety.lean ====
section
/-! DEFINITION. The terms claims are stated in: response words as numbers, the states a refusal leaves, a valid key
(R83), the invariant (R78), and a safe run (R128, R148). They are written from the rules, not over the machine's own
operations, so that a claim compares two readings of the spec. -/

namespace Sys2Proof.Machine

/-- The response word with STATUS `status` in bits 15:8 and DATA `data` in bits 7:0 (R51). -/
def reply (status data : Nat) : Word := BitVec.ofNat 32 (status * 256 + data)

/-- The state after one more response word. -/
def State.replied (s : State) (w : Word) : State := { s with responses := s.responses ++ [w] }

/-- The state with BUILD_ERR set (R62). -/
def State.buildFailed (s : State) : State := { s with status := { s.status with buildErr := true } }

/-- The state with FAULT set (R91). -/
def State.faulted (s : State) : State := { s with status := { s.status with fault := true } }

/-- The key is locked (R77). -/
abbrev State.Locked (s : State) : Prop := s.status.keyValid = true

/-- The key is being built (R77). -/
abbrev State.Building (s : State) : Prop := s.status.keyValid = false

/-- The pipeline commands run: no fault, and a locked key (R87). -/
abbrev State.PipelineReady (s : State) : Prop := s.status.fault = false ∧ s.status.keyValid = true

/-- Slot `k` replaced by `slot`, every other part of the key store as it was. -/
def State.withSlot (s : State) (k : Byte) (slot : RotorSlot) : State :=
  { s with key := { s.key with slots := s.key.slots.set k.toNat slot } }

/-- The state after a refusal with ERR_RESERVED and field number `field` of a command of class `cls` (R54): only a
configuration command of a key being built does more than answer, setting BUILD_ERR (R62, R13; log 13). -/
def State.refusedReserved (s : State) (cls : CommandClass) (field : Nat) : State :=
  (if cls = .config ∧ s.Building then s.buildFailed else s).replied (reply 0x02 field)

/-- The unassigned OP values (R53). -/
abbrev UnassignedOp (op : Nat) : Prop :=
  (0x04 ≤ op ∧ op ≤ 0x0F) ∨ (0x18 ≤ op ∧ op ≤ 0x1F) ∨ (0x22 ≤ op ∧ op ≤ 0x2F) ∨ (0x33 ≤ op ∧ op ≤ 0x3F) ∨
  (0x41 ≤ op ∧ op ≤ 0x4F) ∨ (0x56 ≤ op ∧ op ≤ 0x5F) ∨ (0x6D ≤ op ∧ op ≤ 0xFF)

/-- The key store passes the checks of validate(), read as properties of its tables (R83 to R86). -/
structure KeyStore.Valid (key : KeyStore) : Prop where
  /-- every active rotor is a permutation (R84) -/
  rotors : ∀ k slot, k < key.rotorCount.toNat → key.slots[k]? = some slot → IsPermutation slot.wiring
  /-- the reflector is an involution (R85) -/
  reflector : IsInvolution key.refl
  /-- under REFL_NO_FIXED, the reflector has no fixed point (R85) -/
  noFixed : key.policy.getLsbD 1 = true → HasNoFixedPoint key.refl
  /-- the plugboard is an involution (R86) -/
  plugboard : IsInvolution key.plug

/-- The invariant of the block: the registers are in their ranges (R8, R21, R29), the ROM obeys its laws (R32), and a
locked key is valid and has no build error (R78). The ranges of the cells are in their type (R10). -/
structure State.Inv (s : State) : Prop where
  /-- 1 ≤ MAX_ROTORS ≤ 255 (R8) -/
  maxRotors : 1 ≤ s.maxRotors ∧ s.maxRotors ≤ 255
  /-- ROTOR_COUNT ≤ MAX_ROTORS (R21) -/
  rotorCount : s.key.rotorCount.toNat ≤ s.maxRotors
  /-- POLICY bits 7:2 are 0 (R29) -/
  policy : s.key.policy.toNat < 4
  /-- the laws of STD_ROM (R32) -/
  rom : s.rom.Lawful
  /-- a locked key passes the checks of R83 (R78) -/
  lockedValid : s.status.keyValid = true → s.key.Valid
  /-- a locked key has BUILD_ERR = 0 (R30, R78) -/
  lockedBuilt : s.status.keyValid = true → s.status.buildErr = false

/-- A run of `n` steps that is not a faulted run (R148, R128): no step stops, and FAULT = 0 at its end. -/
def SafeRun (n : Nat) (s : State) : Prop :=
  ∃ t, Host.Core.run Sys2Proof.core n s = .next t ∧ t.status.fault = false

/-- The encoding of a configuration command with operands S and B (form SB, R49): its word, and its refusal of a nonzero
field A (R54). -/
def OperandSBWord (op : Byte) (cmd : Byte → Byte → Instr) : Prop :=
  (∀ k b : Byte, decode (wordOf op k 0#8 b) = .command (cmd k b)) ∧
  (∀ (k a b : Byte) (s : State), a ≠ 0#8 → executeWord (wordOf op k a b) s = .next (s.refusedReserved .config 2))

/-- The encoding of a configuration command with operands A and B (form AB, R49): its word, and its refusal of a nonzero
field S (R54). -/
def OperandABWord (op : Byte) (cmd : Byte → Byte → Instr) : Prop :=
  (∀ a b : Byte, decode (wordOf op 0#8 a b) = .command (cmd a b)) ∧
  (∀ (k a b : Byte) (s : State), k ≠ 0#8 → executeWord (wordOf op k a b) s = .next (s.refusedReserved .config 1))

/-- The clauses of a command that writes slot k from fields S and B, both checked (R61, R67 to R70): its encoding, its
refusals and its writes. -/
def SlotRegisterRule (op : Byte) (cmd : Byte → Byte → Instr) (write : RotorSlot → Letter → RotorSlot) : Prop :=
  OperandSBWord op cmd ∧
  ∀ (k v : Byte) (s : State),
    (s.Locked → exec (cmd k v) s = .next (s.replied (reply 0x03 0))) ∧
    (s.Building → s.maxRotors ≤ k.toNat → exec (cmd k v) s = .next (s.buildFailed.replied (reply 0x05 1))) ∧
    (s.Building → k.toNat < s.maxRotors → 26 ≤ v.toNat →
      exec (cmd k v) s = .next (s.buildFailed.replied (reply 0x05 3))) ∧
    (∀ slot, s.Building → s.key.slots[k.toNat]? = some slot → ∀ hv : v.toNat < 26,
      exec (cmd k v) s = .next ((s.withSlot k (write slot ⟨v.toNat, hv⟩)).replied (reply 0 0)))

/-- The clauses of a command that writes a 26-entry table of the key store from fields A and B, both checked (R61, R72,
R74, R75). -/
def TableEntryRule (op : Byte) (cmd : Byte → Byte → Instr) (write : KeyStore → Letter → Letter → KeyStore) : Prop :=
  OperandABWord op cmd ∧
  ∀ (a b : Byte) (s : State),
    (s.Locked → exec (cmd a b) s = .next (s.replied (reply 0x03 0))) ∧
    (s.Building → 26 ≤ a.toNat → exec (cmd a b) s = .next (s.buildFailed.replied (reply 0x05 2))) ∧
    (s.Building → a.toNat < 26 → 26 ≤ b.toNat →
      exec (cmd a b) s = .next (s.buildFailed.replied (reply 0x05 3))) ∧
    (s.Building → ∀ (ha : a.toNat < 26) (hb : b.toNat < 26),
      exec (cmd a b) s =
        .next ({ s with key := write s.key ⟨a.toNat, ha⟩ ⟨b.toNat, hb⟩ }.replied (reply 0 0)))

/-- The encoding of a command of class `cls` with no operands (form Z, R49): its word, and its refusal of the first
nonzero field (R54). -/
def NoOperandWord (op : Byte) (cls : CommandClass) (cmd : Instr) : Prop :=
  decode (wordOf op 0#8 0#8 0#8) = .command cmd ∧
  (∀ (k a b : Byte) (s : State), k ≠ 0#8 → executeWord (wordOf op k a b) s = .next (s.refusedReserved cls 1)) ∧
  (∀ (a b : Byte) (s : State), a ≠ 0#8 → executeWord (wordOf op 0#8 a b) s = .next (s.refusedReserved cls 2)) ∧
  (∀ (b : Byte) (s : State), b ≠ 0#8 → executeWord (wordOf op 0#8 0#8 b) s = .next (s.refusedReserved cls 3))

/-- The encoding of a command of class `cls` whose one operand is field B (form B, R49), and its refusals (R54). -/
def OperandBWord (op : Byte) (cls : CommandClass) (cmd : Byte → Instr) : Prop :=
  (∀ b : Byte, decode (wordOf op 0#8 0#8 b) = .command (cmd b)) ∧
  (∀ (k a b : Byte) (s : State), k ≠ 0#8 → executeWord (wordOf op k a b) s = .next (s.refusedReserved cls 1)) ∧
  (∀ (a b : Byte) (s : State), a ≠ 0#8 → executeWord (wordOf op 0#8 a b) s = .next (s.refusedReserved cls 2))

/-- The encoding of a read command whose one operand is field S (form S, R49), and its refusals (R54). -/
def OperandSWord (op : Byte) (cmd : Byte → Instr) : Prop :=
  (∀ k : Byte, decode (wordOf op k 0#8 0#8) = .command (cmd k)) ∧
  (∀ (k a b : Byte) (s : State), a ≠ 0#8 → executeWord (wordOf op k a b) s = .next (s.refusedReserved .readBack 2)) ∧
  (∀ (k b : Byte) (s : State), b ≠ 0#8 → executeWord (wordOf op k 0#8 b) s = .next (s.refusedReserved .readBack 3))

/-- The encoding of a read command whose one operand is field A (form A, R49), and its refusals (R54). -/
def OperandAWord (op : Byte) (cmd : Byte → Instr) : Prop :=
  (∀ a : Byte, decode (wordOf op 0#8 a 0#8) = .command (cmd a)) ∧
  (∀ (k a b : Byte) (s : State), k ≠ 0#8 → executeWord (wordOf op k a b) s = .next (s.refusedReserved .readBack 1)) ∧
  (∀ (a b : Byte) (s : State), b ≠ 0#8 → executeWord (wordOf op 0#8 a b) s = .next (s.refusedReserved .readBack 3))

/-- The encoding of a read command with operands S and A (form SA, R49), and its refusal (R54). -/
def OperandSAWord (op : Byte) (cmd : Byte → Byte → Instr) : Prop :=
  (∀ k a : Byte, decode (wordOf op k a 0#8) = .command (cmd k a)) ∧
  (∀ (k a b : Byte) (s : State), b ≠ 0#8 → executeWord (wordOf op k a b) s = .next (s.refusedReserved .readBack 3))

/-- The clauses of a pipeline command on one index in field B (R87, R93, R96 to R99): its encoding, its refusals, the
output `stage` gives, and the fault when `stage` gives none. -/
def StageRule (op : Byte) (cmd : Byte → Instr) (stage : KeyStore → Letter → Except ErrorReport Letter) : Prop :=
  OperandBWord op .pipeline cmd ∧
  ∀ (v : Byte) (s : State),
    (s.status.fault = true → exec (cmd v) s = .next (s.replied (reply 0x07 0))) ∧
    (s.status.fault = false → s.Building → exec (cmd v) s = .next (s.replied (reply 0x04 0))) ∧
    (s.PipelineReady → 26 ≤ v.toNat → exec (cmd v) s = .next (s.replied (reply 0x05 3))) ∧
    (s.PipelineReady → ∀ (hv : v.toNat < 26) (o : Letter), stage s.key ⟨v.toNat, hv⟩ = .ok o →
      exec (cmd v) s = .next (s.replied (reply 0 o.val))) ∧
    (s.PipelineReady → ∀ (hv : v.toNat < 26) (e : ErrorReport), stage s.key ⟨v.toNat, hv⟩ = .error e →
      exec (cmd v) s = .next (s.faulted.replied (reply 0x20 e.data.toNat)))

/-- The clauses of a read of one register of slot k, named in field S (R108, R111 to R113). -/
def SlotReadRule (op : Byte) (cmd : Byte → Instr) (read : RotorSlot → Letter) : Prop :=
  OperandSWord op cmd ∧
  ∀ (k : Byte) (s : State),
    (s.maxRotors ≤ k.toNat → exec (cmd k) s = .next (s.replied (reply 0x05 1))) ∧
    (∀ slot, s.key.slots[k.toNat]? = some slot → exec (cmd k) s = .next (s.replied (reply 0 (read slot).val)))

/-- The clauses of a read of one entry of a table of the key store, named in field A (R108, R114, R115). -/
def TableReadRule (op : Byte) (cmd : Byte → Instr) (read : KeyStore → Table) : Prop :=
  OperandAWord op cmd ∧
  ∀ (a : Byte) (s : State),
    (26 ≤ a.toNat → exec (cmd a) s = .next (s.replied (reply 0x05 2))) ∧
    (∀ ha : a.toNat < 26,
      exec (cmd a) s = .next (s.replied (reply 0 ((read s.key)[(⟨a.toNat, ha⟩ : Letter)]).val)))

/-- Two key stores that the pipeline cannot tell apart (R21, R24): the same count, reflector, plugboard and policy, and
active slots with the same wirings, positions and rings. Notches and inactive slots may differ. -/
def KeyStore.SamePipeline (key key' : KeyStore) : Prop :=
  key.rotorCount = key'.rotorCount ∧ key.refl = key'.refl ∧ key.plug = key'.plug ∧ key.policy = key'.policy ∧
  ∀ k, k < key.rotorCount.toNat →
    (key.slots[k]?).map (fun slot => (slot.wiring, slot.pos, slot.ring)) =
    (key'.slots[k]?).map (fun slot => (slot.wiring, slot.pos, slot.ring))

end Sys2Proof.Machine
end

