-- ==== Sys2Proof/Certificates/Slice0/Obligations.lean ====
section
/-! DEFINITION. The statements for the provers, in the order encoding, step and responses, configuration, lifecycle,
pipeline, read-back, invariants, laws. The response words are written as numbers by `reply` (Safety.lean). -/

open Sys2Proof Sys2Proof.Machine

/-! ### Encoding -/

/-- R52: the row of every opcode, as a word with its operands in the fields its form uses. -/
def Obligations.EveryOpcodeRowDecodes : Prop :=
  ∀ k a b : Byte,
    decode (wordOf 0x00#8 0#8 0#8 0#8) = .command .nop ∧
    decode (wordOf 0x01#8 0#8 0#8 0#8) = .command .keyClear ∧
    decode (wordOf 0x02#8 0#8 0#8 0#8) = .command .unlock ∧
    decode (wordOf 0x03#8 0#8 0#8 0#8) = .command .commit ∧
    decode (wordOf 0x10#8 0#8 0#8 b) = .command (.setRotorCount b) ∧
    decode (wordOf 0x11#8 k 0#8 b) = .command (.loadRotorStd k b) ∧
    decode (wordOf 0x12#8 k 0#8 b) = .command (.loadRotorShift k b) ∧
    decode (wordOf 0x13#8 k a b) = .command (.writeWiring k a b) ∧
    decode (wordOf 0x14#8 k 0#8 b) = .command (.setNotch k b) ∧
    decode (wordOf 0x15#8 k 0#8 b) = .command (.setPosition k b) ∧
    decode (wordOf 0x16#8 k 0#8 b) = .command (.setRing k b) ∧
    decode (wordOf 0x17#8 k 0#8 b) = .command (.setRingSeed k b) ∧
    decode (wordOf 0x20#8 0#8 0#8 b) = .command (.loadReflStd b) ∧
    decode (wordOf 0x21#8 0#8 a b) = .command (.writeRefl a b) ∧
    decode (wordOf 0x30#8 0#8 0#8 0#8) = .command .plugClear ∧
    decode (wordOf 0x31#8 0#8 a b) = .command (.plugSwap a b) ∧
    decode (wordOf 0x32#8 0#8 a b) = .command (.writePlug a b) ∧
    decode (wordOf 0x40#8 0#8 0#8 b) = .command (.setPolicy b) ∧
    decode (wordOf 0x50#8 0#8 0#8 b) = .command (.xlateIndex b) ∧
    decode (wordOf 0x51#8 0#8 0#8 b) = .command (.xlateChar b) ∧
    decode (wordOf 0x52#8 0#8 0#8 b) = .command (.stagePlug b) ∧
    decode (wordOf 0x53#8 0#8 0#8 b) = .command (.stageFwd b) ∧
    decode (wordOf 0x54#8 0#8 0#8 b) = .command (.stageRefl b) ∧
    decode (wordOf 0x55#8 0#8 0#8 b) = .command (.stageBwd b) ∧
    decode (wordOf 0x60#8 k a 0#8) = .command (.readWiring k a) ∧
    decode (wordOf 0x61#8 k 0#8 0#8) = .command (.readNotch k) ∧
    decode (wordOf 0x62#8 k 0#8 0#8) = .command (.readPosition k) ∧
    decode (wordOf 0x63#8 k 0#8 0#8) = .command (.readRing k) ∧
    decode (wordOf 0x64#8 0#8 a 0#8) = .command (.readRefl a) ∧
    decode (wordOf 0x65#8 0#8 a 0#8) = .command (.readPlug a) ∧
    decode (wordOf 0x66#8 0#8 0#8 0#8) = .command .readRotorCount ∧
    decode (wordOf 0x67#8 0#8 0#8 0#8) = .command .readPolicy ∧
    decode (wordOf 0x68#8 0#8 0#8 0#8) = .command .readStatus ∧
    decode (wordOf 0x69#8 0#8 0#8 0#8) = .command .readMaxRotors ∧
    decode (wordOf 0x6A#8 k a 0#8) = .command (.readRomWiring k a) ∧
    decode (wordOf 0x6B#8 k 0#8 0#8) = .command (.readRomNotch k) ∧
    decode (wordOf 0x6C#8 k a 0#8) = .command (.readRomRefl k a)

/-- R60: the worked examples, four encodings and two refusals, the refusals from every state of the block. -/
def Obligations.WorkedEncodingExamples : Prop :=
  decode 0x13020710#32 = .command (.writeWiring 2#8 7#8 16#8) ∧
  decode 0x51000061#32 = .command (.xlateChar 0x61#8) ∧
  decode 0x10000003#32 = .command (.setRotorCount 3#8) ∧
  decode 0x03000000#32 = .command .commit ∧
  encode (.writeWiring 2#8 7#8 16#8) = 0x13020710#32 ∧
  encode (.xlateChar 0x61#8) = 0x51000061#32 ∧
  encode (.setRotorCount 3#8) = 0x10000003#32 ∧
  encode .commit = 0x03000000#32 ∧
  (∀ s : State, executeWord 0x03000001#32 s = .next (s.replied 0x00000203#32)) ∧
  (∀ s : State, executeWord 0x7F000000#32 s = .next (s.replied 0x0000017F#32))

/-- Decoding the word of any command gives the command back, with every operand at every value of its field. Rests on
R48, R49, R52 and R57; the encoder is the model's own. -/
def Obligations.DecodeOfEncodeIsTheCommand : Prop :=
  ∀ i : Instr, decode (encode i) = .command i

/-- Each word has at most one meaning to an encoder: the command a word decodes to encodes as that word. Rests on R57. -/
def Obligations.CommandWordsEncodeBack : Prop :=
  ∀ (w : Word) (i : Instr), decode w = .command i → encode i = w

/-- R57's second form, the mask and match of opcode_table.json: a word decodes to the command of the row whose match it
meets, at most one row matches, and a word of an assigned OP that matches no row has a nonzero field its form does not
use. -/
def Obligations.DecoderIsTheMaskTable : Prop :=
  ∀ w : Word,
    (∀ op : Opcode, w &&& op.form.mask = wordOf op.byte 0#8 0#8 0#8 ↔
      decode w = .command (op.command (sField w) (aField w) (bField w))) ∧
    (∀ op op' : Opcode, w &&& op.form.mask = wordOf op.byte 0#8 0#8 0#8 →
      w &&& op'.form.mask = wordOf op'.byte 0#8 0#8 0#8 → op = op') ∧
    (∀ op : Opcode, opField w = op.byte → w &&& op.form.mask ≠ wordOf op.byte 0#8 0#8 0#8 →
      ∃ f : Field, fieldOf w f ≠ 0#8 ∧ op.form.uses f = false ∧ ∃ f' : Field, decode w = .reserved op f')

/-- R53: the illegal OP values are exactly those of the rule's list, and a command with one changes no state and responds
ERR_ILLEGAL with the OP value. -/
def Obligations.UnassignedOpcodesAnswerIllegal : Prop :=
  ∀ w : Word,
    (UnassignedOp (w.toNat / 2 ^ 24) ↔ ∃ op : Byte, decode w = .illegal op) ∧
    (UnassignedOp (w.toNat / 2 ^ 24) → ∀ s : State,
      executeWord w s = .next (s.replied (reply 0x01 (w.toNat / 2 ^ 24))))

/-- The reserved fields of R54, with the BUILD_ERR that R62 and R13 add for a configuration command while unlocked
(log 13): an assigned opcode with a nonzero field its form does not use answers ERR_RESERVED with the number of the
first such field in the order S, A, B, before any other check. -/
def Obligations.ReservedFieldsAnswerReserved : Prop :=
  ∀ (op : Opcode) (w : Word) (s : State), opField w = op.byte →
    (sField w ≠ 0#8 → op.form.uses .S = false →
      executeWord w s = .next (s.refusedReserved op.commandClass 1)) ∧
    ((sField w = 0#8 ∨ op.form.uses .S = true) → aField w ≠ 0#8 → op.form.uses .A = false →
      executeWord w s = .next (s.refusedReserved op.commandClass 2)) ∧
    ((sField w = 0#8 ∨ op.form.uses .S = true) → (aField w = 0#8 ∨ op.form.uses .A = true) →
      bField w ≠ 0#8 → op.form.uses .B = false →
      executeWord w s = .next (s.refusedReserved op.commandClass 3))

/-! ### The step and its responses -/

/-- R42, R17: a step takes the oldest word the host has sent; when it decodes to a command, the step is that command's
meaning on the state without that word. With nothing sent, the state holds (R138). The queue is the model's (log 6). -/
def Obligations.StepRunsTheDecodedCommand : Prop :=
  (∀ (s : State) (w : Word) (rest : List HostMove) (i : Instr), s.pending = .send w :: rest →
    decode w = .command i → step s = exec i { s with pending := rest }) ∧
  (∀ (s : State) (w : Word) (rest : List HostMove), s.pending = .send w :: rest →
    step s = executeWord w { s with pending := rest }) ∧
  (∀ (s : State) (cutOff : Option Word) (rest : List HostMove), s.pending = .reset cutOff :: rest →
    step s = takeMove (.reset cutOff) { s with pending := rest }) ∧
  (∀ s : State, s.pending = [] → step s = .next s)

/-- R139 and R34: a reset puts every register, table and flag to its reset value, leaves the ROM and the number of
slots, and gives no response, not even to a command it cuts off. -/
def Obligations.ResetRestoresTheResetState : Prop :=
  ∀ (s : State) (cutOff : Option Word),
    ∃ t : State, takeMove (.reset cutOff) s = .next t ∧
      t.key.rotorCount = 0#8 ∧
      t.maxRotors = s.maxRotors ∧
      (∀ slot ∈ t.key.slots, (∀ i : Letter, slot.wiring[i] = i) ∧ slot.notch = 0 ∧ slot.pos = 0 ∧ slot.ring = 0) ∧
      t.key.refl = s.rom.refls[0] ∧
      (∀ i : Letter, t.key.plug[i] = i) ∧
      t.key.policy = 0x00#8 ∧
      t.status = { keyValid := false, fault := false, buildErr := false } ∧
      t.rom = s.rom ∧
      t.responses = s.responses

/-- R51 and R124: every command word, accepted or refused, gives exactly one response word {0x0000, STATUS, DATA}, whose
STATUS is one of the codes of R124; the ROM is not written. -/
def Obligations.EveryWordGetsOneResponse : Prop :=
  ∀ (w : Word) (s : State), ∃ (t : State) (status data : Nat),
    executeWord w s = .next t ∧
    t.responses = s.responses ++ [reply status data] ∧
    status ∈ [0x00, 0x01, 0x02, 0x03, 0x04, 0x05, 0x06, 0x07, 0x10, 0x11, 0x12, 0x13, 0x14, 0x20] ∧
    data < 256 ∧
    t.pending = s.pending ∧
    t.rom = s.rom

/-- R42: words are executed one at a time in the order they arrive, and each completes before the next begins. After any
first part `ws` of what the host sends, exactly one response per word of `ws` has been given, after the responses given
before, and the next word is executed on the very state that `ws` left. The queue that holds the words is the model's own
(log 6, DESIGN CHOICE). -/
def Obligations.RunAnswersEveryWordInOrder : Prop :=
  ∀ (ws ws' : List Word) (s : State), s.pending = (ws ++ ws').map HostMove.send →
    ∃ (t : State) (rs : List Word), Host.Core.run Sys2Proof.core ws.length s = .next t ∧
      t.pending = ws'.map HostMove.send ∧ t.responses = s.responses ++ rs ∧ rs.length = ws.length ∧
      ∀ (w : Word) (rest : List Word), ws' = w :: rest → ∃ (u : State) (r : Word),
        executeWord w { t with pending := rest.map HostMove.send } = .next u ∧
        u.responses = t.responses ++ [r] ∧
        Host.Core.run Sys2Proof.core (ws.length + 1) s = .next u

/-- R123 and R39: a word whose response is not OK leaves all state unchanged but for two flags; FAULT changes only with
the response FAULT_INVERSE_MISS, and BUILD_ERR only on a configuration command refused with ERR_RESERVED, ERR_RANGE or
ERR_SELECTOR while unlocked (R13, R62). -/
def Obligations.RefusedCommandsChangeOnlyTwoFlags : Prop :=
  ∀ (w : Word) (s t : State) (status data : Nat), executeWord w s = .next t → status < 256 → data < 256 →
    t.responses = s.responses ++ [reply status data] → status ≠ 0 →
    (∃ fault buildErr : Bool,
      t = { s with status := { s.status with fault := fault, buildErr := buildErr },
                   responses := s.responses ++ [reply status data] }) ∧
    (t.status.fault ≠ s.status.fault → status = 0x20 ∧ t.status.fault = true) ∧
    (t.status.buildErr ≠ s.status.buildErr → t.status.buildErr = true ∧ s.Building ∧
      (status = 0x02 ∨ status = 0x05 ∨ status = 0x06) ∧
      ∃ op : Opcode, opField w = op.byte ∧ op.commandClass = .config)

/-! ### Configuration -/

/-- R62, with the commands R61 lists, opcodes 0x10 to 0x40. On a locked key one answers ERR_LOCKED and changes nothing; on
an unlocked key it is executed when its operands are in range, and otherwise refused with ERR_RESERVED, ERR_RANGE or
ERR_SELECTOR, which sets BUILD_ERR and changes nothing else, and so does a nonzero unused field. BUILD_ERR then stays, with
COMMIT failing with ERR_BUILD, until KEY_CLEAR or reset clears it. -/
def Obligations.ConfigurationRefusalsMarkTheBuild : Prop :=
  (∀ op : Opcode, op.commandClass = .config ↔ 0x10 ≤ op.byte.toNat ∧ op.byte.toNat ≤ 0x40) ∧
  (∀ (w : Word) (op : Opcode) (f : Field) (s : State), decode w = .reserved op f → op.commandClass = .config →
    ∃ n : Nat, 1 ≤ n ∧ n ≤ 3 ∧
      (s.Locked → executeWord w s = .next (s.replied (reply 0x02 n))) ∧
      (s.Building → executeWord w s = .next (s.buildFailed.replied (reply 0x02 n)))) ∧
  (∀ (i : Instr) (s : State), i.commandClass = .config →
    (s.Locked → exec i s = .next (s.replied (reply 0x03 0))) ∧
    (s.Building → i.wellFormed s.maxRotors = true →
      ∃ key : KeyStore, exec i s = .next ({ s with key := key }.replied (reply 0 0))) ∧
    (s.Building → i.wellFormed s.maxRotors = false →
      ∃ code field : Nat, (code = 0x02 ∨ code = 0x05 ∨ code = 0x06) ∧ 1 ≤ field ∧ field ≤ 3 ∧
        exec i s = .next (s.buildFailed.replied (reply code field)))) ∧
  (∀ s : State, s.Building → s.status.buildErr = true → exec .commit s = .next (s.replied (reply 0x14 0))) ∧
  (∀ (w : Word) (s t : State), s.Building → s.status.buildErr = true → w ≠ 0x01000000#32 → executeWord w s = .next t →
    t.Building ∧ t.status.buildErr = true) ∧
  (∀ (s : State) (cutOff : Option Word),
    (∃ t : State, executeWord 0x01000000#32 s = .next t ∧ t.status.buildErr = false) ∧
    (∃ t : State, takeMove (.reset cutOff) s = .next t ∧ t.status.buildErr = false))

/-- R63: SET_ROTOR_COUNT. -/
def Obligations.SetRotorCountRule : Prop :=
  OperandBWord 0x10#8 .config .setRotorCount ∧
  ∀ (n : Byte) (s : State),
    (s.Locked → exec (.setRotorCount n) s = .next (s.replied (reply 0x03 0))) ∧
    (s.Building → s.maxRotors < n.toNat →
      exec (.setRotorCount n) s = .next (s.buildFailed.replied (reply 0x05 3))) ∧
    (s.Building → n.toNat ≤ s.maxRotors →
      exec (.setRotorCount n) s = .next ({ s with key := { s.key with rotorCount := n } }.replied (reply 0 0)))

/-- R64: LOAD_ROTOR_STD. Type t is entry t - 1 of the model's ROM. -/
def Obligations.LoadRotorStdRule : Prop :=
  OperandSBWord 0x11#8 .loadRotorStd ∧
  ∀ (k t : Byte) (s : State),
    (s.Locked → exec (.loadRotorStd k t) s = .next (s.replied (reply 0x03 0))) ∧
    (s.Building → s.maxRotors ≤ k.toNat →
      exec (.loadRotorStd k t) s = .next (s.buildFailed.replied (reply 0x05 1))) ∧
    (s.Building → k.toNat < s.maxRotors → (t.toNat < 1 ∨ 8 < t.toNat) →
      exec (.loadRotorStd k t) s = .next (s.buildFailed.replied (reply 0x06 3))) ∧
    (∀ (slot : RotorSlot) (std : StdRotor), s.Building → s.key.slots[k.toNat]? = some slot → 1 ≤ t.toNat →
      s.rom.rotors[t.toNat - 1]? = some std →
      exec (.loadRotorStd k t) s =
        .next ((s.withSlot k { slot with wiring := std.wiring, notch := std.notch }).replied (reply 0 0)))

/-- R65: LOAD_ROTOR_SHIFT. Entry i of the new wiring is (i + s) mod 26, and the notch is 0. -/
def Obligations.LoadRotorShiftRule : Prop :=
  OperandSBWord 0x12#8 .loadRotorShift ∧
  ∀ (k sh : Byte) (s : State),
    (s.Locked → exec (.loadRotorShift k sh) s = .next (s.replied (reply 0x03 0))) ∧
    (s.Building → s.maxRotors ≤ k.toNat →
      exec (.loadRotorShift k sh) s = .next (s.buildFailed.replied (reply 0x05 1))) ∧
    (s.Building → k.toNat < s.maxRotors → 26 ≤ sh.toNat →
      exec (.loadRotorShift k sh) s = .next (s.buildFailed.replied (reply 0x05 3))) ∧
    (∀ slot, s.Building → s.key.slots[k.toNat]? = some slot → sh.toNat < 26 →
      ∃ table : Table, (∀ i : Letter, (table[i]).val = (i.val + sh.toNat) % 26) ∧
        exec (.loadRotorShift k sh) s =
          .next ((s.withSlot k { slot with wiring := table, notch := 0 }).replied (reply 0 0)))

/-- R66: WRITE_WIRING. -/
def Obligations.WriteWiringRule : Prop :=
  ∀ (k a v : Byte) (s : State),
    decode (wordOf 0x13#8 k a v) = .command (.writeWiring k a v) ∧
    (s.Locked → exec (.writeWiring k a v) s = .next (s.replied (reply 0x03 0))) ∧
    (s.Building → s.maxRotors ≤ k.toNat →
      exec (.writeWiring k a v) s = .next (s.buildFailed.replied (reply 0x05 1))) ∧
    (s.Building → k.toNat < s.maxRotors → 26 ≤ a.toNat →
      exec (.writeWiring k a v) s = .next (s.buildFailed.replied (reply 0x05 2))) ∧
    (s.Building → k.toNat < s.maxRotors → a.toNat < 26 → 26 ≤ v.toNat →
      exec (.writeWiring k a v) s = .next (s.buildFailed.replied (reply 0x05 3))) ∧
    (∀ slot, s.Building → s.key.slots[k.toNat]? = some slot → ∀ (ha : a.toNat < 26) (hv : v.toNat < 26),
      exec (.writeWiring k a v) s =
        .next ((s.withSlot k { slot with wiring := slot.wiring.set a.toNat ⟨v.toNat, hv⟩ }).replied (reply 0 0)))

/-- R67 to R70: SET_NOTCH, SET_POSITION, SET_RING and SET_RING_SEED write their registers of slot k and no other. -/
def Obligations.SlotRegisterCommandsRule : Prop :=
  SlotRegisterRule 0x14#8 .setNotch (fun slot v => { slot with notch := v }) ∧
  SlotRegisterRule 0x15#8 .setPosition (fun slot v => { slot with pos := v }) ∧
  SlotRegisterRule 0x16#8 .setRing (fun slot v => { slot with ring := v }) ∧
  SlotRegisterRule 0x17#8 .setRingSeed (fun slot v => { slot with ring := v, pos := v })

/-- R71: LOAD_REFL_STD. -/
def Obligations.LoadReflStdRule : Prop :=
  OperandBWord 0x20#8 .config .loadReflStd ∧
  ∀ (r : Byte) (s : State),
    (s.Locked → exec (.loadReflStd r) s = .next (s.replied (reply 0x03 0))) ∧
    (s.Building → 1 < r.toNat → exec (.loadReflStd r) s = .next (s.buildFailed.replied (reply 0x06 3))) ∧
    (∀ table : Table, s.Building → s.rom.refls[r.toNat]? = some table →
      exec (.loadReflStd r) s = .next ({ s with key := { s.key with refl := table } }.replied (reply 0 0)))

/-- R72 and R75: WRITE_REFL and WRITE_PLUG write one entry of their table. -/
def Obligations.TableEntryCommandsRule : Prop :=
  TableEntryRule 0x21#8 .writeRefl
    (fun key i v => { key with refl := key.refl.set i v }) ∧
  TableEntryRule 0x32#8 .writePlug
    (fun key i v => { key with plug := key.plug.set i v })

/-- R73: PLUG_CLEAR leaves PLUG[i] = i for every i. -/
def Obligations.PlugClearRule : Prop :=
  NoOperandWord 0x30#8 .config .plugClear ∧
  ∀ s : State,
    (s.Locked → exec .plugClear s = .next (s.replied (reply 0x03 0))) ∧
    (s.Building → ∃ table : Table, (∀ i : Letter, table[i] = i) ∧
      exec .plugClear s = .next ({ s with key := { s.key with plug := table } }.replied (reply 0 0)))

/-- R74: PLUG_SWAP writes PLUG[a] = b and PLUG[b] = a, the second write winning when a = b, and no other entry: an
earlier pairing of a or b is not undone. -/
def Obligations.PlugSwapRule : Prop :=
  OperandABWord 0x31#8 .plugSwap ∧
  ∀ (a b : Byte) (s : State),
    (s.Locked → exec (.plugSwap a b) s = .next (s.replied (reply 0x03 0))) ∧
    (s.Building → 26 ≤ a.toNat → exec (.plugSwap a b) s = .next (s.buildFailed.replied (reply 0x05 2))) ∧
    (s.Building → a.toNat < 26 → 26 ≤ b.toNat →
      exec (.plugSwap a b) s = .next (s.buildFailed.replied (reply 0x05 3))) ∧
    (s.Building → a.toNat < 26 → b.toNat < 26 → ∃ table : Table,
      (∀ i : Letter, (table[i]).val =
        if i.val = b.toNat then a.toNat else if i.val = a.toNat then b.toNat else (s.key.plug[i]).val) ∧
      exec (.plugSwap a b) s = .next ({ s with key := { s.key with plug := table } }.replied (reply 0 0)))

/-- R76: SET_POLICY. -/
def Obligations.SetPolicyRule : Prop :=
  OperandBWord 0x40#8 .config .setPolicy ∧
  ∀ (f : Byte) (s : State),
    (s.Locked → exec (.setPolicy f) s = .next (s.replied (reply 0x03 0))) ∧
    (s.Building → 4 ≤ f.toNat → exec (.setPolicy f) s = .next (s.buildFailed.replied (reply 0x02 3))) ∧
    (s.Building → f.toNat < 4 →
      exec (.setPolicy f) s = .next ({ s with key := { s.key with policy := f } }.replied (reply 0 0)))

/-- R59, the expansions of LOAD_WIRING and LOAD_REFL: sent to a block that is building its key, they leave exactly the
table they were given, and 26 responses OK. Rests on R66 and R72 too. The queue they are sent through is the model's own
(log 6, DESIGN CHOICE). -/
def Obligations.HandBuiltTablesAreLoaded : Prop :=
  ∀ (table : Table) (s : State), s.Building →
    (∀ (k : Byte) (slot : RotorSlot), s.key.slots[k.toNat]? = some slot →
      s.pending = sendCommands (Pseudo.loadWiring k table).expand →
      Host.Core.run Sys2Proof.core 26 s =
        .next { s.withSlot k { slot with wiring := table } with
                pending := [], responses := s.responses ++ List.replicate 26 0#32 }) ∧
    (s.pending = sendCommands (Pseudo.loadRefl table).expand →
      Host.Core.run Sys2Proof.core 26 s =
        .next { s with key := { s.key with refl := table },
                       pending := [], responses := s.responses ++ List.replicate 26 0#32 })

/-! ### The key lifecycle -/

/-- R80: KEY_CLEAR returns the key store to the reset values in both phases, clears KEY_VALID and BUILD_ERR, and leaves
FAULT, the ROM and the number of slots. -/
def Obligations.KeyClearRule : Prop :=
  NoOperandWord 0x01#8 .lifecycle .keyClear ∧
  ∀ s : State, ∃ key : KeyStore,
    exec .keyClear s =
      .next ({ s with key := key, status := { keyValid := false, fault := s.status.fault, buildErr := false } }.replied
        (reply 0 0)) ∧
    key.rotorCount = 0#8 ∧
    key.slots.length = s.maxRotors ∧
    (∀ slot ∈ key.slots, (∀ i : Letter, slot.wiring[i] = i) ∧ slot.notch = 0 ∧ slot.pos = 0 ∧ slot.ring = 0) ∧
    key.refl = s.rom.refls[0] ∧
    (∀ i : Letter, key.plug[i] = i) ∧
    key.policy = 0#8

/-- R80's corner case, which the spec derives from R32: under a lawful ROM, KEY_CLEAR followed by COMMIT always succeeds. -/
def Obligations.KeyClearThenCommitSucceeds : Prop :=
  ∀ s : State, s.rom.Lawful → ∃ t u : State,
    exec .keyClear s = .next t ∧ exec .commit t = .next u ∧
    u.status = { keyValid := true, fault := s.status.fault, buildErr := false } ∧
    u.key = t.key ∧ u.responses = s.responses ++ [0#32, 0#32]

/-- R81: UNLOCK clears KEY_VALID and changes nothing else, in both phases. -/
def Obligations.UnlockRule : Prop :=
  NoOperandWord 0x02#8 .lifecycle .unlock ∧
  ∀ s : State,
    exec .unlock s = .next ({ s with status := { s.status with keyValid := false } }.replied (reply 0 0))

/-- R82: COMMIT on a locked key answers OK and changes nothing; with BUILD_ERR it answers ERR_BUILD; on a key that is
valid by R83 it sets KEY_VALID; on a key that is not, it answers one of the four validation errors and changes nothing. -/
def Obligations.CommitRule : Prop :=
  NoOperandWord 0x03#8 .lifecycle .commit ∧
  ∀ s : State,
    (s.Locked → exec .commit s = .next (s.replied (reply 0 0))) ∧
    (s.Building → s.status.buildErr = true → exec .commit s = .next (s.replied (reply 0x14 0))) ∧
    (s.Building → s.status.buildErr = false → s.key.Valid →
      exec .commit s = .next ({ s with status := { s.status with keyValid := true } }.replied (reply 0 0))) ∧
    (s.Building → s.status.buildErr = false → ¬ s.key.Valid →
      ∃ code data : Nat, (code = 0x10 ∨ code = 0x11 ∨ code = 0x12 ∨ code = 0x13) ∧ data < 256 ∧
        exec .commit s = .next (s.replied (reply code data)))

/-- R83 to R86: the checks of COMMIT run in the order rotors, reflector involution, reflector fixed points under
REFL_NO_FIXED, plugboard, and the first failing check answers its code with the smallest failing slot or letter; when
none fails, COMMIT locks the key. -/
def Obligations.CommitReportsTheFirstFailure : Prop :=
  ∀ s : State, s.Building → s.status.buildErr = false →
    (s.key.Valid →
      exec .commit s = .next ({ s with status := { s.status with keyValid := true } }.replied (reply 0 0))) ∧
    (∀ (k : Nat) (slot : RotorSlot), k < s.key.rotorCount.toNat → s.key.slots[k]? = some slot →
      ¬ IsPermutation slot.wiring →
      (∀ (j : Nat) (r : RotorSlot), j < k → s.key.slots[j]? = some r → IsPermutation r.wiring) →
      exec .commit s = .next (s.replied (reply 0x10 k))) ∧
    ((∀ (k : Nat) (slot : RotorSlot), k < s.key.rotorCount.toNat → s.key.slots[k]? = some slot →
        IsPermutation slot.wiring) →
      (∀ x : Letter, s.key.refl[s.key.refl[x]] ≠ x → (∀ y : Letter, y < x → s.key.refl[s.key.refl[y]] = y) →
        exec .commit s = .next (s.replied (reply 0x11 x.val))) ∧
      (IsInvolution s.key.refl →
        (∀ x : Letter, s.key.policy.getLsbD 1 = true → s.key.refl[x] = x → (∀ y : Letter, y < x → s.key.refl[y] ≠ y) →
          exec .commit s = .next (s.replied (reply 0x12 x.val))) ∧
        ((s.key.policy.getLsbD 1 = true → HasNoFixedPoint s.key.refl) →
          ∀ x : Letter, s.key.plug[s.key.plug[x]] ≠ x → (∀ y : Letter, y < x → s.key.plug[s.key.plug[y]] = y) →
            exec .commit s = .next (s.replied (reply 0x13 x.val)))))

/-- R79's message-key change, and what the spec derives in R78: from a locked key that meets the invariant, UNLOCK then
COMMIT answers OK twice and leaves the key store and the flags as they were. -/
def Obligations.UnlockThenCommitRestores : Prop :=
  ∀ s : State, s.Inv → s.Locked → ∃ t : State,
    exec .unlock s = .next t ∧ t.Building ∧ t.key = s.key ∧
    exec .commit t = .next ((s.replied (reply 0 0)).replied (reply 0 0))

/-! ### The pipeline -/

/-- R87: on every pipeline command, opcodes 0x50 to 0x55, the unused fields are checked first, then the fault, then the
key, then the operand; and a pipeline command never writes the key store: the one state it can write is FAULT. -/
def Obligations.PipelineChecksComeInOrder : Prop :=
  (∀ op : Opcode, op.commandClass = .pipeline ↔ 0x50 ≤ op.byte.toNat ∧ op.byte.toNat ≤ 0x55) ∧
  (∀ (w : Word) (op : Opcode) (f : Field) (s : State), decode w = .reserved op f → op.commandClass = .pipeline →
    ∃ n : Nat, 1 ≤ n ∧ n ≤ 3 ∧ executeWord w s = .next (s.replied (reply 0x02 n))) ∧
  ∀ (i : Instr) (s : State), i.commandClass = .pipeline →
    (s.status.fault = true → exec i s = .next (s.replied (reply 0x07 0))) ∧
    (s.status.fault = false → s.Building → exec i s = .next (s.replied (reply 0x04 0))) ∧
    (s.PipelineReady → i.wellFormed s.maxRotors = false → exec i s = .next (s.replied (reply 0x05 3))) ∧
    (s.PipelineReady → i.wellFormed s.maxRotors = true →
      (∃ data : Nat, data < 256 ∧ exec i s = .next (s.replied (reply 0 data))) ∨
      (∃ k : Nat, k < 256 ∧ exec i s = .next (s.faulted.replied (reply 0x20 k))))

/-- R89: the forward pass meets slot 0 first; each slot takes v to WIRING[(v + POS - RING) mod 26] - POS + RING mod 26;
with ROTOR_COUNT = 0 it is the identity. Stated by the last active slot n, over naturals kept positive by adding 26. -/
def Obligations.ForwardPassFormula : Prop :=
  ∀ (key : KeyStore) (v : Letter),
    (key.rotorCount = 0#8 → fwdPass key v = v) ∧
    (∀ (n : Nat) (slot : RotorSlot), key.rotorCount.toNat = n + 1 → key.slots[n]? = some slot →
      ∀ u : Letter, fwdPass { key with rotorCount := BitVec.ofNat 8 n } v = u →
        (fwdPass key v).val =
          ((slot.wiring[Fin.ofNat 26 (u.val + 26 + slot.pos.val - slot.ring.val)]).val + 26 + slot.ring.val
            - slot.pos.val) % 26)

/-- R91: the backward pass meets the last active slot n first; it searches the smallest j with WIRING[n][j] equal to the
entry (v + POS - RING) mod 26, goes on with (j - POS + RING) mod 26, and faults with the slot number when there is no
such j; with ROTOR_COUNT = 0 it is the identity. The fault sets FAULT and gives no output. -/
def Obligations.BackwardPassFormula : Prop :=
  (∀ (key : KeyStore) (v : Letter),
    (key.rotorCount = 0#8 → bwdPass key v = .ok v) ∧
    (∀ (n : Nat) (slot : RotorSlot), key.rotorCount.toNat = n + 1 → key.slots[n]? = some slot →
      (∀ j : Letter, slot.wiring[j] = Fin.ofNat 26 (v.val + 26 + slot.pos.val - slot.ring.val) →
        (∀ j' : Letter, j' < j → slot.wiring[j'] ≠ Fin.ofNat 26 (v.val + 26 + slot.pos.val - slot.ring.val)) →
        bwdPass key v =
          bwdPass { key with rotorCount := BitVec.ofNat 8 n }
            (Fin.ofNat 26 (j.val + 26 + slot.ring.val - slot.pos.val))) ∧
      ((∀ j : Letter, slot.wiring[j] ≠ Fin.ofNat 26 (v.val + 26 + slot.pos.val - slot.ring.val)) →
        bwdPass key v = .error ⟨.faultInverseMiss, BitVec.ofNat 8 n⟩))) ∧
  (∀ (v : Byte) (hv : v.toNat < 26) (s : State) (k : Byte), s.PipelineReady →
    bwdPass s.key ⟨v.toNat, hv⟩ = .error ⟨.faultInverseMiss, k⟩ →
    exec (.stageBwd v) s = .next (s.faulted.replied (reply 0x20 k.toNat)))

/-- R93: XLATE_INDEX, whose output is E(v) = plug(bwd(refl(fwd(plug(v))))) of R92. -/
def Obligations.XlateIndexRule : Prop :=
  StageRule 0x50#8 .xlateIndex (fun key v =>
    match bwdPass key (key.refl[fwdPass key key.plug[v]]) with
    | .ok u => .ok key.plug[u]
    | .error e => .error e)

/-- R94: XLATE_CHAR. A letter, and a space as 'X' under SPACE_TO_X, is enciphered with its case kept; every other byte
passes through; E is `encipher`, which is R92's composition. -/
def Obligations.XlateCharRule : Prop :=
  OperandBWord 0x51#8 .pipeline .xlateChar ∧
  (∀ (key : KeyStore) (v : Letter),
    encipher key v = match bwdPass key (key.refl[fwdPass key key.plug[v]]) with
      | .ok u => .ok key.plug[u]
      | .error e => .error e) ∧
  ∀ (c : Byte) (s : State),
    (s.status.fault = true → exec (.xlateChar c) s = .next (s.replied (reply 0x07 0))) ∧
    (s.status.fault = false → s.Building → exec (.xlateChar c) s = .next (s.replied (reply 0x04 0))) ∧
    (s.PipelineReady → ∀ o : Letter,
      (c.toNat = 0x20 → s.key.policy.getLsbD 0 = true → encipher s.key 23 = .ok o →
        exec (.xlateChar c) s = .next (s.replied (reply 0 (0x41 + o.val)))) ∧
      (∀ i : Letter, c.toNat = 0x41 + i.val → encipher s.key i = .ok o →
        exec (.xlateChar c) s = .next (s.replied (reply 0 (0x41 + o.val)))) ∧
      (∀ i : Letter, c.toNat = 0x61 + i.val → encipher s.key i = .ok o →
        exec (.xlateChar c) s = .next (s.replied (reply 0 (0x61 + o.val))))) ∧
    (s.PipelineReady → ∀ (i : Letter) (e : ErrorReport),
      ((c.toNat = 0x20 ∧ s.key.policy.getLsbD 0 = true ∧ i = 23) ∨ c.toNat = 0x41 + i.val ∨ c.toNat = 0x61 + i.val) →
      encipher s.key i = .error e →
      exec (.xlateChar c) s = .next (s.faulted.replied (reply 0x20 e.data.toNat))) ∧
    (s.PipelineReady → ¬ (c.toNat = 0x20 ∧ s.key.policy.getLsbD 0 = true) → ¬ (0x41 ≤ c.toNat ∧ c.toNat ≤ 0x5A) →
      ¬ (0x61 ≤ c.toNat ∧ c.toNat ≤ 0x7A) →
      exec (.xlateChar c) s = .next (s.replied (reply 0 c.toNat)))

/-- R96 to R99: the stage commands run one stage each: PLUG[v], the forward pass, REFL[v], the backward pass. -/
def Obligations.StageCommandsRule : Prop :=
  StageRule 0x52#8 .stagePlug (fun key v => .ok key.plug[v]) ∧
  StageRule 0x53#8 .stageFwd (fun key v => .ok (fwdPass key v)) ∧
  StageRule 0x54#8 .stageRefl (fun key v => .ok key.refl[v]) ∧
  StageRule 0x55#8 .stageBwd bwdPass

/-! ### NOP and read-back -/

/-- R108: NOP and the read commands change no state, in either phase and whatever FAULT is; they answer OK exactly when
their operands are in range, and otherwise ERR_RANGE or ERR_SELECTOR. -/
def Obligations.ReadCommandsChangeNothing : Prop :=
  (∀ op : Opcode, op.commandClass = .readBack ↔ op.byte.toNat = 0 ∨ (0x60 ≤ op.byte.toNat ∧ op.byte.toNat ≤ 0x6C)) ∧
  ∀ (i : Instr) (s : State), i.commandClass = .readBack →
    ∃ status data : Nat, data < 256 ∧ exec i s = .next (s.replied (reply status data)) ∧
      (i.wellFormed s.maxRotors = true → status = 0) ∧
      (i.wellFormed s.maxRotors = false → status = 0x05 ∨ status = 0x06)

/-- R109 and R116 to R119: NOP, READ_ROTOR_COUNT, READ_POLICY, READ_STATUS and READ_MAX_ROTORS. MAX_ROTORS is at most
255 (R8), so its response holds it whole. -/
def Obligations.ScalarReadsRule : Prop :=
  NoOperandWord 0x00#8 .readBack .nop ∧
  NoOperandWord 0x66#8 .readBack .readRotorCount ∧
  NoOperandWord 0x67#8 .readBack .readPolicy ∧
  NoOperandWord 0x68#8 .readBack .readStatus ∧
  NoOperandWord 0x69#8 .readBack .readMaxRotors ∧
  ∀ s : State,
    exec .nop s = .next (s.replied (reply 0 0)) ∧
    exec .readRotorCount s = .next (s.replied (reply 0 s.key.rotorCount.toNat)) ∧
    exec .readPolicy s = .next (s.replied (reply 0 s.key.policy.toNat)) ∧
    exec .readStatus s = .next (s.replied (reply 0
      ((if s.status.buildErr = true then 4 else 0) + (if s.status.fault = true then 2 else 0) +
        (if s.status.keyValid = true then 1 else 0)))) ∧
    (s.maxRotors ≤ 255 → exec .readMaxRotors s = .next (s.replied (reply 0 s.maxRotors)))

/-- R110 to R113: READ_WIRING, READ_NOTCH, READ_POSITION and READ_RING, of any slot below MAX_ROTORS, active or not. -/
def Obligations.SlotReadsRule : Prop :=
  (OperandSAWord 0x60#8 .readWiring ∧
    ∀ (k a : Byte) (s : State),
      (s.maxRotors ≤ k.toNat → exec (.readWiring k a) s = .next (s.replied (reply 0x05 1))) ∧
      (k.toNat < s.maxRotors → 26 ≤ a.toNat → exec (.readWiring k a) s = .next (s.replied (reply 0x05 2))) ∧
      (∀ slot, s.key.slots[k.toNat]? = some slot → ∀ ha : a.toNat < 26,
        exec (.readWiring k a) s =
          .next (s.replied (reply 0 (slot.wiring[(⟨a.toNat, ha⟩ : Letter)]).val)))) ∧
  SlotReadRule 0x61#8 .readNotch (fun slot => slot.notch) ∧
  SlotReadRule 0x62#8 .readPosition (fun slot => slot.pos) ∧
  SlotReadRule 0x63#8 .readRing (fun slot => slot.ring)

/-- R114 and R115: READ_REFL and READ_PLUG. -/
def Obligations.TableReadsRule : Prop :=
  TableReadRule 0x64#8 .readRefl (fun key => key.refl) ∧
  TableReadRule 0x65#8 .readPlug (fun key => key.plug)

/-- R120 to R122: READ_ROM_WIRING, READ_ROM_NOTCH and READ_ROM_REFL. Type t is entry t - 1 of the model's ROM. -/
def Obligations.RomReadsRule : Prop :=
  OperandSAWord 0x6A#8 .readRomWiring ∧
  OperandSWord 0x6B#8 .readRomNotch ∧
  OperandSAWord 0x6C#8 .readRomRefl ∧
  ∀ (t a : Byte) (s : State),
    ((t.toNat < 1 ∨ 8 < t.toNat) →
      exec (.readRomWiring t a) s = .next (s.replied (reply 0x06 1)) ∧
      exec (.readRomNotch t) s = .next (s.replied (reply 0x06 1))) ∧
    (1 ≤ t.toNat → t.toNat ≤ 8 → 26 ≤ a.toNat →
      exec (.readRomWiring t a) s = .next (s.replied (reply 0x05 2))) ∧
    (∀ std : StdRotor, 1 ≤ t.toNat → s.rom.rotors[t.toNat - 1]? = some std →
      exec (.readRomNotch t) s = .next (s.replied (reply 0 std.notch.val)) ∧
      ∀ ha : a.toNat < 26,
        exec (.readRomWiring t a) s =
          .next (s.replied (reply 0 (std.wiring[(⟨a.toNat, ha⟩ : Letter)]).val))) ∧
    (1 < t.toNat → exec (.readRomRefl t a) s = .next (s.replied (reply 0x06 1))) ∧
    (t.toNat ≤ 1 → 26 ≤ a.toNat → exec (.readRomRefl t a) s = .next (s.replied (reply 0x05 2))) ∧
    (∀ table : Table, s.rom.refls[t.toNat]? = some table → ∀ ha : a.toNat < 26,
      exec (.readRomRefl t a) s =
        .next (s.replied (reply 0 (table[(⟨a.toNat, ha⟩ : Letter)]).val)))

/-! ### Invariants -/

/-- The reset state of every block with lawful parameters meets the invariant, and the default parameters are lawful
(R8, R32, R34; the default is the model's choice, logs 1 and 2). -/
def Obligations.ResetStateMeetsTheInvariant : Prop :=
  (∀ c : Config, c.Lawful → (State.resetOf c).Inv ∧ (State.resetOf c).status.fault = false) ∧
  Config.default.Lawful ∧ State.reset.Inv

/-- Every step keeps the invariant (R78, which the spec derives, with R8, R21, R29 and R32). -/
def Obligations.StepKeepsTheInvariant : Prop :=
  ∀ s t : State, s.Inv → step s = .next t → t.Inv

/-- No step sets FAULT from a state that meets the invariant: the inverse miss cannot happen while the key is locked
(R91, which the spec derives from R78). -/
def Obligations.InverseMissIsUnreachable : Prop :=
  ∀ s t : State, s.Inv → s.status.fault = false → step s = .next t → t.status.fault = false

/-- Whatever a host does after reset, on any lawful block, for any number of steps: the run is safe (R128, R148), and its
end meets the invariant. The queue of the host's moves and reset as one of them are the model's own (logs 6 and 8, DESIGN
CHOICE). -/
def Obligations.EveryRunFromResetIsSafe : Prop :=
  ∀ (c : Config) (moves : List HostMove) (n : Nat), c.Lawful →
    SafeRun n { State.resetOf c with pending := moves } ∧
    ∀ t : State, Host.Core.run Sys2Proof.core n { State.resetOf c with pending := moves } = .next t → t.Inv

/-- R77: while the key is locked, no word but KEY_CLEAR changes the key store; only COMMIT enters the locked phase; and
of all words only KEY_CLEAR and UNLOCK leave it. -/
def Obligations.LockedKeyIsNeverWritten : Prop :=
  ∀ (w : Word) (s t : State), executeWord w s = .next t →
    (s.Locked → w ≠ 0x01000000#32 → t.key = s.key) ∧
    (s.Building → t.Locked → w = 0x03000000#32) ∧
    (s.Locked → t.Building → w = 0x01000000#32 ∨ w = 0x02000000#32)

/-- R127: no word clears FAULT, and only an inverse miss of XLATE_INDEX, XLATE_CHAR or STAGE_BWD sets it. While it is
set every pipeline command answers ERR_FAULTED, and every other command acts on the key store, KEY_VALID and BUILD_ERR
as it would without it, with the same status code and the same DATA, but that the DATA of READ_STATUS shows the flag, its
bit 1 (R30). Reset clears it. -/
def Obligations.OnlyResetClearsFault : Prop :=
  (∀ (w : Word) (s t : State), executeWord w s = .next t →
    (s.status.fault = true → t.status.fault = true) ∧
    (s.status.fault = false → t.status.fault = true →
      (opField w = 0x50#8 ∨ opField w = 0x51#8 ∨ opField w = 0x55#8) ∧
      ∃ k : Nat, k < 256 ∧ t.responses = s.responses ++ [reply 0x20 k])) ∧
  (∀ (i : Instr) (s : State), s.status.fault = false →
    (i.commandClass = .pipeline → exec i s.faulted = .next (s.faulted.replied (reply 0x07 0))) ∧
    (i.commandClass ≠ .pipeline → ∃ (t : State) (status data data' : Nat),
      status < 256 ∧ data < 256 ∧ data' < 256 ∧
      exec i s = .next (t.replied (reply status data)) ∧
      exec i s.faulted = .next (t.faulted.replied (reply status data')) ∧
      (i ≠ .readStatus → data' = data) ∧
      (i = .readStatus → status = 0 ∧ data' = data + 2))) ∧
  (∀ (s : State) (cutOff : Option Word), ∃ t : State,
    takeMove (.reset cutOff) s = .next t ∧ t.status.fault = false)

/-- R39: a command repeated with the same operands leaves the same state as one copy of it, and a read or a pipeline
command that does not fault leaves all state unchanged and answers the same response again. -/
def Obligations.RepeatedCommandsChangeNothingMore : Prop :=
  ∀ (i : Instr) (s t u : State), exec i s = .next t → exec i t = .next u →
    u.key = t.key ∧ u.status = t.status ∧ u.rom = t.rom ∧ u.pending = t.pending ∧
    ((i.commandClass = .readBack ∨ (i.commandClass = .pipeline ∧ t.status.fault = s.status.fault)) →
      ∃ r : Word, t = s.replied r ∧ u = t.replied r)

/-! ### Laws of the pipeline -/

/-- What the spec derives in R100: a rotor whose wiring is a permutation has a backward map that inverts its forward map,
and only the difference POS - RING matters: raising both by the same amount mod 26 leaves both passes of the key as they
were. -/
def Obligations.RotorMapsAreInverseAndRelative : Prop :=
  (∀ (slot : RotorSlot) (k : Nat) (v : Letter), IsPermutation slot.wiring →
    slot.backward k (slot.forward v) = .ok v ∧ ∃ u : Letter, slot.backward k v = .ok u ∧ slot.forward u = v) ∧
  (∀ (key : KeyStore) (k : Nat) (slot : RotorSlot) (amount v : Letter), key.slots[k]? = some slot →
    fwdPass { key with slots := key.slots.set k { slot with pos := slot.pos + amount, ring := slot.ring + amount } } v =
      fwdPass key v ∧
    bwdPass { key with slots := key.slots.set k { slot with pos := slot.pos + amount, ring := slot.ring + amount } } v =
      bwdPass key v)

/-- What the spec derives in R101: on a valid key the two passes are mutual inverses. -/
def Obligations.BackwardPassInvertsForwardPass : Prop :=
  ∀ (key : KeyStore) (v : Letter), key.Valid →
    bwdPass key (fwdPass key v) = .ok v ∧ ∃ u : Letter, bwdPass key v = .ok u ∧ fwdPass key u = v

/-- What the spec derives in R102: on a valid key E never faults, is its own inverse, and is a permutation of [0,25]. -/
def Obligations.EncipherIsAnInvolution : Prop :=
  ∀ key : KeyStore, key.Valid →
    (∀ v : Letter, ∃ u : Letter, encipher key v = .ok u ∧ encipher key u = .ok v) ∧
    (∀ u : Letter, ∃ v : Letter, encipher key v = .ok u) ∧
    (∀ v v' u : Letter, encipher key v = .ok u → encipher key v' = .ok u → v = v')

/-- What the spec derives in R103: on a valid key whose reflector has no fixed point, no letter enciphers to itself; so
also after a COMMIT under REFL_NO_FIXED, and with a reflector of a lawful ROM. -/
def Obligations.NoLetterEnciphersToItself : Prop :=
  (∀ (key : KeyStore) (v : Letter), key.Valid → HasNoFixedPoint key.refl → encipher key v ≠ .ok v) ∧
  (∀ (key : KeyStore) (v : Letter), key.Valid → key.policy.getLsbD 1 = true → encipher key v ≠ .ok v) ∧
  (∀ (key : KeyStore) (rom : StdRom) (r : Fin 2) (v : Letter), key.Valid → rom.Lawful → key.refl = rom.refls[r] →
    encipher key v ≠ .ok v)

/-- What the spec derives in R91, R101 and R102: on a locked key that is valid, a pipeline command with its operand in
range completes and writes nothing. -/
def Obligations.ValidKeyPipelineCompletes : Prop :=
  ∀ (i : Instr) (s : State), i.commandClass = .pipeline → s.PipelineReady → s.key.Valid →
    i.wellFormed s.maxRotors = true → ∃ data : Nat, data < 256 ∧ exec i s = .next (s.replied (reply 0 data))

/-- What the spec derives in R104 of one byte, and in R105, on a locked valid key without a fault: a capital gives a
capital, a small letter a small letter, and every other byte (a space when SPACE_TO_X = 0) passes through; with
SPACE_TO_X = 1 a space gives the capital of E(23), and that capital gives 'X', never a space. -/
def Obligations.CharCaseIsKept : Prop :=
  ∀ (c : Byte) (s : State), s.PipelineReady → s.key.Valid →
    (0x41 ≤ c.toNat → c.toNat ≤ 0x5A → ∃ d : Nat, 0x41 ≤ d ∧ d ≤ 0x5A ∧
      exec (.xlateChar c) s = .next (s.replied (reply 0 d))) ∧
    (0x61 ≤ c.toNat → c.toNat ≤ 0x7A → ∃ d : Nat, 0x61 ≤ d ∧ d ≤ 0x7A ∧
      exec (.xlateChar c) s = .next (s.replied (reply 0 d))) ∧
    (¬ (0x41 ≤ c.toNat ∧ c.toNat ≤ 0x5A) → ¬ (0x61 ≤ c.toNat ∧ c.toNat ≤ 0x7A) →
      ¬ (c.toNat = 0x20 ∧ s.key.policy.getLsbD 0 = true) →
      exec (.xlateChar c) s = .next (s.replied (reply 0 c.toNat))) ∧
    (s.key.policy.getLsbD 0 = true →
      ∃ u : Letter, encipher s.key 23 = .ok u ∧
        exec (.xlateChar 0x20#8) s = .next (s.replied (reply 0 (0x41 + u.val))) ∧
        exec (.xlateChar (BitVec.ofNat 8 (0x41 + u.val))) s = .next (s.replied (reply 0 0x58)))

/-- What the spec derives in R104 of a text, with SPACE_TO_X = 0: sending a text by XLATE_STR gives a text of the same
length, and sending that text under the same key gives the first one back (R95). The queue the texts are sent through is
the model's own (log 6, DESIGN CHOICE). -/
def Obligations.TextDecryptsUnderTheSameKey : Prop :=
  ∀ (text : List Byte) (s : State), s.PipelineReady → s.key.Valid → s.key.policy.getLsbD 0 = false →
    s.pending = sendCommands (Pseudo.xlateStr text).expand →
    ∃ cipher : List Byte, cipher.length = text.length ∧
      Host.Core.run Sys2Proof.core text.length s =
        .next { s with pending := [], responses := s.responses ++ cipher.map fun c => reply 0 c.toNat } ∧
      Host.Core.run Sys2Proof.core cipher.length
        { s with pending := sendCommands (Pseudo.xlateStr cipher).expand } =
        .next { s with pending := [], responses := s.responses ++ text.map fun c => reply 0 c.toNat }

/-- What the spec derives in R106: with ROTOR_COUNT = 0, E(v) = PLUG[REFL[PLUG[v]]]; it is REFL[v] under the identity
plugboard; for a plug pair (a, b) of an involution, E(a) = b exactly when REFL[b] = a; and under an identity reflector
with such a plugboard E is the identity. -/
def Obligations.ZeroRotorsLeaveTheReflector : Prop :=
  ∀ key : KeyStore, key.rotorCount = 0#8 →
    (∀ v : Letter, encipher key v = .ok key.plug[key.refl[key.plug[v]]]) ∧
    ((∀ i : Letter, key.plug[i] = i) → ∀ v : Letter, encipher key v = .ok key.refl[v]) ∧
    (IsInvolution key.plug → ∀ a b : Letter, key.plug[a] = b → (encipher key a = .ok b ↔ key.refl[b] = a)) ∧
    (IsInvolution key.plug → (∀ i : Letter, key.refl[i] = i) → ∀ v : Letter, encipher key v = .ok v)

/-- What the spec derives in R107: when every active slot has POS = RING, the forward pass is the plain composition of
the wiring tables, and no ring setting changes the cipher: two such keys with the same wirings, reflector and plugboard
encipher alike. -/
def Obligations.SeededRingsCancel : Prop :=
  (∀ (key : KeyStore) (v : Letter), (∀ slot ∈ key.activeSlots, slot.pos = slot.ring) →
    fwdPass key v = key.activeSlots.foldl (fun u slot => slot.wiring[u]) v) ∧
  (∀ (key key' : KeyStore) (v : Letter), (∀ slot ∈ key.activeSlots, slot.pos = slot.ring) →
    (∀ slot ∈ key'.activeSlots, slot.pos = slot.ring) → key.refl = key'.refl → key.plug = key'.plug →
    key.activeSlots.map (fun slot => slot.wiring) = key'.activeSlots.map (fun slot => slot.wiring) →
    encipher key v = encipher key' v)

/-- What the spec derives in R65 and R144: a shift rotor's table is a permutation, its forward map is v + s mod 26 whatever
its POS and RING, and its backward map undoes it; the identity rotor is the shift by 0 and leaves every letter. -/
def Obligations.ShiftRotorsIgnoreTheirOffset : Prop :=
  ∀ (slot : RotorSlot) (sh : Nat) (k : Nat) (v : Letter), (∀ i : Letter, (slot.wiring[i]).val = (i.val + sh) % 26) →
    IsPermutation slot.wiring ∧
    (slot.forward v).val = (v.val + sh) % 26 ∧
    ∀ u : Letter, u.val = (v.val + sh) % 26 → slot.backward k u = .ok v

/-- R91's search, and the inverse table R47 allows: the search gives the smallest index of the entry, or a miss when
there is none, and for a permutation it gives exactly what any precomputed inverse table holds. -/
def Obligations.InverseTableGivesTheSearch : Prop :=
  ∀ (t : Table) (e : Letter),
    (∀ j : Letter, findInverse t e = some j ↔ t[j] = e ∧ ∀ j' : Letter, j' < j → t[j'] ≠ e) ∧
    (findInverse t e = none ↔ ∀ j : Letter, t[j] ≠ e) ∧
    (∀ inv : Table, (∀ j : Letter, inv[t[j]] = j) → findInverse t e = some inv[e])

/-- R21 and R24: the pipeline commands and COMMIT do not depend on any notch or on any slot at or above ROTOR_COUNT. Two
blocks that agree in all else give the same response to the same command, with the same flags. -/
def Obligations.NotchesAndInactiveSlotsDoNotMatter : Prop :=
  ∀ (i : Instr) (s s' : State), (i.commandClass = .pipeline ∨ i = .commit) → s.status = s'.status →
    s.key.SamePipeline s'.key →
    ∃ (status : Status) (r : Word),
      exec i s = .next ({ s with status := status }.replied r) ∧
      exec i s' = .next ({ s' with status := status }.replied r)
end

