-- ==== Sys2Proof/Laws/Decode.lean ====
section
/-! SUPPORT. The fields of a word, the opcode map and the decoder, each said once. -/

namespace Sys2Proof

/-! ### The fields of a word (R48) -/

/-- A word as a number. -/
theorem wordOf_toNat (op k a b : Byte) :
    (wordOf op k a b).toNat = ((op.toNat * 2 ^ 8 + k.toNat) * 2 ^ 8 + a.toNat) * 2 ^ 8 + b.toNat := by
  have hk := k.isLt
  have ha := a.isLt
  have hb := b.isLt
  simp only [wordOf, BitVec.toNat_append]
  rw [← Nat.shiftLeft_add_eq_or_of_lt hb, ← Nat.shiftLeft_add_eq_or_of_lt ha, ← Nat.shiftLeft_add_eq_or_of_lt hk]
  simp only [Nat.shiftLeft_eq]

/-- The fields of a word as numbers. -/
theorem field_toNat (w : Word) (lo : Nat) : (w.extractLsb' lo 8).toNat = w.toNat / 2 ^ lo % 2 ^ 8 := by
  rw [BitVec.extractLsb'_toNat, Nat.shiftRight_eq_div_pow]

@[simp] theorem opField_wordOf (op k a b : Byte) : opField (wordOf op k a b) = op := by
  apply BitVec.eq_of_toNat_eq
  rw [opField, field_toNat, wordOf_toNat]
  omega

@[simp] theorem sField_wordOf (op k a b : Byte) : sField (wordOf op k a b) = k := by
  apply BitVec.eq_of_toNat_eq
  rw [sField, field_toNat, wordOf_toNat]
  omega

@[simp] theorem aField_wordOf (op k a b : Byte) : aField (wordOf op k a b) = a := by
  apply BitVec.eq_of_toNat_eq
  rw [aField, field_toNat, wordOf_toNat]
  omega

@[simp] theorem bField_wordOf (op k a b : Byte) : bField (wordOf op k a b) = b := by
  apply BitVec.eq_of_toNat_eq
  rw [bField, field_toNat, wordOf_toNat]
  omega

/-- A word is its four fields. -/
theorem wordOf_fields (w : Word) : wordOf (opField w) (sField w) (aField w) (bField w) = w := by
  apply BitVec.eq_of_toNat_eq
  have hw := w.isLt
  rw [wordOf_toNat]
  simp only [opField, sField, aField, bField, field_toNat]
  omega

/-- The fields of a word determine it, and the word its fields. -/
theorem wordOf_inj {op k a b op' k' a' b' : Byte} :
    wordOf op k a b = wordOf op' k' a' b' ↔ op = op' ∧ k = k' ∧ a = a' ∧ b = b' := by
  constructor
  · intro h
    exact ⟨by simpa using congrArg opField h, by simpa using congrArg sField h, by simpa using congrArg aField h,
      by simpa using congrArg bField h⟩
  · rintro ⟨rfl, rfl, rfl, rfl⟩
    rfl

/-- The OP field as a number. -/
theorem opField_toNat (w : Word) : (opField w).toNat = w.toNat / 2 ^ 24 := by
  have hw := w.isLt
  rw [opField, field_toNat]
  omega

/-- Words with the same fields are equal. -/
theorem word_ext {w w' : Word} (ho : opField w = opField w') (hs : sField w = sField w') (ha : aField w = aField w')
    (hb : bField w = bField w') : w = w' := by
  rw [← wordOf_fields w, ← wordOf_fields w', ho, hs, ha, hb]

/-! ### The opcode map (R52) -/

@[simp] theorem opcodeOf_byte (op : Opcode) : opcodeOf op.byte = some op := by cases op <;> decide

theorem byte_of_opcodeOf {b : Byte} {op : Opcode} (h : opcodeOf b = some op) : op.byte = b := by
  have := List.find?_some h
  simpa using this

set_option maxRecDepth 4000 in
/-- An OP byte with no opcode is one R53 lists, and the other way round. -/
theorem opcodeOf_eq_none_iff (b : Byte) : opcodeOf b = none ↔ Machine.UnassignedOp b.toNat := by
  have h : ∀ n : Fin 256, opcodeOf (BitVec.ofFin n) = none ↔ Machine.UnassignedOp n.val := by decide
  exact h b.toFin

/-- The opcode of the command an opcode builds. -/
@[simp] theorem opcode_command (op : Opcode) (k a b : Byte) : (op.command k a b).opcode = op := by cases op <;> rfl

/-- A command is its opcode's, on its own operands. -/
theorem command_operands (i : Instr) :
    i.opcode.command i.operands.1 i.operands.2.1 i.operands.2.2 = i := by cases i <;> rfl

/-! ### Reserved fields (R54) -/

/-- The field the decoder names is nonzero and not used by the form. -/
theorem reservedField_some {form : Form} {w : Word} {f : Field} (h : reservedField form w = some f) :
    fieldOf w f ≠ 0#8 ∧ form.uses f = false := by
  have := List.find?_some h
  simpa using this

/-- No field is named exactly when every field the form does not use is 0. -/
theorem reservedField_none {form : Form} {w : Word} :
    reservedField form w = none ↔ ∀ f : Field, form.uses f = false → fieldOf w f = 0#8 := by
  simp only [reservedField, List.find?_eq_none]
  constructor
  · intro h f hf
    have := h f (by cases f <;> simp)
    simpa [hf] using this
  · intro h f _
    by_cases hf : form.uses f
    · simp [hf]
    · simp [hf, h f (by simpa using hf)]

/-- The operands of a command are 0 in the fields its form does not use. -/
theorem operands_of_unused (i : Instr) :
    (i.opcode.form.uses .S = false → i.operands.1 = 0#8) ∧
    (i.opcode.form.uses .A = false → i.operands.2.1 = 0#8) ∧
    (i.opcode.form.uses .B = false → i.operands.2.2 = 0#8) := by
  cases i <;> simp [Instr.opcode, Opcode.form, Form.uses, Instr.operands]

/-- The operands of the command an opcode builds: each field its form uses, and 0 elsewhere. -/
theorem operands_command (op : Opcode) (k a b : Byte) :
    (op.command k a b).operands =
      (if op.form.uses .S then k else 0#8, if op.form.uses .A then a else 0#8, if op.form.uses .B then b else 0#8) := by
  cases op <;> rfl

/-! ### The decoder (R57) -/

/-- The decoder on an assigned opcode. -/
theorem decode_of_opcode {w : Word} {op : Opcode} (h : opField w = op.byte) :
    decode w = match reservedField op.form w with
      | some f => .reserved op f
      | none => .command (op.command (sField w) (aField w) (bField w)) := by
  simp only [decode, h, opcodeOf_byte] <;> rfl

/-- A word is a command exactly when its OP is the command's opcode, its operands are the command's, and its unused
fields are 0. -/
theorem decode_eq_command_iff (w : Word) (i : Instr) :
    decode w = .command i ↔ ∃ op : Opcode, opField w = op.byte ∧ reservedField op.form w = none ∧
      op.command (sField w) (aField w) (bField w) = i := by
  constructor
  · intro h
    unfold decode at h
    split at h
    · cases h
    · rename_i op hop
      split at h
      · cases h
      · rename_i hres
        exact ⟨op, (byte_of_opcodeOf hop).symm, hres, by simpa using h⟩
  · rintro ⟨op, ho, hr, hi⟩
    simp [decode_of_opcode ho, hr, hi]

/-- A word decoded as reserved has the opcode's byte and the field the decoder names. -/
theorem fields_of_reserved {w : Word} {op : Opcode} {f : Field} (h : decode w = .reserved op f) :
    opField w = op.byte ∧ reservedField op.form w = some f := by
  unfold decode at h
  split at h
  · cases h
  · rename_i op' hop
    split at h
    · rename_i hr
      cases h
      exact ⟨(byte_of_opcodeOf hop).symm, hr⟩
    · cases h

/-- A word built from an opcode and its operands, with 0 in each field its form does not use, is that command. -/
theorem decode_wordOf {op : Opcode} {k a b : Byte}
    (h : ∀ f : Field, op.form.uses f = false → fieldOf (wordOf op.byte k a b) f = 0#8) :
    decode (wordOf op.byte k a b) = .command (op.command k a b) := by
  rw [decode_of_opcode (op := op) (by simp), reservedField_none.2 h]
  simp

/-- What a word can be: of an unassigned OP, of an assigned one with a reserved field set, or a command. -/
theorem decode_cases (w : Word) :
    (Machine.UnassignedOp (opField w).toNat ∧ decode w = .illegal (opField w)) ∨
    (∃ (op : Opcode) (f : Field), opField w = op.byte ∧ reservedField op.form w = some f ∧
      decode w = .reserved op f) ∨
    (∃ op : Opcode, opField w = op.byte ∧ reservedField op.form w = none ∧
      decode w = .command (op.command (sField w) (aField w) (bField w))) := by
  cases hop : opcodeOf (opField w) with
  | none => exact .inl ⟨(opcodeOf_eq_none_iff _).1 hop, by simp [decode, hop]⟩
  | some op =>
    have ho := (byte_of_opcodeOf hop).symm
    cases hr : reservedField op.form w with
    | some f => exact .inr (.inl ⟨op, f, ho, hr, by simp [decode_of_opcode ho, hr]⟩)
    | none => exact .inr (.inr ⟨op, ho, hr, by simp [decode_of_opcode ho, hr]⟩)

end Sys2Proof
end

