-- ==== Sys2Proof/Laws/State.lean ====
section
/-! SUPPORT. One lemma per field and per named update of the state, so that no proof unfolds a record update. -/

namespace Sys2Proof.Machine

/-! ### respond -/

@[simp] theorem respond_key (c : StatusCode) (d : Byte) (s : State) : (respond c d s).key = s.key := rfl
@[simp] theorem respond_status (c : StatusCode) (d : Byte) (s : State) : (respond c d s).status = s.status := rfl
@[simp] theorem respond_rom (c : StatusCode) (d : Byte) (s : State) : (respond c d s).rom = s.rom := rfl
@[simp] theorem respond_pending (c : StatusCode) (d : Byte) (s : State) : (respond c d s).pending = s.pending := rfl
@[simp] theorem respond_responses (c : StatusCode) (d : Byte) (s : State) :
    (respond c d s).responses = s.responses ++ [responseWord c.code d] := rfl
@[simp] theorem respond_maxRotors (c : StatusCode) (d : Byte) (s : State) : (respond c d s).maxRotors = s.maxRotors := rfl

/-! ### raiseError -/

@[simp] theorem raiseError_key (cls : Option CommandClass) (e : ErrorReport) (s : State) :
    (raiseError cls e s).key = s.key := rfl
@[simp] theorem raiseError_status (cls : Option CommandClass) (e : ErrorReport) (s : State) :
    (raiseError cls e s).status = statusAfterError cls e.code s.status := rfl
@[simp] theorem raiseError_rom (cls : Option CommandClass) (e : ErrorReport) (s : State) :
    (raiseError cls e s).rom = s.rom := rfl
@[simp] theorem raiseError_pending (cls : Option CommandClass) (e : ErrorReport) (s : State) :
    (raiseError cls e s).pending = s.pending := rfl
@[simp] theorem raiseError_responses (cls : Option CommandClass) (e : ErrorReport) (s : State) :
    (raiseError cls e s).responses = s.responses ++ [responseWord e.code.code e.data] := rfl
@[simp] theorem raiseError_maxRotors (cls : Option CommandClass) (e : ErrorReport) (s : State) :
    (raiseError cls e s).maxRotors = s.maxRotors := rfl

/-! ### statusAfterError -/

@[simp] theorem statusAfterError_keyValid (cls : Option CommandClass) (c : StatusCode) (st : Status) :
    (statusAfterError cls c st).keyValid = st.keyValid := rfl
@[simp] theorem statusAfterError_fault (cls : Option CommandClass) (c : StatusCode) (st : Status) :
    (statusAfterError cls c st).fault = (st.fault || c == .faultInverseMiss) := rfl
@[simp] theorem statusAfterError_buildErr (cls : Option CommandClass) (c : StatusCode) (st : Status) :
    (statusAfterError cls c st).buildErr =
      (st.buildErr || (cls == some .config && !st.keyValid && isBuildFailure c)) := rfl

/-- Outside the configuration class, an error that is no inverse miss changes no flag. -/
theorem statusAfterError_of_plain {cls : Option CommandClass} {c : StatusCode} (st : Status)
    (hc : cls ≠ some .config) (hm : c ≠ .faultInverseMiss) : statusAfterError cls c st = st := by
  have h1 : (c == .faultInverseMiss) = false := beq_false_of_ne hm
  have h2 : (cls == some .config) = false := beq_false_of_ne hc
  simp [statusAfterError, h1, h2]

/-- An inverse miss sets FAULT and no other flag. -/
theorem statusAfterError_of_miss (cls : Option CommandClass) (st : Status) :
    statusAfterError cls .faultInverseMiss st = { st with fault := true } := by
  simp [statusAfterError, isBuildFailure]

/-- A refused operand or reserved field of a configuration command sets BUILD_ERR while the key is being built. -/
theorem statusAfterError_of_buildFailure {c : StatusCode} (st : Status) (hk : st.keyValid = false)
    (hb : isBuildFailure c = true) : statusAfterError (some .config) c st = { st with buildErr := true } := by
  cases c <;> simp [isBuildFailure] at hb <;> simp [statusAfterError, isBuildFailure, hk]

/-- No error of a configuration command changes a flag while the key is locked. -/
theorem statusAfterError_of_locked {c : StatusCode} (cls : Option CommandClass) (st : Status) (hk : st.keyValid = true)
    (hm : c ≠ .faultInverseMiss) : statusAfterError cls c st = st := by
  have h1 : (c == .faultInverseMiss) = false := beq_false_of_ne hm
  simp only [statusAfterError, h1, Bool.or_false, hk, Bool.not_true, Bool.and_false, Bool.false_and]
  exact congrArg (fun b => ({ keyValid := b, fault := st.fault, buildErr := st.buildErr } : Status)) hk.symm

/-! ### Key store updates -/

@[simp] theorem setSlot_rotorCount (key : KeyStore) (k : Byte) (slot : RotorSlot) :
    (key.setSlot k slot).rotorCount = key.rotorCount := rfl
@[simp] theorem setSlot_slots (key : KeyStore) (k : Byte) (slot : RotorSlot) :
    (key.setSlot k slot).slots = key.slots.set k.toNat slot := rfl
@[simp] theorem setSlot_refl (key : KeyStore) (k : Byte) (slot : RotorSlot) :
    (key.setSlot k slot).refl = key.refl := rfl
@[simp] theorem setSlot_plug (key : KeyStore) (k : Byte) (slot : RotorSlot) :
    (key.setSlot k slot).plug = key.plug := rfl
@[simp] theorem setSlot_policy (key : KeyStore) (k : Byte) (slot : RotorSlot) :
    (key.setSlot k slot).policy = key.policy := rfl
@[simp] theorem setSlot_maxRotors (key : KeyStore) (k : Byte) (slot : RotorSlot) :
    (key.setSlot k slot).maxRotors = key.maxRotors := by simp [KeyStore.maxRotors]

/-! ### Reset -/

@[simp] theorem applyReset_key (s : State) : (applyReset s).key = KeyStore.reset s.maxRotors s.rom := rfl
@[simp] theorem applyReset_status (s : State) : (applyReset s).status = Status.reset := rfl
@[simp] theorem applyReset_rom (s : State) : (applyReset s).rom = s.rom := rfl
@[simp] theorem applyReset_pending (s : State) : (applyReset s).pending = s.pending := rfl
@[simp] theorem applyReset_responses (s : State) : (applyReset s).responses = s.responses := rfl
@[simp] theorem reset_maxRotors (n : Nat) (rom : StdRom) : (KeyStore.reset n rom).maxRotors = n := by
  simp [KeyStore.maxRotors, KeyStore.reset]
@[simp] theorem applyReset_maxRotors (s : State) : (applyReset s).maxRotors = s.maxRotors := by
  simp [State.maxRotors]
@[simp] theorem identityTable_getElem (i : Nat) (h : i < 26) : identityTable[i] = ⟨i, h⟩ := by simp [identityTable]
theorem identityTable_get (i : Letter) : identityTable[i] = i := by simp

/-! ### The states claims speak of -/

@[simp] theorem replied_key (s : State) (w : Word) : (s.replied w).key = s.key := rfl
@[simp] theorem replied_status (s : State) (w : Word) : (s.replied w).status = s.status := rfl
@[simp] theorem replied_rom (s : State) (w : Word) : (s.replied w).rom = s.rom := rfl
@[simp] theorem replied_pending (s : State) (w : Word) : (s.replied w).pending = s.pending := rfl
@[simp] theorem replied_responses (s : State) (w : Word) : (s.replied w).responses = s.responses ++ [w] := rfl
@[simp] theorem replied_maxRotors (s : State) (w : Word) : (s.replied w).maxRotors = s.maxRotors := rfl
@[simp] theorem buildFailed_key (s : State) : s.buildFailed.key = s.key := rfl
@[simp] theorem buildFailed_status (s : State) : s.buildFailed.status = { s.status with buildErr := true } := rfl
@[simp] theorem buildFailed_rom (s : State) : s.buildFailed.rom = s.rom := rfl
@[simp] theorem buildFailed_pending (s : State) : s.buildFailed.pending = s.pending := rfl
@[simp] theorem buildFailed_responses (s : State) : s.buildFailed.responses = s.responses := rfl
@[simp] theorem faulted_key (s : State) : s.faulted.key = s.key := rfl
@[simp] theorem faulted_status (s : State) : s.faulted.status = { s.status with fault := true } := rfl
@[simp] theorem faulted_rom (s : State) : s.faulted.rom = s.rom := rfl
@[simp] theorem faulted_pending (s : State) : s.faulted.pending = s.pending := rfl
@[simp] theorem faulted_responses (s : State) : s.faulted.responses = s.responses := rfl
@[simp] theorem faulted_maxRotors (s : State) : s.faulted.maxRotors = s.maxRotors := rfl

@[simp] theorem refusedReserved_key (s : State) (c : CommandClass) (n : Nat) : (s.refusedReserved c n).key = s.key := by
  unfold State.refusedReserved
  split <;> rfl
@[simp] theorem refusedReserved_rom (s : State) (c : CommandClass) (n : Nat) : (s.refusedReserved c n).rom = s.rom := by
  unfold State.refusedReserved
  split <;> rfl
@[simp] theorem refusedReserved_pending (s : State) (c : CommandClass) (n : Nat) :
    (s.refusedReserved c n).pending = s.pending := by
  unfold State.refusedReserved
  split <;> rfl
@[simp] theorem refusedReserved_responses (s : State) (c : CommandClass) (n : Nat) :
    (s.refusedReserved c n).responses = s.responses ++ [reply 0x02 n] := by
  unfold State.refusedReserved
  split <;> rfl
@[simp] theorem refusedReserved_keyValid (s : State) (c : CommandClass) (n : Nat) :
    (s.refusedReserved c n).status.keyValid = s.status.keyValid := by
  unfold State.refusedReserved
  split <;> rfl
@[simp] theorem refusedReserved_fault (s : State) (c : CommandClass) (n : Nat) :
    (s.refusedReserved c n).status.fault = s.status.fault := by
  unfold State.refusedReserved
  split <;> rfl
/-- On a locked key, and for a command of another class, the refusal only answers. -/
theorem refusedReserved_of_plain {s : State} {c : CommandClass} (n : Nat) (h : ¬ (c = .config ∧ s.Building)) :
    s.refusedReserved c n = s.replied (reply 0x02 n) := by
  simp only [State.refusedReserved, if_neg h]
/-- On a key being built, the refusal of a configuration command sets BUILD_ERR. -/
theorem refusedReserved_of_building {s : State} (n : Nat) (h : s.Building) :
    s.refusedReserved .config n = s.buildFailed.replied (reply 0x02 n) := by
  simp only [State.refusedReserved, true_and, if_pos h]

/-! ### Responses as numbers (R51) -/

/-- The response word {0x0000, code, data} is the number code * 256 + data. -/
theorem responseWord_eq_reply (code data : Byte) : responseWord code data = reply code.toNat data.toNat := by
  apply BitVec.eq_of_toNat_eq
  have hc := code.isLt
  have hd := data.isLt
  simp only [responseWord, reply, BitVec.toNat_append, BitVec.toNat_ofNat]
  rw [← Nat.shiftLeft_add_eq_or_of_lt hd, ← Nat.shiftLeft_add_eq_or_of_lt hc]
  simp only [Nat.shiftLeft_eq]
  omega

/-- respond, as the response of a number. -/
theorem respond_eq_replied (c : StatusCode) (d : Byte) (s : State) :
    respond c d s = s.replied (reply c.code.toNat d.toNat) := by
  simp only [respond, State.replied, responseWord_eq_reply]

/-- The value of a letter survives its byte. -/
@[simp] theorem letterByte_toNat (v : Letter) : (letterByte v).toNat = v.val := by
  simp only [letterByte, BitVec.toNat_ofNat]
  omega

/-- A response determines its status and data. -/
theorem reply_inj {a b c d : Nat} (ha : a < 256) (hb : b < 256) (hc : c < 256) (hd : d < 256)
    (h : reply a b = reply c d) : a = c ∧ b = d := by
  have h' := congrArg BitVec.toNat h
  simp only [reply, BitVec.toNat_ofNat] at h'
  omega

end Sys2Proof.Machine
end

