-- ==== Sys2Proof/Laws/Ops.lean ====
section
/-! SUPPORT. What each shared operation can do, said once: the operand checks, raising an error, and the common behaviour
of the configuration, pipeline and read commands. -/

namespace Sys2Proof.Machine

/-! ### Sequencing of checks -/

@[simp] theorem ok_bind {ε α β : Type} (a : α) (f : α → Except ε β) : (Except.ok a >>= f) = f a := rfl
@[simp] theorem error_bind {ε α β : Type} (e : ε) (f : α → Except ε β) :
    ((Except.error e : Except ε α) >>= f) = .error e := rfl
@[simp] theorem pure_eq_ok {ε α : Type} (a : α) : (pure a : Except ε α) = .ok a := rfl

/-! ### Operand checks -/

@[simp] theorem checkSlot_of_get {key : KeyStore} {k : Byte} {slot : RotorSlot} (h : key.slots[k.toNat]? = some slot) :
    checkSlot key k = .ok slot := by simp only [checkSlot, h]

theorem checkSlot_of_ge {key : KeyStore} {k : Byte} (h : key.maxRotors ≤ k.toNat) :
    checkSlot key k = .error ⟨.errRange, 1#8⟩ := by
  have : key.slots[k.toNat]? = none := List.getElem?_eq_none h
  simp only [checkSlot, this, fieldNumber]

/-- A slot below MAX_ROTORS has contents, and the check answers them. -/
theorem checkSlot_of_lt {key : KeyStore} {k : Byte} (h : k.toNat < key.maxRotors) :
    ∃ slot, key.slots[k.toNat]? = some slot ∧ checkSlot key k = .ok slot :=
  ⟨_, List.getElem?_eq_getElem h, checkSlot_of_get (List.getElem?_eq_getElem h)⟩

/-- A slot with contents is below MAX_ROTORS. -/
theorem lt_of_getSlot {key : KeyStore} {k : Nat} {slot : RotorSlot} (h : key.slots[k]? = some slot) :
    k < key.maxRotors := by
  by_cases hk : k < key.slots.length
  · exact hk
  · rw [List.getElem?_eq_none (Nat.le_of_not_lt hk)] at h
    cases h

theorem checkLetter_of_lt {f : Field} {b : Byte} (h : b.toNat < 26) : checkLetter f b = .ok ⟨b.toNat, h⟩ := by
  simp only [checkLetter, h, dite_true]

theorem checkLetter_of_ge {f : Field} {b : Byte} (h : 26 ≤ b.toNat) :
    checkLetter f b = .error ⟨.errRange, fieldNumber f⟩ := by
  simp only [checkLetter, Nat.not_lt.2 h, dite_false]

theorem checkCount_of_le {key : KeyStore} {n : Byte} (h : n.toNat ≤ key.maxRotors) : checkCount key n = .ok n := by
  simp only [checkCount, Nat.not_lt.2 h, if_false]

theorem checkCount_of_gt {key : KeyStore} {n : Byte} (h : key.maxRotors < n.toNat) :
    checkCount key n = .error ⟨.errRange, 3#8⟩ := by
  simp only [checkCount, h, if_true, fieldNumber]

theorem checkRotorType_of_mem {f : Field} {t : Byte} (h : 1 ≤ t.toNat) (h' : t.toNat ≤ 8) :
    checkRotorType f t = .ok ⟨t.toNat - 1, by omega⟩ := by
  have : ¬ (t.toNat < 1 ∨ t.toNat > 8) := by omega
  simp only [checkRotorType, this, dite_false]

theorem checkRotorType_of_not {f : Field} {t : Byte} (h : t.toNat < 1 ∨ 8 < t.toNat) :
    checkRotorType f t = .error ⟨.errSelector, fieldNumber f⟩ := by
  have : t.toNat < 1 ∨ t.toNat > 8 := h
  simp only [checkRotorType, this, dite_true]

theorem checkReflSelector_of_le {f : Field} {r : Byte} (h : r.toNat ≤ 1) :
    checkReflSelector f r = .ok ⟨r.toNat, by omega⟩ := by
  have : ¬ r.toNat > 1 := by omega
  simp only [checkReflSelector, this, dite_false]

theorem checkReflSelector_of_gt {f : Field} {r : Byte} (h : 1 < r.toNat) :
    checkReflSelector f r = .error ⟨.errSelector, fieldNumber f⟩ := by
  have : r.toNat > 1 := h
  simp only [checkReflSelector, this, dite_true]

/-- Bits 7:2 of a byte are clear exactly when it is below 4. -/
theorem policyBits_eq_zero_iff (f : Byte) : f.extractLsb' 2 6 = 0#6 ↔ f.toNat < 4 := by
  have hf := f.isLt
  rw [← BitVec.toNat_inj, BitVec.extractLsb'_toNat, Nat.shiftRight_eq_div_pow, BitVec.toNat_ofNat]
  omega

theorem checkPolicyFlags_of_lt {f : Byte} (h : f.toNat < 4) : checkPolicyFlags f = .ok f := by
  simp only [checkPolicyFlags, (policyBits_eq_zero_iff f).2 h, ne_eq, not_true_eq_false, if_false]

theorem checkPolicyFlags_of_ge {f : Byte} (h : 4 ≤ f.toNat) :
    checkPolicyFlags f = .error ⟨.errReserved, 3#8⟩ := by
  have : f.extractLsb' 2 6 ≠ 0#6 := fun h0 => absurd ((policyBits_eq_zero_iff f).1 h0) (by omega)
  simp only [checkPolicyFlags, this, ne_eq, not_false_eq_true, if_true, fieldNumber]

/-! ### Raising an error -/

/-- Outside the configuration class, an error that is no inverse miss only answers. -/
theorem raiseError_of_plain {cls : Option CommandClass} {c : StatusCode} {d : Byte} (s : State)
    (hc : cls ≠ some .config) (hm : c ≠ .faultInverseMiss) :
    raiseError cls ⟨c, d⟩ s = s.replied (reply c.code.toNat d.toNat) := by
  simp only [raiseError, respond_eq_replied, statusAfterError_of_plain s.status hc hm]

/-- An inverse miss sets FAULT and answers. -/
theorem raiseError_of_miss (cls : Option CommandClass) (d : Byte) (s : State) :
    raiseError cls ⟨.faultInverseMiss, d⟩ s = s.faulted.replied (reply 0x20 d.toNat) := by
  simp only [raiseError, respond_eq_replied, statusAfterError_of_miss, State.faulted, StatusCode.code]
  rfl

/-- A build failure of a configuration command sets BUILD_ERR and answers. -/
theorem raiseError_of_buildFailure {c : StatusCode} {d : Byte} {s : State} (hk : s.Building)
    (hb : isBuildFailure c = true) :
    raiseError (some .config) ⟨c, d⟩ s = s.buildFailed.replied (reply c.code.toNat d.toNat) := by
  simp only [raiseError, respond_eq_replied, statusAfterError_of_buildFailure s.status hk hb, State.buildFailed]

/-- On a locked key, no error but an inverse miss does more than answer. -/
theorem raiseError_of_locked {cls : Option CommandClass} {c : StatusCode} {d : Byte} {s : State} (hk : s.Locked)
    (hm : c ≠ .faultInverseMiss) : raiseError cls ⟨c, d⟩ s = s.replied (reply c.code.toNat d.toNat) := by
  simp only [raiseError, respond_eq_replied, statusAfterError_of_locked cls s.status hk hm]

/-! ### Configuration commands (R61, R62) -/

theorem runConfig_of_locked {s : State} (body : Except ErrorReport KeyStore) (hk : s.Locked) :
    runConfig body s = .next (s.replied (reply 0x03 0)) := by
  rw [runConfig.eq_def, if_pos hk, raiseError_of_locked hk (by decide)]
  rfl

theorem runConfig_of_error {s : State} {c : StatusCode} {d : Byte} (hk : s.Building) (hb : isBuildFailure c = true) :
    runConfig (.error ⟨c, d⟩) s = .next (s.buildFailed.replied (reply c.code.toNat d.toNat)) := by
  have hk' : ¬ s.status.keyValid = true := by simp [hk]
  simp only [runConfig, if_neg hk', raiseError_of_buildFailure hk hb]

theorem runConfig_of_ok {s : State} (key : KeyStore) (hk : s.Building) :
    runConfig (.ok key) s = .next ({ s with key := key }.replied (reply 0 0)) := by
  have hk' : ¬ s.status.keyValid = true := by simp [hk]
  simp only [runConfig, if_neg hk', respond_eq_replied, StatusCode.code]
  rfl

/-! ### Pipeline commands (R87) -/

theorem runPipeline_of_fault {s : State} (body : Except ErrorReport Byte) (hf : s.status.fault = true) :
    runPipeline body s = .next (s.replied (reply 0x07 0)) := by
  rw [runPipeline.eq_def, if_pos hf, raiseError_of_plain s (by decide) (by decide)]
  rfl

theorem runPipeline_of_noKey {s : State} (body : Except ErrorReport Byte) (hf : s.status.fault = false)
    (hk : s.Building) : runPipeline body s = .next (s.replied (reply 0x04 0)) := by
  have hf' : ¬ s.status.fault = true := by simp [hf]
  have hk' : (!s.status.keyValid) = true := by simp [hk]
  rw [runPipeline.eq_def, if_neg hf', if_pos hk', raiseError_of_plain s (by decide) (by decide)]
  rfl

/-- A ready pipeline runs its body. -/
theorem runPipeline_of_ready {s : State} (body : Except ErrorReport Byte) (h : s.PipelineReady) :
    runPipeline body s = match body with
      | .error e => .next (raiseError (some .pipeline) e s)
      | .ok data => .next (s.replied (reply 0 data.toNat)) := by
  have hf' : ¬ s.status.fault = true := by simp [h.1]
  have hk' : ¬ (!s.status.keyValid) = true := by simp [h.2]
  rw [runPipeline.eq_def, if_neg hf', if_neg hk']
  cases body <;> simp only [respond_eq_replied] <;> rfl

/-! ### NOP and read commands (R108) -/

theorem runRead_of_error {c : StatusCode} {d : Byte} (s : State) (hm : c ≠ .faultInverseMiss) :
    runRead (.error ⟨c, d⟩) s = .next (s.replied (reply c.code.toNat d.toNat)) := by
  simp only [runRead, raiseError_of_plain s (show some CommandClass.readBack ≠ some .config by decide) hm]

theorem runRead_of_ok (data : Byte) (s : State) : runRead (.ok data) s = .next (s.replied (reply 0 data.toNat)) := by
  simp only [runRead, respond_eq_replied]
  rfl

end Sys2Proof.Machine
end

