-- ==== Sys2Proof/Laws/Tables.lean ====
section
/-! SUPPORT. Searches over the letters, mod26, the slots of a rotor, and what the validation and the inverse search find,
each said once. -/

namespace Sys2Proof

/-! ### Searching the letters -/

@[simp] theorem mem_letters (v : Letter) : v ∈ letters := List.mem_finRange v

theorem letters_find_eq_none_iff (p : Letter → Bool) : letters.find? p = none ↔ ∀ x : Letter, p x = false := by
  simp [List.find?_eq_none]

/-- A search of the letters finds the smallest letter with the property. -/
theorem letters_find_eq_some_iff (p : Letter → Bool) (x : Letter) :
    letters.find? p = some x ↔ p x = true ∧ ∀ y : Letter, y < x → p y = false := by
  rw [List.find?_eq_some_iff_getElem]
  constructor
  · rintro ⟨hx, i, hi, rfl, hlt⟩
    refine ⟨hx, fun y hy => ?_⟩
    have hyi : y.val < i := by simpa [letters, Fin.lt_def] using hy
    have := hlt y.val hyi
    simpa [letters] using this
  · rintro ⟨hx, hlt⟩
    refine ⟨hx, x.val, by simp [letters], by simp [letters], fun j hj => ?_⟩
    have hj26 : j < 26 := Nat.lt_trans hj x.isLt
    have := hlt ⟨j, hj26⟩ hj
    simpa [letters] using this

/-- Equal letters index the same entry. A rewrite of the index itself meets the bound proof inside it; this does not. -/
theorem get_congr (t : Table) {i j : Letter} (h : i = j) : t[i] = t[j] := by
  subst h
  rfl

/-! ### Permutations -/

/-- In a permutation no value appears twice: R84's 'every value appears is the same as no value appears twice'. -/
theorem IsPermutation.injective {t : Table} (h : IsPermutation t) {i j : Letter} (hij : t[i] = t[j]) : i = j :=
  (Finite.injective_iff_surjective (f := fun x : Letter => t[x])).2 h hij

/-- An involution is a permutation (R85). -/
theorem IsInvolution.isPermutation {t : Table} (h : IsInvolution t) : IsPermutation t := fun v => ⟨t[v], h v⟩

namespace Machine

/-! ### mod26 and the offset of a rotor (R12, R89) -/

theorem mod26_val (x : Int) : ((mod26 x).val : Int) = x % 26 := by
  simp only [mod26]
  omega

/-- The entry of a rotor, over the integers mod 26 of Fin. -/
theorem entry_eq (slot : RotorSlot) (v : Letter) : slot.entry v = v + (slot.pos - slot.ring) := by
  apply Fin.ext
  have h := mod26_val ((v.val : Int) + slot.offset)
  simp only [RotorSlot.offset] at h
  simp only [RotorSlot.entry, RotorSlot.offset, Fin.val_add, Fin.sub_def]
  omega

/-- The exit of a rotor, over the integers mod 26 of Fin. -/
theorem exit_eq (slot : RotorSlot) (o : Letter) : slot.exit o = o - (slot.pos - slot.ring) := by
  apply Fin.ext
  have h := mod26_val ((o.val : Int) - slot.offset)
  simp only [RotorSlot.offset] at h
  simp only [RotorSlot.exit, RotorSlot.offset, Fin.sub_def]
  omega

@[simp] theorem entry_exit (slot : RotorSlot) (o : Letter) : slot.entry (slot.exit o) = o := by
  rw [entry_eq, exit_eq, sub_add_cancel]

@[simp] theorem exit_entry (slot : RotorSlot) (v : Letter) : slot.exit (slot.entry v) = v := by
  rw [entry_eq, exit_eq, add_sub_cancel_right]

/-! ### The inverse search (R91) -/

theorem findInverse_eq_some {t : Table} {e j : Letter} (h : findInverse t e = some j) : t[j] = e := by
  have := ((letters_find_eq_some_iff _ j).1 h).1
  simpa using this

/-- A table in which the entry appears is searched with success. -/
theorem findInverse_isSome {t : Table} {e : Letter} (h : ∃ j : Letter, t[j] = e) : ∃ j, findInverse t e = some j := by
  cases hf : findInverse t e with
  | some j => exact ⟨j, rfl⟩
  | none =>
    obtain ⟨j, hj⟩ := h
    have := (letters_find_eq_none_iff _).1 hf j
    simp [hj] at this

/-- In a permutation the search is the inverse. -/
theorem findInverse_of_isPermutation {t : Table} (h : IsPermutation t) (j : Letter) : findInverse t t[j] = some j := by
  obtain ⟨i, hi⟩ := findInverse_isSome (t := t) ⟨j, rfl⟩
  rw [hi, h.injective (findInverse_eq_some hi)]

/-- A backward step that fails, fails by an inverse miss in its own slot. -/
theorem backward_error {slot : RotorSlot} {k : Nat} {v : Letter} {e : ErrorReport}
    (h : slot.backward k v = .error e) : e = ⟨.faultInverseMiss, BitVec.ofNat 8 k⟩ := by
  unfold RotorSlot.backward at h
  split at h
  · cases h
  · exact (Except.error.inj h).symm

/-- The backward pass of a list of slots with one more slot at its end: that slot comes first. -/
theorem bwdSlots_append (k : Nat) (slots : List RotorSlot) (slot : RotorSlot) (v : Letter) :
    bwdSlots k (slots ++ [slot]) v = (slot.backward (k + slots.length) v >>= bwdSlots k slots) := by
  induction slots generalizing k with
  | nil => simp only [List.nil_append, bwdSlots, ok_bind, List.length_nil, Nat.add_zero]
           cases slot.backward k v <;> rfl
  | cons a as ih =>
    simp only [List.cons_append, bwdSlots, ih, List.length_cons]
    rw [show k + 1 + as.length = k + (as.length + 1) by omega]
    cases slot.backward (k + (as.length + 1)) v <;> rfl

/-- A backward pass that fails, fails by an inverse miss. -/
theorem bwdSlots_error {k : Nat} {slots : List RotorSlot} {v : Letter} {e : ErrorReport}
    (h : bwdSlots k slots v = .error e) : e.code = .faultInverseMiss := by
  induction slots generalizing k e with
  | nil => cases h
  | cons a as ih =>
    simp only [bwdSlots] at h
    cases hb : bwdSlots (k + 1) as v with
    | error e' => rw [hb] at h; cases h; exact ih hb
    | ok u => rw [hb, ok_bind] at h; rw [backward_error h]

theorem bwdPass_error {key : KeyStore} {v : Letter} {e : ErrorReport} (h : bwdPass key v = .error e) :
    e.code = .faultInverseMiss := bwdSlots_error h

/-- An encipherment that fails, fails by an inverse miss. -/
theorem encipher_error {key : KeyStore} {v : Letter} {e : ErrorReport} (h : encipher key v = .error e) :
    e.code = .faultInverseMiss := by
  simp only [encipher] at h
  cases hb : bwdPass key (reflStage key (fwdPass key (plugStage key v))) with
  | error e' => rw [hb] at h; cases h; exact bwdPass_error hb
  | ok u => rw [hb] at h; cases h

/-! ### Active slots (R21) -/

/-- A slot is active exactly when its number is below ROTOR_COUNT and it exists. -/
theorem mem_activeSlots_iff {key : KeyStore} {slot : RotorSlot} :
    slot ∈ key.activeSlots ↔ ∃ k, k < key.rotorCount.toNat ∧ key.slots[k]? = some slot := by
  simp only [KeyStore.activeSlots, List.mem_iff_getElem?, List.getElem?_take]
  constructor
  · rintro ⟨k, hk⟩
    split at hk
    · exact ⟨k, ‹_›, hk⟩
    · cases hk
  · rintro ⟨k, hlt, hk⟩
    exact ⟨k, by rw [if_pos hlt, hk]⟩

/-- With one more active slot, that slot stands last. -/
theorem activeSlots_succ {key : KeyStore} {n : Nat} {slot : RotorSlot} (hn : key.rotorCount.toNat = n + 1)
    (hs : key.slots[n]? = some slot) :
    key.activeSlots = ({ key with rotorCount := BitVec.ofNat 8 n } : KeyStore).activeSlots ++ [slot] := by
  have hlt := key.rotorCount.isLt
  have : (BitVec.ofNat 8 n).toNat = n := by rw [BitVec.toNat_ofNat]; omega
  simp only [KeyStore.activeSlots, hn, this, List.take_add_one, hs, Option.toList]

/-! ### Validation (R83 to R86) -/

theorem isPermutationTable_iff (t : Table) : isPermutationTable t = true ↔ IsPermutation t := by
  simp [isPermutationTable, List.all_eq_true, List.any_eq_true, IsPermutation]

theorem firstNonInvolution_eq_none_iff (t : Table) : firstNonInvolution t = none ↔ IsInvolution t := by
  simp only [firstNonInvolution, letters_find_eq_none_iff, bne_eq_false_iff_eq]

theorem firstFixedPoint_eq_none_iff (t : Table) : firstFixedPoint t = none ↔ HasNoFixedPoint t := by
  simp only [firstFixedPoint, letters_find_eq_none_iff, beq_eq_false_iff_ne]

theorem firstNonPermutation_eq_none_iff (k : Nat) (slots : List RotorSlot) :
    firstNonPermutation k slots = none ↔ ∀ slot ∈ slots, IsPermutation slot.wiring := by
  induction slots generalizing k with
  | nil => simp [firstNonPermutation]
  | cons a as ih =>
    simp only [firstNonPermutation, List.forall_mem_cons, ← ih (k + 1), ← isPermutationTable_iff a.wiring]
    split <;> simp_all

/-- The rotor check names the first slot that is not a permutation. -/
theorem firstNonPermutation_eq_some_iff (k n : Nat) (slots : List RotorSlot) :
    firstNonPermutation k slots = some n ↔
      ∃ (m : Nat) (slot : RotorSlot), n = k + m ∧ slots[m]? = some slot ∧ ¬ IsPermutation slot.wiring ∧
        ∀ (j : Nat) (r : RotorSlot), j < m → slots[j]? = some r → IsPermutation r.wiring := by
  induction slots generalizing k with
  | nil => simp [firstNonPermutation]
  | cons a as ih =>
    simp only [firstNonPermutation]
    split
    · rename_i ha
      have ha := (isPermutationTable_iff _).1 ha
      rw [ih]
      constructor
      · rintro ⟨m, slot, rfl, hs, hp, hj⟩
        refine ⟨m + 1, slot, by omega, by simpa using hs, hp, fun j r hlt hr => ?_⟩
        cases j with
        | zero => simp only [List.getElem?_cons_zero, Option.some.injEq] at hr; exact hr ▸ ha
        | succ j => exact hj j r (by omega) (by simpa using hr)
      · rintro ⟨m, slot, rfl, hs, hp, hj⟩
        cases m with
        | zero => simp only [List.getElem?_cons_zero, Option.some.injEq] at hs; exact absurd (hs ▸ ha) hp
        | succ m =>
          exact ⟨m, slot, by omega, by simpa using hs, hp, fun j r hlt hr => hj (j + 1) r (by omega) (by simpa using hr)⟩
    · rename_i ha
      have ha := mt (isPermutationTable_iff _).2 ha
      constructor
      · intro h
        have h := Option.some.inj h
        exact ⟨0, a, by omega, rfl, ha, fun j r hj => absurd hj (by omega)⟩
      · rintro ⟨m, slot, rfl, hs, hp, hj⟩
        cases m with
        | zero => rfl
        | succ m => exact absurd (hj 0 a (by omega) rfl) ha

/-- validate() passes exactly on a valid key. -/
theorem validate_eq_ok_iff (key : KeyStore) : validate key = .ok () ↔ key.Valid := by
  have hr : checkRotors key = .ok () ↔ ∀ slot ∈ key.activeSlots, IsPermutation slot.wiring := by
    rw [← firstNonPermutation_eq_none_iff 0]
    unfold checkRotors
    split <;> simp [*]
  have hf : checkReflector key = .ok () ↔ IsInvolution key.refl := by
    rw [← firstNonInvolution_eq_none_iff]
    unfold checkReflector
    split <;> simp [*]
  have hx : checkReflectorFixed key = .ok () ↔ (key.policy.getLsbD 1 = true → HasNoFixedPoint key.refl) := by
    rw [← firstFixedPoint_eq_none_iff]
    unfold checkReflectorFixed KeyStore.reflNoFixed
    split
    · rename_i hp
      split <;> simp [*]
    · rename_i hp
      exact ⟨fun _ h => absurd h hp, fun _ => rfl⟩
  have hp : checkPlugboard key = .ok () ↔ IsInvolution key.plug := by
    rw [← firstNonInvolution_eq_none_iff]
    unfold checkPlugboard
    split <;> simp [*]
  have seq : ∀ (a b : Except ErrorReport Unit), (a >>= fun _ => b) = .ok () ↔ a = .ok () ∧ b = .ok () := by
    intro a b
    cases a <;> simp
  unfold validate
  rw [seq, seq, seq, hr, hf, hx, hp]
  constructor
  · rintro ⟨h1, h2, h3, h4⟩
    exact ⟨fun k slot hk hs => h1 slot (mem_activeSlots_iff.2 ⟨k, hk, hs⟩), h2, h3, h4⟩
  · rintro ⟨h1, h2, h3, h4⟩
    refine ⟨fun slot hs => ?_, h2, h3, h4⟩
    obtain ⟨k, hk, hs⟩ := mem_activeSlots_iff.1 hs
    exact h1 k slot hk hs

/-- A validation that fails names one of its four errors. -/
theorem validate_error {key : KeyStore} {e : ErrorReport} (h : validate key = .error e) :
    e.code = .errRotorNotPerm ∨ e.code = .errReflNotInvol ∨ e.code = .errReflFixed ∨ e.code = .errPlugNotInvol := by
  unfold validate at h
  cases h1 : checkRotors key with
  | error e1 =>
    rw [h1] at h
    cases h
    unfold checkRotors at h1
    split at h1 <;> cases h1
    exact .inl rfl
  | ok u1 =>
    rw [h1, ok_bind] at h
    cases h2 : checkReflector key with
    | error e2 =>
      rw [h2] at h
      cases h
      unfold checkReflector at h2
      split at h2 <;> cases h2
      exact .inr (.inl rfl)
    | ok u2 =>
      rw [h2, ok_bind] at h
      cases h3 : checkReflectorFixed key with
      | error e3 =>
        rw [h3] at h
        cases h
        unfold checkReflectorFixed at h3
        split at h3
        · split at h3 <;> cases h3
          exact .inr (.inr (.inl rfl))
        · cases h3
      | ok u3 =>
        rw [h3, ok_bind] at h
        unfold checkPlugboard at h
        split at h <;> cases h
        exact .inr (.inr (.inr rfl))

end Machine

end Sys2Proof
end

