-- ==== Sys2Proof/Laws/Exec.lean ====
section
/-! SUPPORT. What a command can do, said once per class (R61, R87, R108), and from that once for all commands and for all
words. -/

namespace Sys2Proof.Machine

/-- What the writes of a configuration command leave of a key store: the number of slots, and a ROTOR_COUNT and a POLICY
that are either the old ones or checked. -/
structure ConfigWrites (old new : KeyStore) : Prop where
  maxRotors : new.maxRotors = old.maxRotors
  rotorCount : new.rotorCount = old.rotorCount ∨ new.rotorCount.toNat ≤ old.maxRotors
  policy : new.policy = old.policy ∨ new.policy.toNat < 4

/-- The body of a configuration command: it answers a key store when the operands are in range, and otherwise a build
failure with a field number. -/
structure ConfigBody (i : Instr) (s : State) (body : Except ErrorReport KeyStore) : Prop where
  accepts : i.wellFormed s.maxRotors = true → ∃ key, body = .ok key
  refuses : i.wellFormed s.maxRotors = false →
    ∃ (c : StatusCode) (f : Field), body = .error ⟨c, fieldNumber f⟩ ∧ isBuildFailure c = true
  writes : ∀ key, body = .ok key → ConfigWrites s.key key

theorem configWrites_of_slots {old new : KeyStore} (h1 : new.maxRotors = old.maxRotors)
    (h2 : new.rotorCount = old.rotorCount) (h3 : new.policy = old.policy) : ConfigWrites old new :=
  ⟨h1, .inl h2, .inl h3⟩

/-- A command whose body is a slot check followed by the rest. -/
theorem slotBody {α : Type} (s : State) (k : Byte) (rest : RotorSlot → Except ErrorReport α) :
    (k.toNat < s.maxRotors ∧ ∃ slot, (checkSlot s.key k >>= rest) = rest slot) ∨
    (s.maxRotors ≤ k.toNat ∧ (checkSlot s.key k >>= rest) = .error ⟨.errRange, fieldNumber .S⟩) := by
  by_cases hk : k.toNat < s.maxRotors
  · obtain ⟨slot, -, h⟩ := checkSlot_of_lt (key := s.key) hk
    exact .inl ⟨hk, slot, by rw [h, ok_bind]⟩
  · have hk := Nat.le_of_not_lt hk
    exact .inr ⟨hk, by rw [checkSlot_of_ge (key := s.key) hk]; rfl⟩

/-- A command whose body is a letter check followed by the rest. -/
theorem letterBody {α : Type} (f : Field) (b : Byte) (rest : Letter → Except ErrorReport α) :
    (b.toNat < 26 ∧ ∃ v, (checkLetter f b >>= rest) = rest v) ∨
    (26 ≤ b.toNat ∧ (checkLetter f b >>= rest) = .error ⟨.errRange, fieldNumber f⟩) := by
  by_cases hb : b.toNat < 26
  · exact .inl ⟨hb, _, by rw [checkLetter_of_lt hb, ok_bind]⟩
  · have hb := Nat.le_of_not_lt hb
    exact .inr ⟨hb, by rw [checkLetter_of_ge hb]; rfl⟩

/-- A command whose body is a rotor type check followed by the rest. -/
theorem rotorTypeBody {α : Type} (f : Field) (t : Byte) (rest : Fin 8 → Except ErrorReport α) :
    ((1 ≤ t.toNat ∧ t.toNat ≤ 8) ∧ ∃ n, (checkRotorType f t >>= rest) = rest n) ∨
    (¬ (1 ≤ t.toNat ∧ t.toNat ≤ 8) ∧ (checkRotorType f t >>= rest) = .error ⟨.errSelector, fieldNumber f⟩) := by
  by_cases ht : 1 ≤ t.toNat ∧ t.toNat ≤ 8
  · exact .inl ⟨ht, _, by rw [checkRotorType_of_mem ht.1 ht.2, ok_bind]⟩
  · exact .inr ⟨ht, by rw [checkRotorType_of_not (by omega)]; rfl⟩

/-- A command whose body is a reflector selector check followed by the rest. -/
theorem reflSelectorBody {α : Type} (f : Field) (r : Byte) (rest : Fin 2 → Except ErrorReport α) :
    (r.toNat ≤ 1 ∧ ∃ n, (checkReflSelector f r >>= rest) = rest n) ∨
    (¬ r.toNat ≤ 1 ∧ (checkReflSelector f r >>= rest) = .error ⟨.errSelector, fieldNumber f⟩) := by
  by_cases hr : r.toNat ≤ 1
  · exact .inl ⟨hr, _, by rw [checkReflSelector_of_le hr, ok_bind]⟩
  · exact .inr ⟨hr, by rw [checkReflSelector_of_gt (by omega)]; rfl⟩

/-- The body of a command that writes slot k from a letter. -/
theorem slotLetterBody {i : Instr} {k v : Byte} (s : State) (write : RotorSlot → Letter → RotorSlot)
    (hwf : i.wellFormed s.maxRotors = (slotInRange s.maxRotors k && letterInRange v)) :
    ConfigBody i s (do
      let slot ← checkSlot s.key k
      let v ← checkLetter .B v
      pure (s.key.setSlot k (write slot v))) := by
  obtain ⟨hk, slot, h⟩ | ⟨hk, h⟩ := slotBody s k fun slot => do
      let v ← checkLetter .B v
      pure (s.key.setSlot k (write slot v))
  · rw [h]
    obtain ⟨hv, v', h⟩ | ⟨hv, h⟩ := letterBody .B v fun v =>
      (pure (s.key.setSlot k (write slot v)) : Except ErrorReport KeyStore)
    · rw [h]
      refine ⟨fun _ => ⟨_, rfl⟩, fun hn => ?_, fun key hkey => ?_⟩
      · simp [hwf, hk, hv] at hn
      · cases hkey
        exact configWrites_of_slots (setSlot_maxRotors ..) rfl rfl
    · rw [h]
      refine ⟨fun hn => ?_, fun _ => ⟨_, _, rfl, rfl⟩, fun key hkey => by cases hkey⟩
      simp [hwf, Nat.not_lt.2 hv] at hn
  · rw [h]
    refine ⟨fun hn => ?_, fun _ => ⟨_, _, rfl, rfl⟩, fun key hkey => by cases hkey⟩
    simp [hwf, Nat.not_lt.2 hk] at hn

/-- The body of a command that writes a table of the key store from two letters. -/
theorem tableEntryBody {i : Instr} {a b : Byte} (s : State) (write : Letter → Letter → KeyStore)
    (hwf : i.wellFormed s.maxRotors = (letterInRange a && letterInRange b))
    (hw : ∀ x y, ConfigWrites s.key (write x y)) :
    ConfigBody i s (do
      let a ← checkLetter .A a
      let b ← checkLetter .B b
      pure (write a b)) := by
  obtain ⟨ha, a', h⟩ | ⟨ha, h⟩ := letterBody .A a fun a => do
      let b ← checkLetter .B b
      (pure (write a b) : Except ErrorReport KeyStore)
  · rw [h]
    obtain ⟨hb, b', h⟩ | ⟨hb, h⟩ := letterBody .B b fun b => (pure (write a' b) : Except ErrorReport KeyStore)
    · rw [h]
      refine ⟨fun _ => ⟨_, rfl⟩, fun hn => ?_, fun key hkey => ?_⟩
      · simp [hwf, ha, hb] at hn
      · cases hkey
        exact hw _ _
    · rw [h]
      refine ⟨fun hn => ?_, fun _ => ⟨_, _, rfl, rfl⟩, fun key hkey => by cases hkey⟩
      simp [hwf, Nat.not_lt.2 hb] at hn
  · rw [h]
    refine ⟨fun hn => ?_, fun _ => ⟨_, _, rfl, rfl⟩, fun key hkey => by cases hkey⟩
    simp [hwf, Nat.not_lt.2 ha] at hn

/-- Every configuration command is the common behaviour of R61 over a body of its own. -/
theorem exec_config (i : Instr) (s : State) (hi : i.commandClass = .config) :
    ∃ body, exec i s = runConfig body s ∧ ConfigBody i s body := by
  cases i <;> first | (cases hi; done) | skip
  case setRotorCount n =>
    refine ⟨_, rfl, ?_⟩
    by_cases hn : n.toNat ≤ s.maxRotors
    · rw [checkCount_of_le (key := s.key) hn]
      refine ⟨fun _ => ⟨_, rfl⟩, fun h => ?_, fun key hkey => ?_⟩
      · simp [Instr.wellFormed, hn] at h
      · cases hkey
        exact ⟨rfl, .inr hn, .inl rfl⟩
    · rw [checkCount_of_gt (key := s.key) (Nat.lt_of_not_le hn)]
      refine ⟨fun h => ?_, fun _ => ⟨_, .B, rfl, rfl⟩, fun key hkey => by cases hkey⟩
      simp [Instr.wellFormed, hn] at h
  case loadRotorStd k t =>
    refine ⟨_, rfl, ?_⟩
    obtain ⟨hk, slot, h⟩ | ⟨hk, h⟩ := slotBody s k fun slot => do
        let t ← checkRotorType .B t
        pure (s.key.setSlot k { slot with wiring := s.rom.rotors[t].wiring, notch := s.rom.rotors[t].notch })
    · rw [h]
      obtain ⟨ht, n, h⟩ | ⟨ht, h⟩ := rotorTypeBody .B t fun t => (pure (s.key.setSlot k
        { slot with wiring := s.rom.rotors[t].wiring, notch := s.rom.rotors[t].notch }) : Except ErrorReport KeyStore)
      · rw [h]
        refine ⟨fun _ => ⟨_, rfl⟩, fun hn => ?_, fun key hkey => ?_⟩
        · simp [Instr.wellFormed, hk, ht] at hn
        · cases hkey
          exact configWrites_of_slots (setSlot_maxRotors ..) rfl rfl
      · rw [h]
        refine ⟨fun hn => ?_, fun _ => ⟨_, _, rfl, rfl⟩, fun key hkey => by cases hkey⟩
        simp only [Instr.wellFormed, Bool.and_eq_true, decide_eq_true_eq] at hn
        exact absurd hn.2 ht
    · rw [h]
      refine ⟨fun hn => ?_, fun _ => ⟨_, _, rfl, rfl⟩, fun key hkey => by cases hkey⟩
      simp [Instr.wellFormed, Nat.not_lt.2 hk] at hn
  case loadRotorShift k sh => exact ⟨_, rfl, slotLetterBody s (fun slot v => { slot with wiring := shiftTable v, notch := 0 }) rfl⟩
  case writeWiring k idx v =>
    refine ⟨_, rfl, ?_⟩
    obtain ⟨hk, slot, h⟩ | ⟨hk, h⟩ := slotBody s k fun slot => do
        let idx ← checkLetter .A idx
        let v ← checkLetter .B v
        pure (s.key.setSlot k { slot with wiring := slot.wiring.set idx v })
    · rw [h]
      obtain ⟨ha, a', h⟩ | ⟨ha, h⟩ := letterBody .A idx fun idx => do
          let v ← checkLetter .B v
          (pure (s.key.setSlot k { slot with wiring := slot.wiring.set idx v }) : Except ErrorReport KeyStore)
      · rw [h]
        obtain ⟨hv, v', h⟩ | ⟨hv, h⟩ := letterBody .B v fun v =>
          (pure (s.key.setSlot k { slot with wiring := slot.wiring.set a' v }) : Except ErrorReport KeyStore)
        · rw [h]
          refine ⟨fun _ => ⟨_, rfl⟩, fun hn => ?_, fun key hkey => ?_⟩
          · simp [Instr.wellFormed, hk, ha, hv] at hn
          · cases hkey
            exact configWrites_of_slots (setSlot_maxRotors ..) rfl rfl
        · rw [h]
          refine ⟨fun hn => ?_, fun _ => ⟨_, _, rfl, rfl⟩, fun key hkey => by cases hkey⟩
          simp [Instr.wellFormed, Nat.not_lt.2 hv] at hn
      · rw [h]
        refine ⟨fun hn => ?_, fun _ => ⟨_, _, rfl, rfl⟩, fun key hkey => by cases hkey⟩
        simp [Instr.wellFormed, Nat.not_lt.2 ha] at hn
    · rw [h]
      refine ⟨fun hn => ?_, fun _ => ⟨_, _, rfl, rfl⟩, fun key hkey => by cases hkey⟩
      simp [Instr.wellFormed, Nat.not_lt.2 hk] at hn
  case setNotch k v => exact ⟨_, rfl, slotLetterBody s (fun slot v => { slot with notch := v }) rfl⟩
  case setPosition k v => exact ⟨_, rfl, slotLetterBody s (fun slot v => { slot with pos := v }) rfl⟩
  case setRing k v => exact ⟨_, rfl, slotLetterBody s (fun slot v => { slot with ring := v }) rfl⟩
  case setRingSeed k v => exact ⟨_, rfl, slotLetterBody s (fun slot v => { slot with ring := v, pos := v }) rfl⟩
  case loadReflStd r =>
    refine ⟨_, rfl, ?_⟩
    obtain ⟨hr, n, h⟩ | ⟨hr, h⟩ := reflSelectorBody .B r fun r =>
      (pure { s.key with refl := s.rom.refls[r] } : Except ErrorReport KeyStore)
    · rw [h]
      refine ⟨fun _ => ⟨_, rfl⟩, fun hn => ?_, fun key hkey => ?_⟩
      · simp [Instr.wellFormed, hr] at hn
      · cases hkey
        exact configWrites_of_slots rfl rfl rfl
    · rw [h]
      refine ⟨fun hn => ?_, fun _ => ⟨_, _, rfl, rfl⟩, fun key hkey => by cases hkey⟩
      simp only [Instr.wellFormed, decide_eq_true_eq] at hn
      exact absurd hn hr
  case writeRefl idx v =>
    exact ⟨_, rfl, tableEntryBody s (fun a b => { s.key with refl := s.key.refl.set a b }) rfl
      fun _ _ => configWrites_of_slots rfl rfl rfl⟩
  case plugClear =>
    refine ⟨_, rfl, fun _ => ⟨_, rfl⟩, fun hn => ?_, fun key hkey => ?_⟩
    · simp [Instr.wellFormed] at hn
    · cases hkey
      exact configWrites_of_slots rfl rfl rfl
  case plugSwap a b =>
    exact ⟨_, rfl, tableEntryBody s (fun a b => { s.key with plug := (s.key.plug.set a b).set b a }) rfl
      fun _ _ => configWrites_of_slots rfl rfl rfl⟩
  case writePlug idx v =>
    exact ⟨_, rfl, tableEntryBody s (fun a b => { s.key with plug := s.key.plug.set a b }) rfl
      fun _ _ => configWrites_of_slots rfl rfl rfl⟩
  case setPolicy f =>
    refine ⟨_, rfl, ?_⟩
    by_cases hf : f.toNat < 4
    · rw [checkPolicyFlags_of_lt hf]
      refine ⟨fun _ => ⟨_, rfl⟩, fun h => ?_, fun key hkey => ?_⟩
      · simp [Instr.wellFormed, hf] at h
      · cases hkey
        exact ⟨rfl, .inl rfl, .inr hf⟩
    · rw [checkPolicyFlags_of_ge (Nat.le_of_not_lt hf)]
      refine ⟨fun h => ?_, fun _ => ⟨_, .B, rfl, rfl⟩, fun key hkey => by cases hkey⟩
      simp [Instr.wellFormed, hf] at h

/-- The body of a pipeline command, as far as its errors go: out of range is ERR_RANGE of field B, and any other error
is an inverse miss, of a command that runs the backward pass. -/
structure PipelineBody (i : Instr) (s : State) (body : Except ErrorReport Byte) : Prop where
  refuses : i.wellFormed s.maxRotors = false → body = .error ⟨.errRange, fieldNumber .B⟩
  misses : ∀ e, i.wellFormed s.maxRotors = true → body = .error e → e.code = .faultInverseMiss ∧
    (i.opcode = .xlateIndex ∨ i.opcode = .xlateChar ∨ i.opcode = .stageBwd)

/-- The body of a pipeline command on one index. -/
theorem indexBody {i : Instr} {v : Byte} (s : State) (rest : Letter → Except ErrorReport Byte)
    (hwf : i.wellFormed s.maxRotors = letterInRange v)
    (hrest : ∀ u e, rest u = .error e → e.code = .faultInverseMiss ∧
      (i.opcode = .xlateIndex ∨ i.opcode = .xlateChar ∨ i.opcode = .stageBwd)) :
    PipelineBody i s (checkLetter .B v >>= rest) := by
  obtain ⟨hv, u, h⟩ | ⟨hv, h⟩ := letterBody .B v rest
  · rw [h]
    refine ⟨fun hn => ?_, fun e _ he => hrest u e he⟩
    simp [hwf, hv] at hn
  · rw [h]
    refine ⟨fun _ => rfl, fun e hn _ => ?_⟩
    simp [hwf, Nat.not_lt.2 hv] at hn

/-- Every pipeline command is the common behaviour of R87 over a body of its own. -/
theorem exec_pipeline (i : Instr) (s : State) (hi : i.commandClass = .pipeline) :
    ∃ body, exec i s = runPipeline body s ∧ PipelineBody i s body := by
  cases i <;> first | (cases hi; done) | skip
  case xlateIndex v =>
    refine ⟨_, rfl, indexBody s _ rfl fun u e he => ⟨?_, .inl rfl⟩⟩
    cases h : encipher s.key u with
    | error e' => rw [h] at he; cases he; exact encipher_error h
    | ok o => rw [h] at he; cases he
  case xlateChar c =>
    refine ⟨_, rfl, fun hn => by simp [Instr.wellFormed] at hn, fun e _ he => ⟨?_, .inr (.inl rfl)⟩⟩
    unfold xlateByte at he
    split at he
    · rename_i v capital _
      cases h : encipher s.key v with
      | error e' => rw [h] at he; cases he; exact encipher_error h
      | ok o => rw [h] at he; cases he
    · cases he
  case stagePlug v => exact ⟨_, rfl, indexBody s _ rfl fun u e he => by cases he⟩
  case stageFwd v => exact ⟨_, rfl, indexBody s _ rfl fun u e he => by cases he⟩
  case stageRefl v => exact ⟨_, rfl, indexBody s _ rfl fun u e he => by cases he⟩
  case stageBwd v =>
    refine ⟨_, rfl, indexBody s _ rfl fun u e he => ⟨?_, .inr (.inr rfl)⟩⟩
    cases h : bwdPass s.key u with
    | error e' => rw [h] at he; cases he; exact bwdPass_error h
    | ok o => rw [h] at he; cases he

/-- The body of NOP or a read command: it answers a byte when the operands are in range, and otherwise ERR_RANGE or
ERR_SELECTOR with a field number. -/
structure ReadBody (i : Instr) (s : State) (body : Except ErrorReport Byte) : Prop where
  accepts : i.wellFormed s.maxRotors = true → ∃ data, body = .ok data
  refuses : i.wellFormed s.maxRotors = false →
    ∃ (c : StatusCode) (f : Field), body = .error ⟨c, fieldNumber f⟩ ∧ (c = .errRange ∨ c = .errSelector)

theorem readBody_of_ok {i : Instr} {s : State} {data : Byte} (h : i.wellFormed s.maxRotors = true) :
    ReadBody i s (.ok data) := ⟨fun _ => ⟨_, rfl⟩, fun hn => by simp [h] at hn⟩

theorem readBody_of_error {i : Instr} {s : State} {c : StatusCode} {f : Field}
    (h : i.wellFormed s.maxRotors = false) (hc : c = .errRange ∨ c = .errSelector) :
    ReadBody i s (.error ⟨c, fieldNumber f⟩) := ⟨fun hn => by simp [h] at hn, fun _ => ⟨c, f, rfl, hc⟩⟩

/-- NOP and every read command is the common behaviour of R108 over a body of its own. -/
theorem exec_readBack (i : Instr) (s : State) (hi : i.commandClass = .readBack) :
    ∃ body, exec i s = runRead body s ∧ ReadBody i s body := by
  cases i <;> first | (cases hi; done) | skip
  case nop => exact ⟨_, rfl, readBody_of_ok rfl⟩
  case readRotorCount => exact ⟨_, rfl, readBody_of_ok rfl⟩
  case readPolicy => exact ⟨_, rfl, readBody_of_ok rfl⟩
  case readStatus => exact ⟨_, rfl, readBody_of_ok rfl⟩
  case readMaxRotors => exact ⟨_, rfl, readBody_of_ok rfl⟩
  case readWiring k idx =>
    refine ⟨_, rfl, ?_⟩
    obtain ⟨hk, slot, h⟩ | ⟨hk, h⟩ := slotBody s k fun slot => do
        let idx ← checkLetter .A idx
        (pure (letterByte slot.wiring[idx]) : Except ErrorReport Byte)
    · rw [h]
      obtain ⟨ha, a', h⟩ | ⟨ha, h⟩ := letterBody .A idx fun idx =>
        (pure (letterByte slot.wiring[idx]) : Except ErrorReport Byte)
      · rw [h]; exact readBody_of_ok (by simp [Instr.wellFormed, hk, ha])
      · rw [h]; exact readBody_of_error (by simp [Instr.wellFormed, Nat.not_lt.2 ha]) (.inl rfl)
    · rw [h]; exact readBody_of_error (by simp [Instr.wellFormed, Nat.not_lt.2 hk]) (.inl rfl)
  case readNotch k =>
    refine ⟨_, rfl, ?_⟩
    obtain ⟨hk, slot, h⟩ | ⟨hk, h⟩ := slotBody s k fun slot => (pure (letterByte slot.notch) : Except ErrorReport Byte)
    · rw [h]; exact readBody_of_ok (by simp [Instr.wellFormed, hk])
    · rw [h]; exact readBody_of_error (by simp [Instr.wellFormed, Nat.not_lt.2 hk]) (.inl rfl)
  case readPosition k =>
    refine ⟨_, rfl, ?_⟩
    obtain ⟨hk, slot, h⟩ | ⟨hk, h⟩ := slotBody s k fun slot => (pure (letterByte slot.pos) : Except ErrorReport Byte)
    · rw [h]; exact readBody_of_ok (by simp [Instr.wellFormed, hk])
    · rw [h]; exact readBody_of_error (by simp [Instr.wellFormed, Nat.not_lt.2 hk]) (.inl rfl)
  case readRing k =>
    refine ⟨_, rfl, ?_⟩
    obtain ⟨hk, slot, h⟩ | ⟨hk, h⟩ := slotBody s k fun slot => (pure (letterByte slot.ring) : Except ErrorReport Byte)
    · rw [h]; exact readBody_of_ok (by simp [Instr.wellFormed, hk])
    · rw [h]; exact readBody_of_error (by simp [Instr.wellFormed, Nat.not_lt.2 hk]) (.inl rfl)
  case readRefl idx =>
    refine ⟨_, rfl, ?_⟩
    obtain ⟨ha, a', h⟩ | ⟨ha, h⟩ := letterBody .A idx fun idx =>
      (pure (letterByte s.key.refl[idx]) : Except ErrorReport Byte)
    · rw [h]; exact readBody_of_ok (by simp [Instr.wellFormed, ha])
    · rw [h]; exact readBody_of_error (by simp [Instr.wellFormed, Nat.not_lt.2 ha]) (.inl rfl)
  case readPlug idx =>
    refine ⟨_, rfl, ?_⟩
    obtain ⟨ha, a', h⟩ | ⟨ha, h⟩ := letterBody .A idx fun idx =>
      (pure (letterByte s.key.plug[idx]) : Except ErrorReport Byte)
    · rw [h]; exact readBody_of_ok (by simp [Instr.wellFormed, ha])
    · rw [h]; exact readBody_of_error (by simp [Instr.wellFormed, Nat.not_lt.2 ha]) (.inl rfl)
  case readRomWiring t idx =>
    refine ⟨_, rfl, ?_⟩
    obtain ⟨ht, n, h⟩ | ⟨ht, h⟩ := rotorTypeBody .S t fun t => do
        let idx ← checkLetter .A idx
        (pure (letterByte s.rom.rotors[t].wiring[idx]) : Except ErrorReport Byte)
    · rw [h]
      obtain ⟨ha, a', h⟩ | ⟨ha, h⟩ := letterBody .A idx fun idx =>
        (pure (letterByte s.rom.rotors[n].wiring[idx]) : Except ErrorReport Byte)
      · rw [h]; exact readBody_of_ok (by simp [Instr.wellFormed, ht, ha])
      · rw [h]; exact readBody_of_error (by simp [Instr.wellFormed, Nat.not_lt.2 ha]) (.inl rfl)
    · rw [h]; exact readBody_of_error (by simp [Instr.wellFormed, ← Bool.not_eq_true, ht]) (.inr rfl)
  case readRomNotch t =>
    refine ⟨_, rfl, ?_⟩
    obtain ⟨ht, n, h⟩ | ⟨ht, h⟩ := rotorTypeBody .S t fun t =>
      (pure (letterByte s.rom.rotors[t].notch) : Except ErrorReport Byte)
    · rw [h]; exact readBody_of_ok (by simp [Instr.wellFormed, ht])
    · rw [h]; exact readBody_of_error (by simp [Instr.wellFormed, ← Bool.not_eq_true, ht]) (.inr rfl)
  case readRomRefl r idx =>
    refine ⟨_, rfl, ?_⟩
    obtain ⟨hr, n, h⟩ | ⟨hr, h⟩ := reflSelectorBody .S r fun r => do
        let idx ← checkLetter .A idx
        (pure (letterByte s.rom.refls[r][idx]) : Except ErrorReport Byte)
    · rw [h]
      obtain ⟨ha, a', h⟩ | ⟨ha, h⟩ := letterBody .A idx fun idx =>
        (pure (letterByte s.rom.refls[n][idx]) : Except ErrorReport Byte)
      · rw [h]; exact readBody_of_ok (by simp [Instr.wellFormed, hr, ha])
      · rw [h]; exact readBody_of_error (by simp [Instr.wellFormed, Nat.not_lt.2 ha]) (.inl rfl)
    · rw [h]; exact readBody_of_error (by simp [Instr.wellFormed, ← Bool.not_eq_true, hr]) (.inr rfl)

/-- What COMMIT can do (R82). -/
theorem execCommit_cases (s : State) :
    (s.Locked ∧ execCommit s = .next (s.replied (reply 0 0))) ∨
    (s.Building ∧ s.status.buildErr = true ∧ execCommit s = .next (s.replied (reply 0x14 0))) ∨
    (s.Building ∧ s.status.buildErr = false ∧ ∃ e, validate s.key = .error e ∧
      execCommit s = .next (s.replied (reply e.code.code.toNat e.data.toNat))) ∨
    (s.Building ∧ s.status.buildErr = false ∧ validate s.key = .ok () ∧
      execCommit s = .next ({ s with status := { s.status with keyValid := true } }.replied (reply 0 0))) := by
  by_cases hk : s.status.keyValid = true
  · refine .inl ⟨hk, ?_⟩
    simp only [execCommit, hk, if_true, respond_eq_replied]
    rfl
  · have hk' : s.status.keyValid = false := by simpa using hk
    by_cases hb : s.status.buildErr = true
    · refine .inr (.inl ⟨hk', hb, ?_⟩)
      simp only [execCommit, hk, hb, if_true]
      rw [raiseError_of_plain s (by decide) (by decide)]
      rfl
    · have hb' : s.status.buildErr = false := by simpa using hb
      cases hv : validate s.key with
      | error e =>
        refine .inr (.inr (.inl ⟨hk', hb', e, rfl, ?_⟩))
        have hm : e.code ≠ .faultInverseMiss := by
          obtain h | h | h | h := validate_error hv <;> rw [h] <;> decide
        simp only [execCommit, hk, hb, hv]
        rw [show raiseError (some .lifecycle) e s = raiseError (some .lifecycle) ⟨e.code, e.data⟩ s from rfl,
          raiseError_of_plain s (by decide) hm]
        rfl
      | ok u =>
        refine .inr (.inr (.inr ⟨hk', hb', rfl, ?_⟩))
        simp only [execCommit, hk, hb, hv, respond_eq_replied]
        rfl

/-- What one command can do, over all commands: only answer; write a key being built; fail a build; miss an inverse;
clear the key; unlock it; or lock a valid key. -/
theorem exec_cases (i : Instr) (s : State) :
    (∃ status data : Nat, data < 256 ∧
      status ∈ [0x00, 0x02, 0x03, 0x04, 0x05, 0x06, 0x07, 0x10, 0x11, 0x12, 0x13, 0x14] ∧
      exec i s = .next (s.replied (reply status data))) ∨
    (i.commandClass = .config ∧ s.Building ∧ ∃ key, ConfigWrites s.key key ∧
      exec i s = .next ({ s with key := key }.replied (reply 0 0))) ∨
    (i.commandClass = .config ∧ s.Building ∧ ∃ status data : Nat, data < 256 ∧
      (status = 0x02 ∨ status = 0x05 ∨ status = 0x06) ∧ exec i s = .next (s.buildFailed.replied (reply status data))) ∨
    (s.PipelineReady ∧ (i.opcode = .xlateIndex ∨ i.opcode = .xlateChar ∨ i.opcode = .stageBwd) ∧
      ∃ k : Nat, k < 256 ∧ exec i s = .next (s.faulted.replied (reply 0x20 k))) ∨
    (i = .keyClear ∧ exec i s = .next ({ s with
      key := KeyStore.reset s.maxRotors s.rom
      status := { s.status with keyValid := false, buildErr := false } }.replied (reply 0 0))) ∨
    (i = .unlock ∧ exec i s = .next ({ s with status := { s.status with keyValid := false } }.replied (reply 0 0))) ∨
    (i = .commit ∧ s.Building ∧ s.status.buildErr = false ∧ s.key.Valid ∧
      exec i s = .next ({ s with status := { s.status with keyValid := true } }.replied (reply 0 0))) := by
  cases hc : i.commandClass with
  | lifecycle =>
    cases i <;> first | (cases hc; done) | skip
    case keyClear =>
      exact .inr (.inr (.inr (.inr (.inl ⟨rfl, congrArg Host.Outcome.next (respond_eq_replied ..)⟩))))
    case unlock =>
      exact .inr (.inr (.inr (.inr (.inr (.inl ⟨rfl, congrArg Host.Outcome.next (respond_eq_replied ..)⟩)))))
    case commit =>
      obtain ⟨-, h⟩ | ⟨-, -, h⟩ | ⟨-, -, e, he, h⟩ | ⟨hk, hb, hv, h⟩ := execCommit_cases s
      · exact .inl ⟨0, 0, by decide, by decide, h⟩
      · exact .inl ⟨0x14, 0, by decide, by decide, h⟩
      · refine .inl ⟨_, _, e.data.isLt, ?_, h⟩
        obtain h | h | h | h := validate_error he <;> rw [h] <;> decide
      · exact .inr (.inr (.inr (.inr (.inr (.inr ⟨rfl, hk, hb, (validate_eq_ok_iff _).1 hv, h⟩)))))
  | config =>
    obtain ⟨body, hb, hbody⟩ := exec_config i s hc
    rw [hb]
    by_cases hk : s.status.keyValid = true
    · exact .inl ⟨0x03, 0, by decide, by decide, runConfig_of_locked body hk⟩
    · have hk : s.Building := by simpa using hk
      cases hwf : i.wellFormed s.maxRotors with
      | true =>
        obtain ⟨key, rfl⟩ := hbody.accepts hwf
        exact .inr (.inl ⟨rfl, hk, key, hbody.writes key rfl, runConfig_of_ok key hk⟩)
      | false =>
        obtain ⟨c, f, rfl, hf⟩ := hbody.refuses hwf
        refine .inr (.inr (.inl ⟨rfl, hk, _, _, (fieldNumber f).isLt, ?_, runConfig_of_error hk hf⟩))
        cases c <;> simp [isBuildFailure] at hf <;> simp [StatusCode.code]
  | pipeline =>
    obtain ⟨body, hb, hbody⟩ := exec_pipeline i s hc
    rw [hb]
    by_cases hf : s.status.fault = true
    · exact .inl ⟨0x07, 0, by decide, by decide, runPipeline_of_fault body hf⟩
    · have hf : s.status.fault = false := by simpa using hf
      by_cases hk : s.status.keyValid = true
      · have hr : s.PipelineReady := ⟨hf, hk⟩
        cases body with
        | ok data => exact .inl ⟨0, _, data.isLt, by decide, runPipeline_of_ready _ hr⟩
        | error e =>
          cases hwf : i.wellFormed s.maxRotors with
          | true =>
            obtain ⟨hm, ho⟩ := hbody.misses e hwf rfl
            refine .inr (.inr (.inr (.inl ⟨hr, ho, _, e.data.isLt, ?_⟩)))
            rw [runPipeline_of_ready _ hr]
            obtain ⟨c, d⟩ := e
            cases hm
            exact congrArg Host.Outcome.next (raiseError_of_miss _ _ _)
          | false =>
            have := hbody.refuses hwf
            cases this
            refine .inl ⟨0x05, 3, by decide, by decide, ?_⟩
            rw [runPipeline_of_ready _ hr]
            exact congrArg Host.Outcome.next (raiseError_of_plain s (by decide) (by decide))
      · have hk : s.Building := by simpa using hk
        exact .inl ⟨0x04, 0, by decide, by decide, runPipeline_of_noKey body hf hk⟩
  | readBack =>
    obtain ⟨body, hb, hbody⟩ := exec_readBack i s hc
    rw [hb]
    cases hwf : i.wellFormed s.maxRotors with
    | true =>
      obtain ⟨data, rfl⟩ := hbody.accepts hwf
      exact .inl ⟨0, _, data.isLt, by decide, runRead_of_ok data s⟩
    | false =>
      obtain ⟨c, f, rfl, hcode⟩ := hbody.refuses hwf
      refine .inl ⟨_, _, (fieldNumber f).isLt, ?_, runRead_of_error s ?_⟩
      · obtain rfl | rfl := hcode <;> decide
      · obtain rfl | rfl := hcode <;> decide

/-- What one word can do: answer ERR_ILLEGAL, answer ERR_RESERVED, or run its command. -/
theorem executeWord_cases (w : Word) (s : State) :
    (UnassignedOp (opField w).toNat ∧ executeWord w s = .next (s.replied (reply 0x01 (opField w).toNat))) ∨
    (∃ (op : Opcode) (f : Field), opField w = op.byte ∧ reservedField op.form w = some f ∧
      executeWord w s = .next (s.refusedReserved op.commandClass (fieldNumber f).toNat)) ∨
    (∃ i : Instr, decode w = .command i ∧ opField w = i.opcode.byte ∧ executeWord w s = exec i s) := by
  obtain ⟨hu, hd⟩ | ⟨op, f, ho, hr, hd⟩ | ⟨op, ho, hr, hd⟩ := decode_cases w
  · refine .inl ⟨hu, ?_⟩
    simp only [executeWord, hd]
    rw [raiseError_of_plain s (by decide) (by decide)]
    rfl
  · refine .inr (.inl ⟨op, f, ho, hr, ?_⟩)
    simp only [executeWord, hd, State.refusedReserved]
    split
    · rename_i h
      rw [h.1, raiseError_of_buildFailure h.2 rfl]
      rfl
    · rename_i h
      by_cases hk : s.status.keyValid = true
      · rw [raiseError_of_locked hk (by decide)]
        rfl
      · have hc : op.commandClass ≠ .config := fun hc => h ⟨hc, by simpa using hk⟩
        rw [raiseError_of_plain s (by simpa using hc) (by decide)]
        rfl
  · exact .inr (.inr ⟨_, hd, by rw [opcode_command]; exact ho, by simp only [executeWord, hd]⟩)

/-- A word of an assigned opcode with a reserved field set is refused with that field's number. -/
theorem executeWord_of_reserved {w : Word} {op : Opcode} {f : Field} (s : State) (ho : opField w = op.byte)
    (hr : reservedField op.form w = some f) :
    executeWord w s = .next (s.refusedReserved op.commandClass (fieldNumber f).toNat) := by
  have hd : decode w = .reserved op f := by simp [decode_of_opcode ho, hr]
  obtain ⟨hu, -⟩ | ⟨op', f', ho', hr', h⟩ | ⟨i, hi, -, -⟩ := executeWord_cases w s
  · rw [ho, ← opcodeOf_eq_none_iff, opcodeOf_byte] at hu
    cases hu
  · have hop : op = op' := by simpa using congrArg opcodeOf (ho.symm.trans ho')
    subst hop
    rw [hr] at hr'
    cases hr'
    exact h
  · rw [hd] at hi
    cases hi

end Sys2Proof.Machine
end

