-- ==== Sys2Proof/Laws/PerInstr.lean ====
section
/-! SUPPORT. Per-instruction lemmas: the word of every command has its row's OP, and 0 in every field its form does not
use (R49, R52). -/

namespace Sys2Proof.Laws.TableRow

/-- The word of the command has the OP byte of its opcode, and each field its form does not use is 0. -/
def Statement (i : Instr) : Prop :=
  opField (encode i) = i.opcode.byte ∧ ∀ f : Field, i.opcode.form.uses f = false → fieldOf (encode i) f = 0#8

/-- The statement of any command, from the operands of the encoder. -/
theorem of_operands (i : Instr) : Statement i := by
  refine ⟨opField_wordOf .., fun f hf => ?_⟩
  obtain ⟨hs, ha, hb⟩ := operands_of_unused i
  cases f with
  | S => exact (sField_wordOf ..).trans (hs hf)
  | A => exact (aField_wordOf ..).trans (ha hf)
  | B => exact (bField_wordOf ..).trans (hb hf)

theorem nop : Statement .nop := of_operands _
theorem keyClear : Statement .keyClear := of_operands _
theorem unlock : Statement .unlock := of_operands _
theorem commit : Statement .commit := of_operands _
theorem setRotorCount (n : Byte) : Statement (.setRotorCount n) := of_operands _
theorem loadRotorStd (k t : Byte) : Statement (.loadRotorStd k t) := of_operands _
theorem loadRotorShift (k sh : Byte) : Statement (.loadRotorShift k sh) := of_operands _
theorem writeWiring (k idx v : Byte) : Statement (.writeWiring k idx v) := of_operands _
theorem setNotch (k v : Byte) : Statement (.setNotch k v) := of_operands _
theorem setPosition (k v : Byte) : Statement (.setPosition k v) := of_operands _
theorem setRing (k v : Byte) : Statement (.setRing k v) := of_operands _
theorem setRingSeed (k v : Byte) : Statement (.setRingSeed k v) := of_operands _
theorem loadReflStd (r : Byte) : Statement (.loadReflStd r) := of_operands _
theorem writeRefl (idx v : Byte) : Statement (.writeRefl idx v) := of_operands _
theorem plugClear : Statement .plugClear := of_operands _
theorem plugSwap (a b : Byte) : Statement (.plugSwap a b) := of_operands _
theorem writePlug (idx v : Byte) : Statement (.writePlug idx v) := of_operands _
theorem setPolicy (f : Byte) : Statement (.setPolicy f) := of_operands _
theorem xlateIndex (v : Byte) : Statement (.xlateIndex v) := of_operands _
theorem xlateChar (c : Byte) : Statement (.xlateChar c) := of_operands _
theorem stagePlug (v : Byte) : Statement (.stagePlug v) := of_operands _
theorem stageFwd (v : Byte) : Statement (.stageFwd v) := of_operands _
theorem stageRefl (v : Byte) : Statement (.stageRefl v) := of_operands _
theorem stageBwd (v : Byte) : Statement (.stageBwd v) := of_operands _
theorem readWiring (k idx : Byte) : Statement (.readWiring k idx) := of_operands _
theorem readNotch (k : Byte) : Statement (.readNotch k) := of_operands _
theorem readPosition (k : Byte) : Statement (.readPosition k) := of_operands _
theorem readRing (k : Byte) : Statement (.readRing k) := of_operands _
theorem readRefl (idx : Byte) : Statement (.readRefl idx) := of_operands _
theorem readPlug (idx : Byte) : Statement (.readPlug idx) := of_operands _
theorem readRotorCount : Statement .readRotorCount := of_operands _
theorem readPolicy : Statement .readPolicy := of_operands _
theorem readStatus : Statement .readStatus := of_operands _
theorem readMaxRotors : Statement .readMaxRotors := of_operands _
theorem readRomWiring (t idx : Byte) : Statement (.readRomWiring t idx) := of_operands _
theorem readRomNotch (t : Byte) : Statement (.readRomNotch t) := of_operands _
theorem readRomRefl (r idx : Byte) : Statement (.readRomRefl r idx) := of_operands _

end Sys2Proof.Laws.TableRow
end

