-- ==== Sys2Proof/Laws/Run.lean ====
section
/-! SUPPORT. A run, one step at a time: what a step takes from the queue of host moves, and how a run unfolds. -/

namespace Sys2Proof.Machine

/-! ### One step -/

theorem step_of_empty {s : State} (h : s.pending = []) : step s = .next s := by
  simp only [step, takeNext, h]

theorem step_of_cons {s : State} {m : HostMove} {rest : List HostMove} (h : s.pending = m :: rest) :
    step s = takeMove m { s with pending := rest } := by
  simp only [step, takeNext, h]

/-! ### A run of the core -/

theorem run_zero (s : State) : Host.Core.run Sys2Proof.core 0 s = .next s := rfl

theorem run_succ {s t : State} (n : Nat) (h : step s = .next t) :
    Host.Core.run Sys2Proof.core (n + 1) s = Host.Core.run Sys2Proof.core n t := by
  have h' : Sys2Proof.core.step s = .next t := h
  simp only [Host.Core.run, h']

/-- A run whose next word is a command that answers a next state. -/
theorem run_of_command {s t : State} {w : Word} {i : Instr} {rest : List HostMove} (n : Nat)
    (hp : s.pending = .send w :: rest) (hd : decode w = .command i)
    (ht : exec i { s with pending := rest } = .next t) :
    Host.Core.run Sys2Proof.core (n + 1) s = Host.Core.run Sys2Proof.core n t := by
  refine run_succ n ?_
  simp only [step_of_cons hp, takeMove, executeWord, hd, ht]

/-- Every step answers a next state, since every word has one outcome. -/
theorem step_next (s : State) : ∃ t, step s = .next t := by
  cases hp : s.pending with
  | nil => exact ⟨s, step_of_empty hp⟩
  | cons m rest =>
    rw [step_of_cons hp]
    cases m with
    | reset cutOff => exact ⟨_, rfl⟩
    | send w =>
      simp only [takeMove]
      obtain ⟨-, h⟩ | ⟨_, _, -, -, h⟩ | ⟨i, -, -, h⟩ := executeWord_cases w { s with pending := rest }
      · exact ⟨_, h⟩
      · exact ⟨_, h⟩
      · rw [h]
        obtain ⟨_, _, -, -, h⟩ | ⟨-, -, _, -, h⟩ | ⟨-, -, _, _, -, -, h⟩ | ⟨-, -, _, -, h⟩ | ⟨-, h⟩ | ⟨-, h⟩ |
          ⟨-, -, -, -, h⟩ := exec_cases i { s with pending := rest } <;> exact ⟨_, h⟩

end Sys2Proof.Machine
end

