-- ==== Sys2Proof/Machine/Assembler.lean ====
section
/-! DEFINITION. The assembler text of the command interface (R58) and of the pseudo-instructions (R59), read into the
commands a host sends. The toolchain is outside the block (R58): nothing of the machine depends on this file. Text is a
list of characters; what R58 leaves open in it is in log 15. -/

namespace Sys2Proof.Machine

/-- An operand as it is written (R58, R59). -/
inductive TextOperand where
  /-- a decimal or 0x hexadecimal number -/
  | number (n : Nat)
  /-- `@L` -/
  | letter (v : Letter)
  /-- a quoted character -/
  | byte (c : Byte)
  /-- a quoted text -/
  | text (cs : List Char)
deriving DecidableEq, Repr

/-- The mnemonics (R52). -/
def opcodeMnemonic : Opcode → String
  | .nop => "NOP"
  | .keyClear => "KEY_CLEAR"
  | .unlock => "UNLOCK"
  | .commit => "COMMIT"
  | .setRotorCount => "SET_ROTOR_COUNT"
  | .loadRotorStd => "LOAD_ROTOR_STD"
  | .loadRotorShift => "LOAD_ROTOR_SHIFT"
  | .writeWiring => "WRITE_WIRING"
  | .setNotch => "SET_NOTCH"
  | .setPosition => "SET_POSITION"
  | .setRing => "SET_RING"
  | .setRingSeed => "SET_RING_SEED"
  | .loadReflStd => "LOAD_REFL_STD"
  | .writeRefl => "WRITE_REFL"
  | .plugClear => "PLUG_CLEAR"
  | .plugSwap => "PLUG_SWAP"
  | .writePlug => "WRITE_PLUG"
  | .setPolicy => "SET_POLICY"
  | .xlateIndex => "XLATE_INDEX"
  | .xlateChar => "XLATE_CHAR"
  | .stagePlug => "STAGE_PLUG"
  | .stageFwd => "STAGE_FWD"
  | .stageRefl => "STAGE_REFL"
  | .stageBwd => "STAGE_BWD"
  | .readWiring => "READ_WIRING"
  | .readNotch => "READ_NOTCH"
  | .readPosition => "READ_POSITION"
  | .readRing => "READ_RING"
  | .readRefl => "READ_REFL"
  | .readPlug => "READ_PLUG"
  | .readRotorCount => "READ_ROTOR_COUNT"
  | .readPolicy => "READ_POLICY"
  | .readStatus => "READ_STATUS"
  | .readMaxRotors => "READ_MAX_ROTORS"
  | .readRomWiring => "READ_ROM_WIRING"
  | .readRomNotch => "READ_ROM_NOTCH"
  | .readRomRefl => "READ_ROM_REFL"

/-- The fields an operand form uses, in the order their operands are written (R49, R58). -/
def formFields (form : Form) : List Field := [Field.S, Field.A, Field.B].filter form.uses

/-- idx(L) of a capital letter (R14). -/
def capitalIndex (c : Char) : Option Letter :=
  if h : 0x41 ≤ c.toNat ∧ c.toNat ≤ 0x5A then some ⟨c.toNat - 0x41, by omega⟩ else none

/-- idx(c) of an ASCII letter of either case (R14). -/
def letterIndex (c : Char) : Option Letter :=
  if h : 0x61 ≤ c.toNat ∧ c.toNat ≤ 0x7A then some ⟨c.toNat - 0x61, by omega⟩ else capitalIndex c

/-- The byte of an ASCII character. -/
def asciiByte (c : Char) : Option Byte := if c.toNat < 0x80 then some (BitVec.ofNat 8 c.toNat) else none

/-- The value of a decimal or hexadecimal digit. -/
def digitValue (base : Nat) (c : Char) : Option Nat :=
  let v :=
    if '0' ≤ c ∧ c ≤ '9' then some (c.toNat - 0x30)
    else if 'A' ≤ c ∧ c ≤ 'F' then some (c.toNat - 0x41 + 10)
    else if 'a' ≤ c ∧ c ≤ 'f' then some (c.toNat - 0x61 + 10)
    else none
  v.filter (· < base)

/-- The rest of a number whose digits so far are worth `n`. -/
def readDigits (base n : Nat) : List Char → Nat × List Char
  | [] => (n, [])
  | c :: cs =>
    match digitValue base c with
    | some d => readDigits base (n * base + d) cs
    | none => (n, c :: cs)

/-- A number: at least one digit. -/
def readNumber (base : Nat) : List Char → Option (Nat × List Char)
  | [] => none
  | c :: cs => (digitValue base c).map fun d => readDigits base d cs

/-- Text without its leading spaces. -/
def skipSpaces (cs : List Char) : List Char := cs.dropWhile fun c => c == ' ' || c == '\t'

/-- Nothing more stands on the line: its end, or a comment (R58). -/
def atLineEnd (cs : List Char) : Bool := cs.isEmpty || cs.head? == some ';'

/-- One operand and what follows it (R58, R59). -/
def readOperand : List Char → Option (TextOperand × List Char)
  | '@' :: c :: rest => (capitalIndex c).map fun v => (.letter v, rest)
  | '\'' :: c :: '\'' :: rest => (asciiByte c).map fun b => (.byte b, rest)
  | '"' :: rest =>
    match rest.dropWhile (· != '"') with
    | _ :: after => some (.text (rest.takeWhile (· != '"')), after)
    | [] => none
  | '0' :: 'x' :: rest => (readNumber 16 rest).map fun p => (.number p.1, p.2)
  | cs => (readNumber 10 cs).map fun p => (.number p.1, p.2)

/-- The operands of a line, separated by commas; `fuel` bounds their number. -/
def readOperands : Nat → List Char → Option (List TextOperand)
  | 0, _ => none
  | fuel + 1, cs => do
    let (x, rest) ← readOperand (skipSpaces cs)
    match skipSpaces rest with
    | ',' :: more => (x :: ·) <$> readOperands fuel more
    | after => if atLineEnd after then some [x] else none

/-- The 8-bit field a number or `@L` gives (R50, R58). DESIGN CHOICE: `@L` is taken wherever a number is, also among the
operands of a pseudo-instruction, because R58 does not list the index operands and R59 says nothing of `@L` (log 15). -/
def numberField : TextOperand → Option Byte
  | .number n => if n < 256 then some (BitVec.ofNat 8 n) else none
  | .letter v => some (letterByte v)
  | .byte _ | .text _ => none

/-- The 8-bit field an operand of a command gives: a quoted character is the byte operand of XLATE_CHAR alone (R58). -/
def operandField (op : Opcode) : TextOperand → Option Byte
  | .byte c => if op = .xlateChar then some c else none
  | operand => numberField operand

/-- The command of an opcode and its written operands: one for each field of its form. -/
def assembleCommand (op : Opcode) (operands : List TextOperand) : Option Instr := do
  let values ← operands.mapM (operandField op)
  if values.length = (formFields op.form).length then
    let field (f : Field) : Byte := (((formFields op.form).zip values).lookup f).getD 0#8
    match decode (op.byte ++ field .S ++ field .A ++ field .B) with
    | .command i => some i
    | _ => none
  else none

/-- The letters of a quoted text, spaces left out (R59). DESIGN CHOICE: a letter may be of either case; R59 says 'letters'
and idx(Li) only, and R14 defines idx for both cases (log 15). -/
def readLetters (cs : List Char) : Option (List Letter) := (cs.filter (· != ' ')).mapM letterIndex

/-- A table written as 26 letters (R59). -/
def readTable (cs : List Char) : Option Table := do
  let vs ← readLetters cs
  if h : vs.length = 26 then some ⟨vs.toArray, by simpa using h⟩ else none

/-- Pairs of letters, spaces between them (R59). -/
def readPairs : List Letter → Option (List (Letter × Letter))
  | [] => some []
  | [_] => none
  | a :: b :: rest => ((a, b) :: ·) <$> readPairs rest

/-- The pseudo-instruction a mnemonic and its written operands stand for (R59). -/
def readPseudo (name : String) (operands : List TextOperand) : Option Pseudo :=
  if name = "LOAD_WIRING" then
    match operands with
    | [k, .text cs] => do some (.loadWiring (← numberField k) (← readTable cs))
    | _ => none
  else if name = "LOAD_REFL" then
    match operands with
    | [.text cs] => .loadRefl <$> readTable cs
    | _ => none
  else if name = "PLUG_PAIRS" then
    match operands with
    | [.text cs] => do some (.plugPairs (← readPairs (← readLetters cs)))
    | _ => none
  else if name = "ROTORS" then
    if operands.length < 256 then .rotors <$> operands.mapM numberField else none
  else if name = "RINGS" then
    if operands.length < 257 then .rings <$> operands.mapM numberField else none
  else if name = "XLATE_STR" then
    match operands with
    | [.text cs] => .xlateStr <$> cs.mapM asciiByte
    | _ => none
  else none

/-- The commands one line of assembler text stands for: none of them on an empty line or a comment (R58, R59). -/
def assembleLine (line : List Char) : Option (List Instr) :=
  let cs := skipSpaces line
  if atLineEnd cs then some []
  else
    let isNameChar (c : Char) : Bool := c.isAlphanum || c == '_'
    let name := String.ofList (cs.takeWhile isNameChar)
    let rest := skipSpaces (cs.dropWhile isNameChar)
    let operands := if atLineEnd rest then some [] else readOperands (rest.length + 1) rest
    match operands, Opcode.all.find? (fun op => opcodeMnemonic op == name) with
    | none, _ => none
    | some xs, some op => (fun i => [i]) <$> assembleCommand op xs
    | some xs, none => Pseudo.expand <$> readPseudo name xs

/-- The commands of a program text, line by line, in order. -/
def assemble (lines : List (List Char)) : Option (List Instr) := List.flatten <$> lines.mapM assembleLine

end Sys2Proof.Machine
end

