-- ==== Sys2Proof/Tests/Slice0.lean ====
section
/-! SUPPORT. Small tests. Expected values come from spec/95_test_vectors.md (the vector is named) or from spec/30_encoding.md;
none is the model's own answer. The witnesses at the end show, for each statement with hypotheses, values that meet
them, at the ends of their ranges. -/

namespace Sys2Proof.Tests

open Sys2Proof.Machine

/-! ### States and helpers -/

/-- The reset state, locked: `S0 + COMMIT`. -/
def locked : State := { State.reset with status := { keyValid := true, fault := false, buildErr := false } }

/-- A locked state with a key store. -/
def lockedKey (key : KeyStore) : State := { locked with key := key }

/-- The reset key store with slot 0 replaced and one active rotor. -/
def oneRotor (slot : RotorSlot) : KeyStore :=
  { State.reset.key with rotorCount := 1#8, slots := State.reset.key.slots.set 0 slot }

/-- The key K1 of 95_test_vectors.md, section 0. -/
def k1 : KeyStore :=
  { oneRotor { wiring := StdRom.historical.rotors[0].wiring, notch := 0, pos := 1, ring := 3 } with
    refl := Vector.ofFn fun i => i + 13 }

/-- The key K2 of 95_test_vectors.md, section 0. -/
def k2 : KeyStore := oneRotor { wiring := StdRom.historical.rotors[0].wiring, notch := 16, pos := 0, ring := 0 }

/-- The key K3 of 95_test_vectors.md, section 0. -/
def k3 : KeyStore :=
  { State.reset.key with
    rotorCount := 3#8
    slots := ((State.reset.key.slots.set 0
      { wiring := StdRom.historical.rotors[0].wiring, notch := 16, pos := 0, ring := 1 }).set 1
      { wiring := StdRom.historical.rotors[1].wiring, notch := 4, pos := 4, ring := 2 }).set 2
      { wiring := StdRom.historical.rotors[2].wiring, notch := 21, pos := 11, ring := 3 }
    plug := ((((((identityTable.set 0 1).set 1 0).set 2 3).set 3 2).set 4 5).set 5 4) }

/-- A wiring that is constant. -/
def constantSlot (v : Letter) : RotorSlot := { RotorSlot.reset with wiring := Vector.ofFn fun _ => v }

/-- The start state X0 of 95_test_vectors.md, section 2.6: locked with a wiring that is constant 0. -/
def x0 : State := lockedKey (oneRotor (constantSlot 0))

/-- The reset state with FAULT set. -/
def faultedReset : State := State.reset.faulted

/-- The reset state with BUILD_ERR set. -/
def failedReset : State := State.reset.buildFailed

/-- The state after a word. -/
def after (s : State) (w : Word) : State :=
  match executeWord w s with
  | .next t => t
  | .fault _ => s
  | .refused _ => s

/-- The responses after a list of words, from a state that has given none. -/
def answers (s : State) (ws : List Word) : List Word := (ws.foldl after s).responses

/-! ### Well-formedness: an ill-formed term for each check, beside the last well-formed one -/

theorem test_wf_slot : (Instr.setNotch 8#8 0#8).wellFormed 8 = false ∧ (Instr.setNotch 7#8 0#8).wellFormed 8 = true := by
  decide
theorem test_wf_letter_b : (Instr.setNotch 0#8 26#8).wellFormed 8 = false ∧ (Instr.setNotch 0#8 25#8).wellFormed 8 = true := by
  decide
theorem test_wf_letter_a : (Instr.readRefl 26#8).wellFormed 8 = false ∧ (Instr.readRefl 25#8).wellFormed 8 = true := by
  decide
theorem test_wf_count : (Instr.setRotorCount 9#8).wellFormed 8 = false ∧ (Instr.setRotorCount 8#8).wellFormed 8 = true := by
  decide
theorem test_wf_rotor_type : (Instr.readRomNotch 0#8).wellFormed 8 = false ∧ (Instr.readRomNotch 9#8).wellFormed 8 = false ∧
    (Instr.readRomNotch 1#8).wellFormed 8 = true ∧ (Instr.readRomNotch 8#8).wellFormed 8 = true := by decide
theorem test_wf_refl_selector : (Instr.loadReflStd 2#8).wellFormed 8 = false ∧ (Instr.loadReflStd 1#8).wellFormed 8 = true := by
  decide
theorem test_wf_policy : (Instr.setPolicy 4#8).wellFormed 8 = false ∧ (Instr.setPolicy 3#8).wellFormed 8 = true := by decide

/-! ### Decoding: a word for every constructor, its four bytes OP S A B written out from R48, R49 and R52 -/

theorem test_decode_lifecycle :
    decode 0b00000000000000000000000000000000#32 = .command .nop ∧
    decode 0b00000001000000000000000000000000#32 = .command .keyClear ∧
    decode 0b00000010000000000000000000000000#32 = .command .unlock ∧
    decode 0b00000011000000000000000000000000#32 = .command .commit := by decide
theorem test_decode_rotor_config :
    decode 0b00010000000000000000000000000011#32 = .command (.setRotorCount 3#8) ∧
    decode 0b00010001000001110000000000001000#32 = .command (.loadRotorStd 7#8 8#8) ∧
    decode 0b00010010000000010000000000000011#32 = .command (.loadRotorShift 1#8 3#8) ∧
    decode 0b00010011000000100000011100010000#32 = .command (.writeWiring 2#8 7#8 16#8) ∧
    decode 0b00010100000000010000000000010000#32 = .command (.setNotch 1#8 16#8) ∧
    decode 0b00010101000000100000000000000001#32 = .command (.setPosition 2#8 1#8) ∧
    decode 0b00010110000000110000000000000011#32 = .command (.setRing 3#8 3#8) ∧
    decode 0b00010111000001000000000000000101#32 = .command (.setRingSeed 4#8 5#8) := by decide
theorem test_decode_table_config :
    decode 0b00100000000000000000000000000001#32 = .command (.loadReflStd 1#8) ∧
    decode 0b00100001000000000000000000001101#32 = .command (.writeRefl 0#8 13#8) ∧
    decode 0b00110000000000000000000000000000#32 = .command .plugClear ∧
    decode 0b00110001000000000000010000000101#32 = .command (.plugSwap 4#8 5#8) ∧
    decode 0b00110010000000000000010100000100#32 = .command (.writePlug 5#8 4#8) ∧
    decode 0b01000000000000000000000000000011#32 = .command (.setPolicy 3#8) := by decide
theorem test_decode_pipeline :
    decode 0b01010000000000000000000000010101#32 = .command (.xlateIndex 21#8) ∧
    decode 0b01010001000000000000000001100001#32 = .command (.xlateChar 0x61#8) ∧
    decode 0b01010010000000000000000000000011#32 = .command (.stagePlug 3#8) ∧
    decode 0b01010011000000000000000011111111#32 = .command (.stageFwd 255#8) ∧
    decode 0b01010100000000000000000000000100#32 = .command (.stageRefl 4#8) ∧
    decode 0b01010101000000000000000000010001#32 = .command (.stageBwd 17#8) := by decide
theorem test_decode_read_key :
    decode 0b01100000000010000001101000000000#32 = .command (.readWiring 8#8 26#8) ∧
    decode 0b01100001000001100000000000000000#32 = .command (.readNotch 6#8) ∧
    decode 0b01100010000001010000000000000000#32 = .command (.readPosition 5#8) ∧
    decode 0b01100011000001000000000000000000#32 = .command (.readRing 4#8) ∧
    decode 0b01100100000000000000011000000000#32 = .command (.readRefl 6#8) ∧
    decode 0b01100101000000001100100000000000#32 = .command (.readPlug 200#8) := by decide
theorem test_decode_read_scalar_and_rom :
    decode 0b01100110000000000000000000000000#32 = .command .readRotorCount ∧
    decode 0b01100111000000000000000000000000#32 = .command .readPolicy ∧
    decode 0b01101000000000000000000000000000#32 = .command .readStatus ∧
    decode 0b01101001000000000000000000000000#32 = .command .readMaxRotors ∧
    decode 0b01101010000000010001100100000000#32 = .command (.readRomWiring 1#8 25#8) ∧
    decode 0b01101011000000110000000000000000#32 = .command (.readRomNotch 3#8) ∧
    decode 0b01101100000000010001100000000000#32 = .command (.readRomRefl 1#8 24#8) := by decide

/-- E3, E4, E5: unassigned opcodes. -/
theorem test_decode_illegal :
    decode 0x04000000#32 = .illegal 0x04#8 ∧ decode 0x6D000000#32 = .illegal 0x6D#8 ∧
    decode 0xFF123456#32 = .illegal 0xFF#8 := by decide
/-- E2, E6, E7 and G36: the first nonzero reserved field. -/
theorem test_decode_reserved :
    decode 0x00000001#32 = .reserved .nop .B ∧ decode 0x01010000#32 = .reserved .keyClear .S ∧
    decode 0x03000100#32 = .reserved .commit .A ∧ decode 0x11090100#32 = .reserved .loadRotorStd .A := by decide
/-- E11 to E15: the words of commands. -/
theorem test_encode :
    encode (.writeWiring 2#8 7#8 16#8) = 0x13020710#32 ∧ encode (.xlateChar 0x61#8) = 0x51000061#32 ∧
    encode (.loadRotorShift 1#8 3#8) = 0x12010003#32 ∧ encode (.plugSwap 4#8 5#8) = 0x31000405#32 ∧
    encode (.readRomWiring 1#8 25#8) = 0x6A011900#32 := by decide
/-- The numbering of opcode_table.json: bit 0 is the least significant bit of the word. -/
theorem test_table_word :
    decodeTableWord 32 0x13020710 = some (.writeWiring 2#8 7#8 16#8) ∧ decodeTableWord 32 0x04000000 = none := by decide

/-! ### Lifecycle -/

/-- E1 and B25. -/
theorem test_nop : answers State.reset [0x00000000#32] = [0x00000000#32] := by decide
/-- V18: FAULT survives KEY_CLEAR. -/
theorem test_key_clear_keeps_fault : answers faultedReset [0x01000000#32, 0x68000000#32] = [0#32, 0x00000002#32] := by decide
/-- V8: KEY_CLEAR clears BUILD_ERR. -/
theorem test_key_clear_build_err :
    answers failedReset [0x01000000#32, 0x68000000#32, 0x03000000#32] = [0#32, 0#32, 0#32] := by decide
/-- V4. -/
theorem test_unlock : (after locked 0x02000000#32).status.keyValid = false ∧ (after locked 0x02000000#32).key = locked.key := by
  decide
/-- V7: UNLOCK keeps BUILD_ERR. -/
theorem test_unlock_keeps_build_err : answers failedReset [0x02000000#32, 0x03000000#32] = [0#32, 0x00001400#32] := by decide
/-- V1 and V3. -/
theorem test_commit : answers State.reset [0x03000000#32, 0x68000000#32] = [0#32, 0x00000001#32] := by decide
/-- V16: the plugboard check names the smallest letter. -/
theorem test_commit_plugboard : answers State.reset [0x32000405#32, 0x03000000#32] = [0#32, 0x00001304#32] := by decide

/-! ### Configuration -/

/-- G3. -/
theorem test_set_rotor_count : (after State.reset 0x10000008#32).key.rotorCount = 8#8 := by decide
/-- V5. -/
theorem test_set_rotor_count_range :
    answers State.reset [0x10000009#32, 0x68000000#32] = [0x00000503#32, 0x00000004#32] := by decide
/-- G8. -/
theorem test_load_rotor_std : answers State.reset [0x11070008#32, 0x60070000#32, 0x61070000#32] =
    [0#32, 0x00000005#32, 0x00000019#32] := by decide
/-- G7: the slot before the selector. -/
theorem test_load_rotor_std_order : answers State.reset [0x11080009#32] = [0x00000501#32] := by decide
/-- G9. -/
theorem test_load_rotor_shift : answers State.reset [0x12010003#32, 0x60010000#32, 0x60011900#32] =
    [0#32, 0x00000003#32, 0x00000002#32] := by decide
/-- G11. -/
theorem test_load_rotor_shift_range : answers State.reset [0x1201001A#32] = [0x00000503#32] := by decide
/-- G12. -/
theorem test_write_wiring : answers State.reset [0x13020710#32, 0x60020700#32] = [0#32, 0x00000010#32] := by decide
/-- G13 and G15: field A before field B, field S before both. -/
theorem test_write_wiring_order : answers State.reset [0x13021A00#32, 0x13FF1A1A#32] =
    [0x00000502#32, 0x00000501#32] := by decide
/-- G16. -/
theorem test_set_notch : answers State.reset [0x14000010#32, 0x61000000#32] = [0#32, 0x00000010#32] := by decide
/-- G17. -/
theorem test_set_position : answers State.reset [0x15000001#32, 0x62000000#32, 0x63000000#32] =
    [0#32, 0x00000001#32, 0#32] := by decide
/-- G18. -/
theorem test_set_ring : answers State.reset [0x16000003#32, 0x62000000#32, 0x63000000#32] =
    [0#32, 0#32, 0x00000003#32] := by decide
/-- G19. -/
theorem test_set_ring_seed : answers State.reset [0x17000005#32, 0x62000000#32, 0x63000000#32] =
    [0#32, 0x00000005#32, 0x00000005#32] := by decide
/-- G21. -/
theorem test_load_refl_std : answers State.reset [0x20000001#32, 0x64000000#32] = [0#32, 0x00000005#32] := by decide
/-- G22. -/
theorem test_load_refl_std_selector : answers State.reset [0x20000002#32] = [0x00000603#32] := by decide
/-- G23. -/
theorem test_write_refl : answers State.reset [0x2100000D#32, 0x64000000#32] = [0#32, 0x0000000D#32] := by decide
/-- G28. -/
theorem test_plug_clear : answers State.reset [0x31000001#32, 0x30000000#32, 0x65000000#32] = [0#32, 0#32, 0#32] := by decide
/-- G25: an overlapping pair is not undone. -/
theorem test_plug_swap : answers State.reset [0x31000001#32, 0x31000102#32, 0x65000000#32, 0x65000100#32] =
    [0#32, 0#32, 0x00000001#32, 0x00000002#32] := by decide
/-- G27. -/
theorem test_plug_swap_range : answers State.reset [0x3100001A#32] = [0x00000503#32] := by decide
/-- G29: no partner write. -/
theorem test_write_plug : answers State.reset [0x32000405#32, 0x65000400#32, 0x65000500#32] =
    [0#32, 0x00000005#32, 0x00000005#32] := by decide
/-- G31 and G32. -/
theorem test_set_policy : answers State.reset [0x40000003#32, 0x40000004#32, 0x67000000#32] =
    [0#32, 0x00000203#32, 0x00000003#32] := by decide
/-- G33: a decoding error of a configuration command while unlocked sets BUILD_ERR. -/
theorem test_set_policy_reserved : (after State.reset 0x40010001#32).status.buildErr = true := by decide
/-- G34 to G37: a locked key, with BUILD_ERR left 0. -/
theorem test_locked : answers locked [0x10000001#32, 0x11090000#32, 0x11090100#32, 0x40000004#32, 0x68000000#32] =
    [0x00000300#32, 0x00000300#32, 0x00000202#32, 0x00000300#32, 0x00000001#32] := by decide

/-! ### Pipeline -/

/-- P-1 and P-2. -/
theorem test_xlate_index : answers (lockedKey k1) [0x50000000#32, 0x50000015#32] = [0x00000015#32, 0#32] := by decide
/-- X-P4 and X-P7: no key before range, the fault before no key. -/
theorem test_xlate_index_order : answers State.reset [0x5000001E#32] = [0x00000400#32] ∧
    answers faultedReset [0x50000000#32] = [0x00000700#32] := by decide
/-- P-26: three rotors and the plugboard. -/
theorem test_xlate_char : answers (lockedKey k3) [0x51000048#32] = [0x0000004D#32] := by decide
/-- P-30 and P-31: the space policy. -/
theorem test_xlate_char_space : answers (lockedKey { k2 with policy := 1#8 }) [0x51000020#32, 0x51000078#32] =
    [0x00000057#32, 0x00000077#32] := by decide
/-- P-27. -/
theorem test_stage_plug : answers (lockedKey k3) [0x52000000#32] = [0x00000001#32] := by decide
/-- P-9 and P-13. -/
theorem test_stage_fwd : answers (lockedKey k1) [0x53000000#32, 0x530000FF#32] = [0x00000004#32, 0x00000503#32] := by decide
/-- P-10. -/
theorem test_stage_refl : answers (lockedKey k1) [0x54000004#32] = [0x00000011#32] := by decide
/-- P-11. -/
theorem test_stage_bwd : answers (lockedKey k1) [0x55000011#32] = [0x00000015#32] := by decide
/-- X1-b to X1-e: the smallest index, then the miss and the fault. -/
theorem test_stage_bwd_miss : answers x0 [0x55000000#32, 0x55000005#32, 0x68000000#32, 0x50000000#32] =
    [0#32, 0x00002000#32, 0x00000003#32, 0x00000700#32] := by decide
/-- The slot order of the miss, section 2.6: slot 1 is met before slot 0. -/
theorem test_xlate_index_miss_slot :
    answers (lockedKey { oneRotor (constantSlot 0) with
      rotorCount := 2#8, slots := (oneRotor (constantSlot 0)).slots.set 1 (constantSlot 1) }) [0x50000003#32] =
    [0x00002001#32] := by decide

/-! ### Read-back -/

/-- B3 and B4. -/
theorem test_read_wiring : answers State.reset [0x60001A00#32, 0x60081A00#32] = [0x00000502#32, 0x00000501#32] := by decide
/-- B5. -/
theorem test_read_notch : answers State.reset [0x61080000#32] = [0x00000501#32] := by decide
/-- K1's POS and RING, and an inactive slot. -/
theorem test_read_position_ring : answers (lockedKey k1) [0x62000000#32, 0x63000000#32, 0x62070000#32] =
    [0x00000001#32, 0x00000003#32, 0#32] := by decide
/-- B6 and B7. -/
theorem test_read_refl : answers State.reset [0x64000000#32, 0x64001A00#32] = [0x00000018#32, 0x00000502#32] := by decide
/-- B8 and B9. -/
theorem test_read_plug : answers State.reset [0x65000500#32, 0x6500C800#32] = [0x00000005#32, 0x00000502#32] := by decide
/-- B10, B11, B12 and B13. -/
theorem test_read_scalars : answers State.reset [0x66000000#32, 0x67000000#32, 0x68000000#32, 0x69000000#32] =
    [0#32, 0#32, 0#32, 0x00000008#32] := by decide
/-- B14 to B17. -/
theorem test_read_rom_wiring : answers State.reset [0x6A011900#32, 0x6A000000#32, 0x6A091E00#32, 0x6A011A00#32] =
    [0x00000009#32, 0x00000601#32, 0x00000601#32, 0x00000502#32] := by decide
/-- B18, B19 and B20. -/
theorem test_read_rom_notch : answers State.reset [0x6B030000#32, 0x6B000000#32, 0x6B090000#32] =
    [0x00000015#32, 0x00000601#32, 0x00000601#32] := by decide
/-- B21 to B24. -/
theorem test_read_rom_refl : answers State.reset [0x6C010000#32, 0x6C001900#32, 0x6C020000#32, 0x6C001A00#32] =
    [0x00000005#32, 0x00000013#32, 0x00000601#32, 0x00000502#32] := by decide

/-! ### The step and reset -/

/-- Z1: reset in the middle of a key; and a command cut off has no response. -/
theorem test_reset : (match step { x0.faulted with pending := [.reset (some 0x50000000#32)] } with
    | .next t => decide (t.key = State.reset.key ∧ t.status = Status.reset ∧ t.responses = [])
    | .fault _ => false
    | .refused _ => false) = true := by decide
/-- The word placed next is the word the step runs: vector G3. -/
theorem test_step : (match step (State.reset.withFetchWord 32 0x10000008) with
    | .next t => decide (t.key.rotorCount = 8#8 ∧ t.pending = [])
    | .fault _ => false
    | .refused _ => false) = true := by decide

/-! ### Assembler text -/

/-- R58's own examples. -/
theorem test_assembly_R58 : assemble ["WRITE_WIRING 0, 5, 11".toList, "PLUG_SWAP 0, 1".toList, "COMMIT".toList] =
    some [.writeWiring 0#8 5#8 11#8, .plugSwap 0#8 1#8, .commit] := by decide
/-- `@Q` is 16, and a hexadecimal number (R58). -/
theorem test_assembly_letter : assembleLine "  SET_NOTCH 0x0A, @Q ; a comment".toList = some [.setNotch 10#8 16#8] := by
  decide
/-- `' '` is 0x20 (R58). -/
theorem test_assembly_char : assembleLine "XLATE_CHAR ' '".toList = some [.xlateChar 0x20#8] := by decide
/-- Lines of the program P3 of 95_test_vectors.md. -/
theorem test_assembly_P3_rotors : assembleLine "        ROTORS 1, 2, 3          ; SET_ROTOR_COUNT 3".toList =
    some [.setRotorCount 3#8, .loadRotorStd 0#8 1#8, .loadRotorStd 1#8 2#8, .loadRotorStd 2#8 3#8] := by decide
theorem test_assembly_P3_rings : assembleLine "        RINGS 1, 2, 3".toList =
    some [.setRingSeed 0#8 1#8, .setRingSeed 1#8 2#8, .setRingSeed 2#8 3#8] := by decide
theorem test_assembly_P3_pairs : assembleLine "        PLUG_PAIRS \"AB CD EF\"   ; PLUG_SWAP 0,1; 2,3; 4,5".toList =
    some [.plugSwap 0#8 1#8, .plugSwap 2#8 3#8, .plugSwap 4#8 5#8] := by decide
/-- A line of the program P1 of 95_test_vectors.md: 26 commands, of which the first and the last are named. -/
theorem test_assembly_P1_wiring : ((assembleLine
    "        LOAD_WIRING 0, \"EKMFLGDQVZNTOWYHXUSPAIBRCJ\"   ; 26 WRITE_WIRING".toList).map fun is =>
      (is.length, is.head?, is.getLast?)) =
    some (26, some (.writeWiring 0#8 0#8 4#8), some (.writeWiring 0#8 25#8 9#8)) := by decide
/-- idx is the same for both cases of a letter (R14), and a ring may be written `@L` (log 15). -/
theorem test_assembly_letters : assemble ["PLUG_PAIRS \"aB cd\"".toList, "RINGS @B, 2".toList] =
    some [.plugSwap 0#8 1#8, .plugSwap 2#8 3#8, .setRingSeed 0#8 1#8, .setRingSeed 1#8 2#8] := by decide
/-- A number that no field holds is no operand (R50). -/
theorem test_assembly_refuses : assembleLine "SET_RING 0, 256".toList = none := by decide

/-! ### Witnesses: for each statement with hypotheses, values that meet them, clause by clause -/

/-- A queue with one word. -/
def sent (w : Word) : State := { State.reset with pending := [.send w] }

theorem resetKey_valid : State.reset.key.Valid := (validate_eq_ok_iff _).1 rfl
theorem k1_valid : k1.Valid := (validate_eq_ok_iff _).1 rfl
theorem k3_valid : k3.Valid := (validate_eq_ok_iff _).1 rfl
theorem default_lawful : Config.default.Lawful := by decide

theorem lockedKey_inv {key : KeyStore} (hm : key.maxRotors = 8) (hc : key.rotorCount.toNat ≤ 8) (hp : key.policy.toNat < 4)
    (hv : key.Valid) : (lockedKey key).Inv where
  maxRotors := by simp only [State.maxRotors, lockedKey, hm]; decide
  rotorCount := by simp only [State.maxRotors, lockedKey, hm]; exact hc
  policy := hp
  rom := default_lawful.2.2
  lockedValid := fun _ => hv
  lockedBuilt := fun _ => rfl

theorem k1_inv : (lockedKey k1).Inv := lockedKey_inv (by decide) (by decide) (by decide) k1_valid
theorem k3_inv : (lockedKey k3).Inv := lockedKey_inv (by decide) (by decide) (by decide) k3_valid

theorem witness_CommandWordsEncodeBack : decode 0x13FFFFFF#32 = .command (.writeWiring 255#8 255#8 255#8) := by decide
theorem witness_DecoderIsTheMaskTable :
    0x10000003#32 &&& Opcode.setRotorCount.form.mask = wordOf Opcode.setRotorCount.byte 0#8 0#8 0#8 ∧
    opField 0x10000103#32 = Opcode.setRotorCount.byte ∧
    0x10000103#32 &&& Opcode.setRotorCount.form.mask ≠ wordOf Opcode.setRotorCount.byte 0#8 0#8 0#8 := by decide
/-- The two ends of each range of R53, and the assigned values beside them. -/
theorem witness_UnassignedOpcodesAnswerIllegal :
    (∀ op ∈ [0x04, 0x0F, 0x18, 0x1F, 0x22, 0x2F, 0x33, 0x3F, 0x41, 0x4F, 0x56, 0x5F, 0x6D, 0xFF], UnassignedOp op) ∧
    (∀ op ∈ [0x00, 0x03, 0x10, 0x17, 0x20, 0x21, 0x30, 0x32, 0x40, 0x50, 0x55, 0x60, 0x6C], ¬ UnassignedOp op) := by decide
theorem witness_ReservedFieldsAnswerReserved :
    (opField 0x03010000#32 = Opcode.commit.byte ∧ sField 0x03010000#32 ≠ 0#8 ∧ Opcode.commit.form.uses .S = false) ∧
    (opField 0x11FF0100#32 = Opcode.loadRotorStd.byte ∧ Opcode.loadRotorStd.form.uses .S = true ∧
      aField 0x11FF0100#32 ≠ 0#8 ∧ Opcode.loadRotorStd.form.uses .A = false) ∧
    (opField 0x60FFFF01#32 = Opcode.readWiring.byte ∧ Opcode.readWiring.form.uses .S = true ∧
      Opcode.readWiring.form.uses .A = true ∧ bField 0x60FFFF01#32 ≠ 0#8 ∧ Opcode.readWiring.form.uses .B = false) ∧
    (opField 0x03000001#32 = Opcode.commit.byte ∧ sField 0x03000001#32 = 0#8 ∧ aField 0x03000001#32 = 0#8 ∧
      bField 0x03000001#32 ≠ 0#8 ∧ Opcode.commit.form.uses .B = false) := by decide
theorem witness_StepRunsTheDecodedCommand :
    (sent 0x03000000#32).pending = .send 0x03000000#32 :: [] ∧ decode 0x03000000#32 = .command .commit ∧
    ({ State.reset with pending := [.reset (some 0#32)] } : State).pending = .reset (some 0#32) :: [] ∧
    State.reset.pending = [] := by decide
theorem witness_RunAnswersEveryWordInOrder :
    (sent 0x03000000#32).pending = ([] ++ [0x03000000#32]).map HostMove.send := by decide
/-- A refusal, one that sets BUILD_ERR, and one that sets FAULT. -/
theorem witness_RefusedCommandsChangeOnlyTwoFlags :
    (∃ t, executeWord 0x04000000#32 State.reset = .next t ∧ t.responses = State.reset.responses ++ [reply 0x01 0x04]) ∧
    (∃ t, executeWord 0x10000009#32 State.reset = .next t ∧ t.responses = State.reset.responses ++ [reply 0x05 3] ∧
      t.status.buildErr ≠ State.reset.status.buildErr) ∧
    (∃ t, executeWord 0x55000005#32 x0 = .next t ∧ t.responses = x0.responses ++ [reply 0x20 0] ∧
      t.status.fault ≠ x0.status.fault) :=
  ⟨⟨_, rfl, by decide⟩, ⟨_, rfl, by decide, by decide⟩, ⟨_, rfl, by decide, by decide⟩⟩
theorem witness_ConfigurationRefusalsMarkTheBuild :
    (decode 0x40010001#32 = .reserved .setPolicy .S ∧ Opcode.setPolicy.commandClass = .config) ∧
    ((Instr.setRotorCount 8#8).commandClass = .config ∧ locked.Locked ∧ State.reset.Building ∧
      (Instr.setRotorCount 8#8).wellFormed State.reset.maxRotors = true ∧
      (Instr.setRotorCount 9#8).wellFormed State.reset.maxRotors = false) ∧
    (failedReset.Building ∧ failedReset.status.buildErr = true ∧ (0x03000000#32 : Word) ≠ 0x01000000#32 ∧
      (after failedReset 0x03000000#32).status.buildErr = true) := by decide
theorem witness_SetRotorCountRule : locked.Locked ∧
    (State.reset.Building ∧ State.reset.maxRotors < (9#8 : Byte).toNat) ∧
    (State.reset.Building ∧ (8#8 : Byte).toNat ≤ State.reset.maxRotors) := by decide
theorem witness_LoadRotorStdRule : locked.Locked ∧
    (State.reset.Building ∧ State.reset.maxRotors ≤ (8#8 : Byte).toNat) ∧
    ((7#8 : Byte).toNat < State.reset.maxRotors ∧ (0#8 : Byte).toNat < 1 ∧ 8 < (9#8 : Byte).toNat) ∧
    (State.reset.key.slots[(7#8 : Byte).toNat]? = some RotorSlot.reset ∧ 1 ≤ (8#8 : Byte).toNat ∧
      State.reset.rom.rotors[(8#8 : Byte).toNat - 1]? = some StdRom.historical.rotors[7] ∧
      State.reset.rom.rotors[(1#8 : Byte).toNat - 1]? = some StdRom.historical.rotors[0]) := by decide
theorem witness_LoadRotorShiftRule : locked.Locked ∧
    (State.reset.Building ∧ State.reset.maxRotors ≤ (8#8 : Byte).toNat) ∧
    ((7#8 : Byte).toNat < State.reset.maxRotors ∧ 26 ≤ (26#8 : Byte).toNat) ∧
    (State.reset.key.slots[(7#8 : Byte).toNat]? = some RotorSlot.reset ∧ (25#8 : Byte).toNat < 26) := by decide
theorem witness_WriteWiringRule : locked.Locked ∧
    (State.reset.Building ∧ State.reset.maxRotors ≤ (255#8 : Byte).toNat) ∧
    ((7#8 : Byte).toNat < State.reset.maxRotors ∧ 26 ≤ (26#8 : Byte).toNat ∧ (25#8 : Byte).toNat < 26) ∧
    State.reset.key.slots[(0#8 : Byte).toNat]? = some RotorSlot.reset := by decide
theorem witness_SlotRegisterCommandsRule : locked.Locked ∧
    (State.reset.Building ∧ State.reset.maxRotors ≤ (8#8 : Byte).toNat) ∧
    ((7#8 : Byte).toNat < State.reset.maxRotors ∧ 26 ≤ (26#8 : Byte).toNat) ∧
    (State.reset.key.slots[(7#8 : Byte).toNat]? = some RotorSlot.reset ∧ (25#8 : Byte).toNat < 26) := by decide
theorem witness_LoadReflStdRule : locked.Locked ∧ (State.reset.Building ∧ 1 < (2#8 : Byte).toNat) ∧
    State.reset.rom.refls[(1#8 : Byte).toNat]? = some StdRom.historical.refls[1] := by decide
theorem witness_TableEntryCommandsRule : locked.Locked ∧ (State.reset.Building ∧ 26 ≤ (26#8 : Byte).toNat) ∧
    (0#8 : Byte).toNat < 26 ∧ (25#8 : Byte).toNat < 26 := by decide
theorem witness_PlugClearRule : locked.Locked ∧ State.reset.Building := by decide
theorem witness_PlugSwapRule : locked.Locked ∧ (State.reset.Building ∧ 26 ≤ (26#8 : Byte).toNat) ∧
    (25#8 : Byte).toNat < 26 := by decide
theorem witness_SetPolicyRule : locked.Locked ∧ (State.reset.Building ∧ 4 ≤ (4#8 : Byte).toNat) ∧
    (3#8 : Byte).toNat < 4 := by decide
theorem witness_HandBuiltTablesAreLoaded :
    ∃ s : State, s.Building ∧ s.key.slots[(7#8 : Byte).toNat]? = some RotorSlot.reset ∧
      s.pending = sendCommands (Pseudo.loadWiring 7#8 identityTable).expand :=
  ⟨{ State.reset with pending := sendCommands (Pseudo.loadWiring 7#8 identityTable).expand }, rfl, rfl, rfl⟩
theorem witness_HandBuiltReflector : ∃ s : State, s.Building ∧ s.pending = sendCommands (Pseudo.loadRefl identityTable).expand :=
  ⟨{ State.reset with pending := sendCommands (Pseudo.loadRefl identityTable).expand }, rfl, rfl⟩
theorem witness_KeyClearThenCommitSucceeds : State.reset.rom.Lawful := default_lawful.2.2
theorem witness_CommitRule : locked.Locked ∧ (failedReset.Building ∧ failedReset.status.buildErr = true) ∧
    (State.reset.Building ∧ State.reset.status.buildErr = false ∧ State.reset.key.Valid) ∧
    ¬ (oneRotor (constantSlot 0)).Valid :=
  ⟨rfl, ⟨rfl, rfl⟩, ⟨rfl, rfl, resetKey_valid⟩,
    fun h => absurd (h.rotors 0 (constantSlot 0) (by decide) (by decide)) (by decide)⟩
/-- A wiring, a reflector, a fixed point and a plugboard that fail, each at the first index that does. -/
theorem witness_CommitReportsTheFirstFailure :
    (0 < (oneRotor (constantSlot 0)).rotorCount.toNat ∧ (oneRotor (constantSlot 0)).slots[0]? = some (constantSlot 0) ∧
      ¬ IsPermutation (constantSlot 0).wiring) ∧
    (let t := State.reset.key.refl.set 0 13
     t[t[(0 : Letter)]] ≠ 0) ∧
    (IsInvolution identityTable ∧ (2#8 : Byte).getLsbD 1 = true ∧ identityTable[(0 : Letter)] = 0) ∧
    (let t := identityTable.set 4 5
     t[t[(4 : Letter)]] ≠ 4 ∧ ∀ y : Letter, y < 4 → t[t[y]] = y) := by decide
theorem witness_UnlockThenCommitRestores : (lockedKey k1).Inv ∧ (lockedKey k1).Locked := ⟨k1_inv, rfl⟩
theorem witness_PipelineChecksComeInOrder :
    (decode 0x52000100#32 = .reserved .stagePlug .A ∧ Opcode.stagePlug.commandClass = .pipeline) ∧
    (Instr.xlateIndex 25#8).commandClass = .pipeline ∧ faultedReset.status.fault = true ∧
    (State.reset.status.fault = false ∧ State.reset.Building) ∧
    (locked.PipelineReady ∧ (Instr.xlateIndex 26#8).wellFormed locked.maxRotors = false ∧
      (Instr.xlateIndex 25#8).wellFormed locked.maxRotors = true) := by decide
theorem witness_ForwardPassFormula : State.reset.key.rotorCount = 0#8 ∧
    (k3.rotorCount.toNat = 2 + 1 ∧ ∃ slot, k3.slots[2]? = some slot) := ⟨rfl, rfl, _, rfl⟩
/-- A match at the smallest index, a miss, and the response of the miss. -/
theorem witness_BackwardPassFormula : State.reset.key.rotorCount = 0#8 ∧
    ((oneRotor (constantSlot 0)).rotorCount.toNat = 0 + 1 ∧ (oneRotor (constantSlot 0)).slots[0]? = some (constantSlot 0) ∧
      (constantSlot 0).wiring[(0 : Letter)] = Fin.ofNat 26 (0 + 26 + 0 - 0) ∧
      ∀ j : Letter, (constantSlot 0).wiring[j] ≠ Fin.ofNat 26 (25 + 26 + 0 - 0)) ∧
    (x0.PipelineReady ∧ bwdPass x0.key ⟨(25#8 : Byte).toNat, by decide⟩ = .error ⟨.faultInverseMiss, 0#8⟩) :=
  ⟨rfl, by decide, by decide, rfl⟩
theorem witness_XlateIndexRule : faultedReset.status.fault = true ∧
    (State.reset.status.fault = false ∧ State.reset.Building) ∧
    ((lockedKey k1).PipelineReady ∧ 26 ≤ (26#8 : Byte).toNat ∧ (25#8 : Byte).toNat < 26 ∧ encipher k1 25 = .ok 2) ∧
    (x0.PipelineReady ∧ encipher x0.key 3 = .error ⟨.faultInverseMiss, 0#8⟩) :=
  ⟨rfl, ⟨rfl, rfl⟩, ⟨⟨rfl, rfl⟩, by decide, by decide, rfl⟩, ⟨rfl, rfl⟩, rfl⟩
theorem witness_XlateCharRule :
    ((lockedKey { k2 with policy := 1#8 }).PipelineReady ∧ (0x20#8 : Byte).toNat = 0x20 ∧
      ({ k2 with policy := 1#8 } : KeyStore).policy.getLsbD 0 = true ∧ encipher { k2 with policy := 1#8 } 23 = .ok 22) ∧
    ((0x5A#8 : Byte).toNat = 0x41 + (25 : Letter).val ∧ encipher k1 25 = .ok 2 ∧
      (0x61#8 : Byte).toNat = 0x61 + (0 : Letter).val ∧ encipher k1 0 = .ok 21) ∧
    encipher x0.key 3 = .error ⟨.faultInverseMiss, 0#8⟩ ∧
    (¬ ((0x5B#8 : Byte).toNat = 0x20 ∧ k1.policy.getLsbD 0 = true) ∧
      ¬ (0x41 ≤ (0x5B#8 : Byte).toNat ∧ (0x5B#8 : Byte).toNat ≤ 0x5A) ∧
      ¬ (0x61 ≤ (0x5B#8 : Byte).toNat ∧ (0x5B#8 : Byte).toNat ≤ 0x7A)) :=
  ⟨⟨⟨rfl, rfl⟩, rfl, rfl, rfl⟩, ⟨rfl, rfl, rfl, rfl⟩, rfl, by decide⟩
theorem witness_StageCommandsRule : faultedReset.status.fault = true ∧
    (State.reset.status.fault = false ∧ State.reset.Building) ∧ (lockedKey k1).PipelineReady ∧
    26 ≤ (26#8 : Byte).toNat ∧ bwdPass k1 17 = .ok 21 ∧ bwdPass x0.key 5 = .error ⟨.faultInverseMiss, 0#8⟩ :=
  ⟨rfl, ⟨rfl, rfl⟩, ⟨rfl, rfl⟩, by decide, rfl, rfl⟩
theorem witness_ReadCommandsChangeNothing : (Instr.readNotch 7#8).commandClass = .readBack ∧
    (Instr.readNotch 7#8).wellFormed State.reset.maxRotors = true ∧
    (Instr.readNotch 8#8).wellFormed State.reset.maxRotors = false := by decide
theorem witness_ScalarReadsRule : State.reset.maxRotors ≤ 255 := by decide
theorem witness_SlotReadsRule : State.reset.maxRotors ≤ (8#8 : Byte).toNat ∧
    ((7#8 : Byte).toNat < State.reset.maxRotors ∧ 26 ≤ (26#8 : Byte).toNat) ∧
    (State.reset.key.slots[(7#8 : Byte).toNat]? = some RotorSlot.reset ∧ (25#8 : Byte).toNat < 26) := by decide
theorem witness_TableReadsRule : 26 ≤ (26#8 : Byte).toNat ∧ (25#8 : Byte).toNat < 26 := by decide
theorem witness_RomReadsRule : ((0#8 : Byte).toNat < 1 ∧ 8 < (9#8 : Byte).toNat) ∧
    (1 ≤ (8#8 : Byte).toNat ∧ (8#8 : Byte).toNat ≤ 8 ∧ 26 ≤ (26#8 : Byte).toNat) ∧
    State.reset.rom.rotors[(8#8 : Byte).toNat - 1]? = some StdRom.historical.rotors[7] ∧
    (1 < (2#8 : Byte).toNat ∧ (1#8 : Byte).toNat ≤ 1 ∧ (25#8 : Byte).toNat < 26) ∧
    State.reset.rom.refls[(1#8 : Byte).toNat]? = some StdRom.historical.refls[1] := by decide
theorem witness_ResetStateMeetsTheInvariant : Config.default.Lawful := default_lawful
theorem witness_StepKeepsTheInvariant : (lockedKey k3).Inv ∧ ∃ t, step (lockedKey k3) = .next t := ⟨k3_inv, _, rfl⟩
theorem witness_InverseMissIsUnreachable : (lockedKey k3).Inv ∧ (lockedKey k3).status.fault = false ∧
    ∃ t, step (lockedKey k3) = .next t := ⟨k3_inv, rfl, _, rfl⟩
theorem witness_EveryRunFromResetIsSafe : Config.default.Lawful ∧
    ∃ t, Host.Core.run Sys2Proof.core 2
      { State.resetOf Config.default with pending := [.send 0x03000000#32, .reset none] } = .next t :=
  ⟨default_lawful, _, rfl⟩
theorem witness_LockedKeyIsNeverWritten :
    (∃ t, executeWord 0x10000001#32 locked = .next t ∧ locked.Locked ∧ (0x10000001#32 : Word) ≠ 0x01000000#32) ∧
    (∃ t, executeWord 0x03000000#32 State.reset = .next t ∧ State.reset.Building ∧ t.Locked) ∧
    (∃ t, executeWord 0x02000000#32 locked = .next t ∧ locked.Locked ∧ t.Building) :=
  ⟨⟨_, rfl, rfl, by decide⟩, ⟨_, rfl, rfl, rfl⟩, ⟨_, rfl, rfl, rfl⟩⟩
theorem witness_OnlyResetClearsFault :
    (∃ t, executeWord 0x01000000#32 faultedReset = .next t ∧ faultedReset.status.fault = true) ∧
    (∃ t, executeWord 0x55000005#32 x0 = .next t ∧ x0.status.fault = false ∧ t.status.fault = true) ∧
    (State.reset.status.fault = false ∧ (Instr.xlateChar 0x21#8).commandClass = .pipeline ∧
      (Instr.commit).commandClass ≠ .pipeline ∧ (Instr.readStatus).commandClass ≠ .pipeline) :=
  ⟨⟨_, rfl, rfl⟩, ⟨_, rfl, rfl, by decide⟩, by decide⟩
theorem witness_RepeatedCommandsChangeNothingMore :
    (∃ t u, exec (.plugSwap 0#8 1#8) State.reset = .next t ∧ exec (.plugSwap 0#8 1#8) t = .next u) ∧
    (∃ t u, exec (.xlateIndex 0#8) (lockedKey k1) = .next t ∧ exec (.xlateIndex 0#8) t = .next u ∧
      (Instr.xlateIndex 0#8).commandClass = .pipeline ∧ t.status.fault = (lockedKey k1).status.fault) :=
  ⟨⟨_, _, rfl, rfl⟩, ⟨_, _, rfl, rfl, rfl, rfl⟩⟩
theorem witness_RotorMapsAreInverseAndRelative : IsPermutation StdRom.historical.rotors[0].wiring ∧
    ∃ slot, k3.slots[7]? = some slot := ⟨by decide, _, rfl⟩
theorem witness_BackwardPassInvertsForwardPass : k3.Valid := k3_valid
theorem witness_EncipherIsAnInvolution : k3.Valid ∧ encipher k3 7 = .ok 12 := ⟨k3_valid, rfl⟩
theorem witness_NoLetterEnciphersToItself : (k3.Valid ∧ HasNoFixedPoint k3.refl) ∧
    (({ State.reset.key with policy := 2#8 } : KeyStore).Valid ∧
      ({ State.reset.key with policy := 2#8 } : KeyStore).policy.getLsbD 1 = true) ∧
    (StdRom.historical.Lawful ∧ k3.refl = StdRom.historical.refls[(0 : Fin 2)]) :=
  ⟨⟨k3_valid, by decide⟩, ⟨(validate_eq_ok_iff _).1 rfl, rfl⟩, default_lawful.2.2, rfl⟩
theorem witness_ValidKeyPipelineCompletes : (Instr.stageBwd 25#8).commandClass = .pipeline ∧ (lockedKey k3).PipelineReady ∧
    (lockedKey k3).key.Valid ∧ (Instr.stageBwd 25#8).wellFormed (lockedKey k3).maxRotors = true :=
  ⟨rfl, ⟨rfl, rfl⟩, k3_valid, by decide⟩
/-- The first and last capital and small letter, and the bytes beside them. -/
theorem witness_CharCaseIsKept : ((lockedKey k3).PipelineReady ∧ (lockedKey k3).key.Valid) ∧
    (0x41 ≤ (0x41#8 : Byte).toNat ∧ (0x5A#8 : Byte).toNat ≤ 0x5A) ∧
    (0x61 ≤ (0x61#8 : Byte).toNat ∧ (0x7A#8 : Byte).toNat ≤ 0x7A) ∧
    (¬ 0x41 ≤ (0x40#8 : Byte).toNat ∧ ¬ (0x7B#8 : Byte).toNat ≤ 0x7A) ∧
    (({ State.reset.key with policy := 1#8 } : KeyStore).Valid ∧
      ({ State.reset.key with policy := 1#8 } : KeyStore).policy.getLsbD 0 = true) :=
  ⟨⟨⟨rfl, rfl⟩, k3_valid⟩, by decide, by decide, by decide, (validate_eq_ok_iff _).1 rfl, rfl⟩
theorem witness_TextDecryptsUnderTheSameKey : ∃ s : State, s.PipelineReady ∧ s.key.Valid ∧ s.key.policy.getLsbD 0 = false ∧
    s.pending = sendCommands (Pseudo.xlateStr [0x48#8, 0x69#8, 0x21#8]).expand :=
  ⟨{ lockedKey k3 with pending := sendCommands (Pseudo.xlateStr [0x48#8, 0x69#8, 0x21#8]).expand },
    ⟨rfl, rfl⟩, k3_valid, rfl, rfl⟩
theorem witness_ZeroRotorsLeaveTheReflector : State.reset.key.rotorCount = 0#8 ∧
    (∀ i : Letter, State.reset.key.plug[i] = i) ∧ (IsInvolution k3.plug ∧ k3.plug[(0 : Letter)] = 1) ∧
    (∀ i : Letter, identityTable[i] = i) := by decide
theorem witness_SeededRingsCancel : (∀ slot ∈ k2.activeSlots, slot.pos = slot.ring) ∧ k2.refl = k2.refl ∧
    (oneRotor { (constantSlot 0) with pos := 25, ring := 25 }).activeSlots ≠ [] := by decide
theorem witness_ShiftRotorsIgnoreTheirOffset : ∃ slot : RotorSlot, ∀ i : Letter, (slot.wiring[i]).val = (i.val + 25) % 26 :=
  ⟨{ RotorSlot.reset with wiring := shiftTable 25 }, by decide⟩
theorem witness_InverseTableGivesTheSearch : ∀ j : Letter, identityTable[identityTable[j]] = j := by decide
theorem witness_NotchesAndInactiveSlotsDoNotMatter : (Instr.xlateIndex 0#8).commandClass = .pipeline ∧
    (lockedKey State.reset.key).status = locked.status ∧
    State.reset.key.SamePipeline { State.reset.key with
      slots := State.reset.key.slots.set 0 { constantSlot 1 with notch := 25 } } :=
  ⟨rfl, rfl, rfl, rfl, rfl, rfl, fun k hk => absurd hk (by simp [State.reset, State.resetOf, KeyStore.reset])⟩

end Sys2Proof.Tests
end

/-! ## Proofs of the encoding family (30_encoding.md): R51, R52, R53 -/

namespace Sys2Proof

/-! ### Assigned opcodes (R52) -/

/-- The word an encoder makes of a command is that command again, because its unused fields are 0. -/
theorem decode_encode (i : Instr) : decode (encode i) = .command i := by
  obtain ⟨-, hunused⟩ := Laws.TableRow.of_operands i
  calc decode (encode i)
      = .command (i.opcode.command i.operands.1 i.operands.2.1 i.operands.2.2) := decode_wordOf hunused
    _ = .command i := by rw [command_operands]

/-- Settles O1: the word in each row is the encoding of the row's command, which the decoder gives back. -/
theorem everyOpcodeRowDecodes : Obligations.EveryOpcodeRowDecodes := by
  intro k a b
  exact ⟨decode_encode .nop, decode_encode .keyClear, decode_encode .unlock, decode_encode .commit,
    decode_encode (.setRotorCount b), decode_encode (.loadRotorStd k b), decode_encode (.loadRotorShift k b),
    decode_encode (.writeWiring k a b), decode_encode (.setNotch k b), decode_encode (.setPosition k b),
    decode_encode (.setRing k b), decode_encode (.setRingSeed k b),
    decode_encode (.loadReflStd b), decode_encode (.writeRefl a b),
    decode_encode .plugClear, decode_encode (.plugSwap a b), decode_encode (.writePlug a b),
    decode_encode (.setPolicy b),
    decode_encode (.xlateIndex b), decode_encode (.xlateChar b), decode_encode (.stagePlug b),
    decode_encode (.stageFwd b), decode_encode (.stageRefl b), decode_encode (.stageBwd b),
    decode_encode (.readWiring k a), decode_encode (.readNotch k), decode_encode (.readPosition k),
    decode_encode (.readRing k), decode_encode (.readRefl a), decode_encode (.readPlug a),
    decode_encode .readRotorCount, decode_encode .readPolicy, decode_encode .readStatus,
    decode_encode .readMaxRotors, decode_encode (.readRomWiring k a), decode_encode (.readRomNotch k),
    decode_encode (.readRomRefl k a)⟩

/-! ### Unassigned opcodes (R53) -/

/-- An assigned OP is in none of R53's ranges. -/
theorem not_unassignedOp_byte (op : Opcode) : ¬ Machine.UnassignedOp op.byte.toNat := by
  rw [← opcodeOf_eq_none_iff, opcodeOf_byte]
  exact Option.some_ne_none op

/-- A word is illegal exactly when its OP is in one of R53's ranges, and what the decoder reports is that OP. -/
theorem decode_eq_illegal_iff (w : Word) (b : Byte) :
    decode w = .illegal b ↔ Machine.UnassignedOp (opField w).toNat ∧ b = opField w := by
  obtain ⟨hu, hd⟩ | ⟨op, f, ho, -, hd⟩ | ⟨op, ho, -, hd⟩ := decode_cases w
  · simp [hd, hu, eq_comm]
  · simp [hd, ho, not_unassignedOp_byte]
  · simp [hd, ho, not_unassignedOp_byte]

namespace Machine

/-- A word with an unassigned OP is answered ERR_ILLEGAL with that OP, and nothing else changes. -/
theorem executeWord_of_unassigned {w : Word} (s : State) (hu : UnassignedOp (opField w).toNat) :
    executeWord w s = .next (s.replied (reply 0x01 (opField w).toNat)) := by
  obtain ⟨-, h⟩ | ⟨op, f, ho, -, -⟩ | ⟨i, -, ho, -⟩ := executeWord_cases w s
  · exact h
  · exact absurd (ho ▸ hu) (not_unassignedOp_byte op)
  · exact absurd (ho ▸ hu) (not_unassignedOp_byte i.opcode)

/-- Settles O6, by the cases of the decoder and of a word's execution. -/
theorem unassignedOpcodesAnswerIllegal : Obligations.UnassignedOpcodesAnswerIllegal := by
  intro w
  rw [← opField_toNat]
  refine ⟨⟨fun hu => ⟨_, (decode_eq_illegal_iff w _).2 ⟨hu, rfl⟩⟩, ?_⟩, fun hu s => executeWord_of_unassigned s hu⟩
  rintro ⟨b, hb⟩
  exact ((decode_eq_illegal_iff w b).1 hb).1

/-! ### One response per word (R51) -/

/-- The codes of R124, as numbers. -/
def statusNumbers : List Nat :=
  [0x00, 0x01, 0x02, 0x03, 0x04, 0x05, 0x06, 0x07, 0x10, 0x11, 0x12, 0x13, 0x14, 0x20]

theorem code_mem_statusNumbers (c : StatusCode) : c.code.toNat ∈ statusNumbers := by cases c <;> decide

/-- The result is a next state with one more response, of a code of R124 and an 8-bit DATA, and the host's queue and the
ROM of `s`. -/
def AnswersOnce (s : State) (r : Result) : Prop :=
  ∃ (t : State) (status data : Nat), r = .next t ∧ t.responses = s.responses ++ [reply status data] ∧
    status ∈ statusNumbers ∧ data < 256 ∧ t.pending = s.pending ∧ t.rom = s.rom

/-- Writing the key store and the flags of `s` and then answering is one answer. -/
theorem answersOnce_replied (s : State) (key : KeyStore) (st : Status) {status data : Nat}
    (hs : status ∈ statusNumbers) (hd : data < 256) :
    AnswersOnce s (.next ({ s with key := key, status := st }.replied (reply status data))) :=
  ⟨_, status, data, rfl, rfl, hs, hd, rfl, rfl⟩

/-- Every command answers once. -/
theorem exec_answersOnce (i : Instr) (s : State) : AnswersOnce s (exec i s) := by
  obtain ⟨status, data, hd, hs, h⟩ | ⟨-, -, key, -, h⟩ | ⟨-, -, status, data, hd, hs, h⟩ | ⟨-, -, k, hk, h⟩ | ⟨-, h⟩ |
    ⟨-, h⟩ | ⟨-, -, -, -, h⟩ := exec_cases i s <;> rw [h]
  · have hsub : [0x00, 0x02, 0x03, 0x04, 0x05, 0x06, 0x07, 0x10, 0x11, 0x12, 0x13, 0x14] ⊆ statusNumbers := by decide
    exact answersOnce_replied s s.key s.status (hsub hs) hd
  · exact answersOnce_replied s _ _ (code_mem_statusNumbers .ok) (by decide)
  · have hs : status ∈ statusNumbers := by obtain rfl | rfl | rfl := hs <;> decide
    exact answersOnce_replied s _ _ hs hd
  · exact answersOnce_replied s _ _ (code_mem_statusNumbers .faultInverseMiss) hk
  · exact answersOnce_replied s _ _ (code_mem_statusNumbers .ok) (by decide)
  · exact answersOnce_replied s _ _ (code_mem_statusNumbers .ok) (by decide)
  · exact answersOnce_replied s _ _ (code_mem_statusNumbers .ok) (by decide)

/-- Every word answers once: an illegal or reserved one with its error, another with its command's answer. -/
theorem executeWord_answersOnce (w : Word) (s : State) : AnswersOnce s (executeWord w s) := by
  obtain ⟨-, h⟩ | ⟨op, f, -, -, h⟩ | ⟨i, -, -, h⟩ := executeWord_cases w s <;> rw [h]
  · exact answersOnce_replied s s.key s.status (code_mem_statusNumbers .errIllegal) (opField w).isLt
  · exact ⟨_, _, _, rfl, refusedReserved_responses .., code_mem_statusNumbers .errReserved, (fieldNumber f).isLt,
      refusedReserved_pending .., refusedReserved_rom ..⟩
  · exact exec_answersOnce i s

/-- Settles O10, by what a word and a command can do. -/
theorem everyWordGetsOneResponse : Obligations.EveryWordGetsOneResponse := executeWord_answersOnce

end Machine

end Sys2Proof

/-! ## Proofs of the configuration family (40_key_config.md): R61 to R76 -/

namespace Sys2Proof

/-! ### The first reserved field, and words of the configuration forms (R49, R54) -/

/-- A nonzero field S comes first. -/
theorem reservedField_eq_S {form : Form} {w : Word} (hw : sField w ≠ 0#8) (hu : form.uses .S = false) :
    reservedField form w = some .S := by simp [reservedField, fieldOf, hw, hu]

/-- A nonzero field A comes next, when S is 0 or in use. -/
theorem reservedField_eq_A {form : Form} {w : Word} (hS : sField w = 0#8 ∨ form.uses .S = true)
    (hw : aField w ≠ 0#8) (hu : form.uses .A = false) : reservedField form w = some .A := by
  obtain hS | hS := hS <;> simp [reservedField, fieldOf, hS, hw, hu]

/-- A nonzero field B comes last, when S and A are 0 or in use. -/
theorem reservedField_eq_B {form : Form} {w : Word} (hS : sField w = 0#8 ∨ form.uses .S = true)
    (hA : aField w = 0#8 ∨ form.uses .A = true) (hw : bField w ≠ 0#8) (hu : form.uses .B = false) :
    reservedField form w = some .B := by
  obtain hS | hS := hS <;> obtain hA | hA := hA <;> simp [reservedField, fieldOf, hS, hA, hw, hu]

/-- A word that decodes to a command is the word of that command: its unused fields are 0. -/
theorem encode_of_decode {w : Word} {i : Instr} (h : decode w = .command i) : encode i = w := by
  obtain ⟨op, ho, hr, rfl⟩ := (decode_eq_command_iff w i).1 h
  have hz : ∀ f : Field, (if op.form.uses f then fieldOf w f else 0#8) = fieldOf w f := fun f => by
    split
    · rfl
    · next hu => exact (reservedField_none.1 hr f (by simpa using hu)).symm
  calc encode (op.command (sField w) (aField w) (bField w))
      = wordOf op.byte (fieldOf w .S) (fieldOf w .A) (fieldOf w .B) := by
        rw [encode, opcode_command, operands_command, ← hz .S, ← hz .A, ← hz .B]
        rfl
    _ = w := by rw [← ho]; exact wordOf_fields w

namespace Machine

/-- A word of an assigned opcode with a reserved field set, given by its fields. -/
theorem executeWord_wordOf_reserved {op : Opcode} {k a b : Byte} {f : Field} (s : State)
    (h : reservedField op.form (wordOf op.byte k a b) = some f) :
    executeWord (wordOf op.byte k a b) s = .next (s.refusedReserved op.commandClass (fieldNumber f).toNat) :=
  executeWord_of_reserved s (opField_wordOf ..) h

/-- The words of an opcode of form Z. -/
theorem noOperandWord_of_form {op : Opcode} (hf : op.form = .z) :
    NoOperandWord op.byte op.commandClass (op.command 0#8 0#8 0#8) := by
  have unused (f : Field) : op.form.uses f = false := by rw [hf]; rfl
  refine ⟨decode_wordOf fun f _ => ?_, fun k a b s hk => ?_, fun a b s ha => ?_, fun b s hb => ?_⟩
  · cases f <;> simp [fieldOf]
  · exact executeWord_wordOf_reserved s (reservedField_eq_S (by simpa using hk) (unused .S))
  · exact executeWord_wordOf_reserved s (reservedField_eq_A (.inl (by simp)) (by simpa using ha) (unused .A))
  · exact executeWord_wordOf_reserved s
      (reservedField_eq_B (.inl (by simp)) (.inl (by simp)) (by simpa using hb) (unused .B))

/-- The words of an opcode of form B. -/
theorem operandBWord_of_form {op : Opcode} (hf : op.form = .b) :
    OperandBWord op.byte op.commandClass (op.command 0#8 0#8) := by
  have hS : op.form.uses .S = false := by rw [hf]; rfl
  have hA : op.form.uses .A = false := by rw [hf]; rfl
  refine ⟨fun b => decode_wordOf fun f hu => ?_, fun k a b s hk => ?_, fun a b s ha => ?_⟩
  · cases f <;> simp [fieldOf, hf, Form.uses] at hu ⊢
  · exact executeWord_wordOf_reserved s (reservedField_eq_S (by simpa using hk) hS)
  · exact executeWord_wordOf_reserved s (reservedField_eq_A (.inl (by simp)) (by simpa using ha) hA)

/-- The words of a configuration opcode of form SB. -/
theorem operandSBWord_of_form {op : Opcode} (hf : op.form = .sb) (hc : op.commandClass = .config) :
    OperandSBWord op.byte fun k b => op.command k 0#8 b := by
  have hS : op.form.uses .S = true := by rw [hf]; rfl
  have hA : op.form.uses .A = false := by rw [hf]; rfl
  refine ⟨fun k b => decode_wordOf fun f hu => ?_, fun k a b s ha => ?_⟩
  · cases f <;> simp [fieldOf, hf, Form.uses] at hu ⊢
  · rw [← hc]
    exact executeWord_wordOf_reserved s (reservedField_eq_A (.inr hS) (by simpa using ha) hA)

/-- The words of a configuration opcode of form AB. -/
theorem operandABWord_of_form {op : Opcode} (hf : op.form = .ab) (hc : op.commandClass = .config) :
    OperandABWord op.byte fun a b => op.command 0#8 a b := by
  have hS : op.form.uses .S = false := by rw [hf]; rfl
  refine ⟨fun a b => decode_wordOf fun f hu => ?_, fun k a b s hk => ?_⟩
  · cases f <;> simp [fieldOf, hf, Form.uses] at hu ⊢
  · rw [← hc]
    exact executeWord_wordOf_reserved s (reservedField_eq_S (by simpa using hk) hS)

/-! ### BUILD_ERR: set by a refusal, kept by every word but KEY_CLEAR's (R61, R62) -/

theorem fieldNumber_mem (f : Field) : 1 ≤ (fieldNumber f).toNat ∧ (fieldNumber f).toNat ≤ 3 := by
  cases f <;> decide

/-- The codes of R62. -/
theorem code_of_isBuildFailure {c : StatusCode} (h : isBuildFailure c = true) :
    c.code.toNat = 0x02 ∨ c.code.toNat = 0x05 ∨ c.code.toNat = 0x06 := by
  revert h
  cases c <;> decide

/-- The configuration opcodes are 0x10 to 0x40 (R61). -/
theorem commandClass_eq_config_iff (op : Opcode) :
    op.commandClass = .config ↔ 0x10 ≤ op.byte.toNat ∧ op.byte.toNat ≤ 0x40 := by cases op <;> decide

/-- Every configuration command checks the lock before its operands (R61). -/
theorem exec_config_of_locked {i : Instr} {s : State} (hi : i.commandClass = .config) (hk : s.Locked) :
    exec i s = .next (s.replied (reply 0x03 0)) := by
  obtain ⟨body, h, -⟩ := exec_config i s hi
  rw [h, runConfig_of_locked body hk]

/-- With its operands in range, a configuration command writes a key being built. -/
theorem exec_config_of_wellFormed {i : Instr} {s : State} (hi : i.commandClass = .config) (hk : s.Building)
    (hwf : i.wellFormed s.maxRotors = true) :
    ∃ key : KeyStore, exec i s = .next ({ s with key := key }.replied (reply 0 0)) := by
  obtain ⟨body, h, hbody⟩ := exec_config i s hi
  obtain ⟨key, rfl⟩ := hbody.accepts hwf
  exact ⟨key, by rw [h, runConfig_of_ok key hk]⟩

/-- With an operand out of range, a configuration command fails the build. -/
theorem exec_config_of_not_wellFormed {i : Instr} {s : State} (hi : i.commandClass = .config) (hk : s.Building)
    (hwf : i.wellFormed s.maxRotors = false) :
    ∃ code field : Nat, (code = 0x02 ∨ code = 0x05 ∨ code = 0x06) ∧ 1 ≤ field ∧ field ≤ 3 ∧
      exec i s = .next (s.buildFailed.replied (reply code field)) := by
  obtain ⟨body, h, hbody⟩ := exec_config i s hi
  obtain ⟨c, f, rfl, hc⟩ := hbody.refuses hwf
  obtain ⟨hf1, hf3⟩ := fieldNumber_mem f
  exact ⟨_, _, code_of_isBuildFailure hc, hf1, hf3, by rw [h, runConfig_of_error hk hc]⟩

/-- A reserved field of a configuration command is only answered on a locked key, and fails the build of an unlocked
one (R62, log 13). -/
theorem executeWord_config_reserved {w : Word} {op : Opcode} {f : Field} {s : State} (hd : decode w = .reserved op f)
    (hc : op.commandClass = .config) :
    (s.Locked → executeWord w s = .next (s.replied (reply 0x02 (fieldNumber f).toNat))) ∧
    (s.Building → executeWord w s = .next (s.buildFailed.replied (reply 0x02 (fieldNumber f).toNat))) := by
  obtain ⟨ho, hr⟩ := fields_of_reserved hd
  rw [executeWord_of_reserved s ho hr, hc]
  exact ⟨fun hk => by rw [refusedReserved_of_plain _ (by simp [hk])],
    fun hk => by rw [refusedReserved_of_building _ hk]⟩

/-- COMMIT of a failed build is refused (R82). -/
theorem exec_commit_of_buildErr {s : State} (hk : s.Building) (hb : s.status.buildErr = true) :
    exec .commit s = .next (s.replied (reply 0x14 0)) := by
  obtain ⟨hl, -⟩ | ⟨-, -, h⟩ | ⟨-, hb', -⟩ | ⟨-, hb', -⟩ := execCommit_cases s
  · cases hk.symm.trans hl
  · exact h
  · cases hb.symm.trans hb'
  · cases hb.symm.trans hb'

/-- The key is being built, and its build has failed. -/
def State.BuildFailing (s : State) : Prop := s.Building ∧ s.status.buildErr = true

/-- A refused reserved field leaves a failed build failed. -/
theorem refusedReserved_buildFailing {s : State} (h : s.BuildFailing) (c : CommandClass) (n : Nat) :
    (s.refusedReserved c n).BuildFailing := by
  unfold State.refusedReserved
  split
  · exact ⟨h.1, rfl⟩
  · exact h

/-- No command but KEY_CLEAR ends a failed build, and none locks its key. -/
theorem exec_keeps_buildFailing {i : Instr} {s t : State} (h : s.BuildFailing) (hi : i ≠ .keyClear)
    (ht : exec i s = .next t) : t.BuildFailing := by
  obtain ⟨_, _, -, -, e⟩ | ⟨-, -, _, -, e⟩ | ⟨-, -, _, _, -, -, e⟩ | ⟨-, -, _, -, e⟩ | ⟨hc, -⟩ | ⟨-, e⟩ |
    ⟨-, -, hb, -, -⟩ := exec_cases i s
  · cases e.symm.trans ht
    exact h
  · cases e.symm.trans ht
    exact h
  · cases e.symm.trans ht
    exact ⟨h.1, rfl⟩
  · cases e.symm.trans ht
    exact h
  · exact absurd hc hi
  · cases e.symm.trans ht
    exact ⟨rfl, h.2⟩
  · cases h.2.symm.trans hb

/-- No word but KEY_CLEAR's ends a failed build, and none locks its key. -/
theorem executeWord_keeps_buildFailing {w : Word} {s t : State} (h : s.BuildFailing) (hw : w ≠ encode .keyClear)
    (ht : executeWord w s = .next t) : t.BuildFailing := by
  obtain ⟨-, e⟩ | ⟨op, f, -, -, e⟩ | ⟨i, hd, -, e⟩ := executeWord_cases w s
  · cases e.symm.trans ht
    exact h
  · cases e.symm.trans ht
    exact refusedReserved_buildFailing h ..
  · refine exec_keeps_buildFailing h ?_ (e.symm.trans ht)
    rintro rfl
    exact hw (encode_of_decode hd).symm

/-- KEY_CLEAR's word (R52). -/
theorem encode_keyClear : encode .keyClear = 0x01000000#32 := by decide

/-- KEY_CLEAR's word clears BUILD_ERR (R80). -/
theorem executeWord_keyClear_buildErr (s : State) :
    ∃ t : State, executeWord (encode .keyClear) s = .next t ∧ t.status.buildErr = false :=
  ⟨_, by simp only [executeWord, decode_encode]; rfl, rfl⟩

/-- Settles O13, from what a configuration command and a word can do. -/
theorem configurationRefusalsMarkTheBuild : Obligations.ConfigurationRefusalsMarkTheBuild := by
  refine ⟨commandClass_eq_config_iff, fun w op f s hd hc => ?_, fun i s hi => ⟨exec_config_of_locked hi,
    exec_config_of_wellFormed hi, exec_config_of_not_wellFormed hi⟩, fun s => exec_commit_of_buildErr,
    fun w s t hk hb hw => ?_, fun s cutOff => ⟨?_, applyReset s, rfl, rfl⟩⟩
  · obtain ⟨hf1, hf3⟩ := fieldNumber_mem f
    exact ⟨_, hf1, hf3, executeWord_config_reserved hd hc⟩
  · exact executeWord_keeps_buildFailing ⟨hk, hb⟩ (encode_keyClear ▸ hw)
  · exact encode_keyClear ▸ executeWord_keyClear_buildErr s

/-! ### Commands on one operand or none (R63, R71, R73, R76) -/

/-- SET_ROTOR_COUNT: the count, then its write. -/
theorem exec_setRotorCount (n : Byte) (s : State) :
    exec (.setRotorCount n) s =
      runConfig (checkCount s.key n >>= fun n => pure { s.key with rotorCount := n }) s := rfl

/-- Settles O14, by the cases of the lock and of the count. -/
theorem setRotorCountRule : Obligations.SetRotorCountRule := by
  refine ⟨operandBWord_of_form (op := .setRotorCount) rfl, fun n s =>
    ⟨exec_config_of_locked rfl, fun hk hn => ?_, fun hk hn => ?_⟩⟩
  · rw [exec_setRotorCount, checkCount_of_gt (key := s.key) hn]
    exact runConfig_of_error hk rfl
  · rw [exec_setRotorCount, checkCount_of_le (key := s.key) hn]
    exact runConfig_of_ok _ hk

/-- LOAD_REFL_STD: the selector, then the write of the reflector from the ROM. -/
theorem exec_loadReflStd (r : Byte) (s : State) :
    exec (.loadReflStd r) s =
      runConfig (checkReflSelector .B r >>= fun r => pure { s.key with refl := s.rom.refls[r] }) s := rfl

/-- Settles O19, by the cases of the lock and of the selector. -/
theorem loadReflStdRule : Obligations.LoadReflStdRule := by
  refine ⟨operandBWord_of_form (op := .loadReflStd) rfl, fun r s =>
    ⟨exec_config_of_locked rfl, fun hk hr => ?_, fun table hk htable => ?_⟩⟩
  · rw [exec_loadReflStd, checkReflSelector_of_gt hr]
    exact runConfig_of_error hk rfl
  · obtain ⟨hr, rfl⟩ := Vector.getElem?_eq_some_iff.1 htable
    rw [exec_loadReflStd, checkReflSelector_of_le (Nat.le_of_lt_succ hr)]
    exact runConfig_of_ok _ hk

/-- PLUG_CLEAR: the write of the identity. -/
theorem exec_plugClear (s : State) :
    exec .plugClear s = runConfig (.ok { s.key with plug := identityTable }) s := rfl

/-- Settles O21: the table written is the identity. -/
theorem plugClearRule : Obligations.PlugClearRule := by
  refine ⟨noOperandWord_of_form (op := .plugClear) rfl, fun s =>
    ⟨exec_config_of_locked rfl, fun hk => ⟨identityTable, identityTable_get, ?_⟩⟩⟩
  rw [exec_plugClear, runConfig_of_ok _ hk]

/-- SET_POLICY: the flags, then their write. -/
theorem exec_setPolicy (f : Byte) (s : State) :
    exec (.setPolicy f) s = runConfig (checkPolicyFlags f >>= fun f => pure { s.key with policy := f }) s := rfl

/-- Settles O23, by the cases of the lock and of the flags. -/
theorem setPolicyRule : Obligations.SetPolicyRule := by
  refine ⟨operandBWord_of_form (op := .setPolicy) rfl, fun f s =>
    ⟨exec_config_of_locked rfl, fun hk hf => ?_, fun hk hf => ?_⟩⟩
  · rw [exec_setPolicy, checkPolicyFlags_of_ge hf]
    exact runConfig_of_error hk rfl
  · rw [exec_setPolicy, checkPolicyFlags_of_lt hf]
    exact runConfig_of_ok _ hk

/-! ### Commands that write a rotor slot (R64 to R70) -/

/-- A command whose body begins with the slot check refuses a slot the block does not have. -/
theorem runConfig_checkSlot_of_ge {s : State} {k : Byte} (rest : RotorSlot → Except ErrorReport KeyStore)
    (hk : s.Building) (hge : s.maxRotors ≤ k.toNat) :
    runConfig (checkSlot s.key k >>= rest) s = .next (s.buildFailed.replied (reply 0x05 1)) := by
  rw [checkSlot_of_ge (key := s.key) hge]
  exact runConfig_of_error hk rfl

/-- A command that reads slot k and writes it fails the build when the rest of its body refuses whatever the slot
holds. -/
theorem runConfig_checkSlot_of_error {s : State} {k : Byte} {rest : RotorSlot → Except ErrorReport KeyStore}
    {c : StatusCode} {d : Byte} (hk : s.Building) (hlt : k.toNat < s.maxRotors)
    (hrest : ∀ slot, rest slot = .error ⟨c, d⟩) (hc : isBuildFailure c = true) :
    runConfig (checkSlot s.key k >>= rest) s = .next (s.buildFailed.replied (reply c.code.toNat d.toNat)) := by
  obtain ⟨slot, -, h⟩ := checkSlot_of_lt (key := s.key) hlt
  rw [h, ok_bind, hrest]
  exact runConfig_of_error hk hc

/-- A command that reads slot k and writes it answers OK when the rest of its body gives the new slot. -/
theorem runConfig_checkSlot_of_ok {s : State} {k : Byte} {slot new : RotorSlot}
    {rest : RotorSlot → Except ErrorReport KeyStore} (hk : s.Building) (hslot : s.key.slots[k.toNat]? = some slot)
    (hrest : rest slot = .ok (s.key.setSlot k new)) :
    runConfig (checkSlot s.key k >>= rest) s = .next ((s.withSlot k new).replied (reply 0 0)) := by
  rw [checkSlot_of_get hslot, ok_bind, hrest]
  exact runConfig_of_ok _ hk

/-- LOAD_ROTOR_STD: the slot, the type, then the write of the slot from the ROM. -/
theorem exec_loadRotorStd (k t : Byte) (s : State) :
    exec (.loadRotorStd k t) s =
      runConfig (checkSlot s.key k >>= fun slot => checkRotorType .B t >>= fun t =>
        pure (s.key.setSlot k
          { slot with wiring := s.rom.rotors[t].wiring, notch := s.rom.rotors[t].notch })) s := rfl

/-- Settles O15, by the cases of the lock, of the slot and of the type. -/
theorem loadRotorStdRule : Obligations.LoadRotorStdRule := by
  refine ⟨operandSBWord_of_form (op := .loadRotorStd) rfl rfl, fun k t s => ⟨exec_config_of_locked rfl,
    fun hk hge => ?_, fun hk hlt ht => ?_, fun slot std hk hslot ht hstd => ?_⟩⟩
  · exact runConfig_checkSlot_of_ge _ hk hge
  · refine runConfig_checkSlot_of_error (c := .errSelector) (d := 3#8) hk hlt (fun slot => ?_) rfl
    rw [checkRotorType_of_not ht]
    rfl
  · obtain ⟨ht8, rfl⟩ := Vector.getElem?_eq_some_iff.1 hstd
    refine runConfig_checkSlot_of_ok hk hslot ?_
    rw [checkRotorType_of_mem ht (by omega)]
    rfl

/-- WRITE_WIRING: the slot, the index, the value, then the write of one entry. -/
theorem exec_writeWiring (k a v : Byte) (s : State) :
    exec (.writeWiring k a v) s =
      runConfig (checkSlot s.key k >>= fun slot => checkLetter .A a >>= fun a => checkLetter .B v >>= fun v =>
        pure (s.key.setSlot k { slot with wiring := slot.wiring.set a v })) s := rfl

/-- Settles O17, by the cases of the lock, of the slot, of the index and of the value. -/
theorem writeWiringRule : Obligations.WriteWiringRule := by
  refine fun k a v s => ⟨decode_encode (.writeWiring k a v), exec_config_of_locked rfl,
    fun hk hge => ?_, fun hk hlt ha => ?_, fun hk hlt ha hv => ?_, fun slot hk hslot ha hv => ?_⟩
  · exact runConfig_checkSlot_of_ge _ hk hge
  · refine runConfig_checkSlot_of_error (c := .errRange) (d := 2#8) hk hlt (fun slot => ?_) rfl
    rw [checkLetter_of_ge ha]
    rfl
  · refine runConfig_checkSlot_of_error (c := .errRange) (d := 3#8) hk hlt (fun slot => ?_) rfl
    rw [checkLetter_of_lt ha, ok_bind, checkLetter_of_ge hv]
    rfl
  · refine runConfig_checkSlot_of_ok hk hslot ?_
    rw [checkLetter_of_lt ha, ok_bind, checkLetter_of_lt hv]
    rfl

/-- A configuration command of form SB that checks its slot and its value and then writes the slot follows the rule of
such commands. -/
theorem slotRegisterRule_of_exec {op : Opcode} {write : RotorSlot → Letter → RotorSlot} (hf : op.form = .sb)
    (hc : op.commandClass = .config)
    (hexec : ∀ (k v : Byte) (s : State), exec (op.command k 0#8 v) s =
      runConfig (checkSlot s.key k >>= fun slot => checkLetter .B v >>= fun v =>
        pure (s.key.setSlot k (write slot v))) s) :
    SlotRegisterRule op.byte (fun k v => op.command k 0#8 v) write := by
  refine ⟨operandSBWord_of_form hf hc, fun k v s => ⟨fun hk => ?_, fun hk hge => ?_, fun hk hlt hv => ?_,
    fun slot hk hslot hv => ?_⟩⟩ <;> rw [hexec]
  · exact runConfig_of_locked _ hk
  · exact runConfig_checkSlot_of_ge _ hk hge
  · refine runConfig_checkSlot_of_error (c := .errRange) (d := 3#8) hk hlt (fun slot => ?_) rfl
    rw [checkLetter_of_ge hv]
    rfl
  · refine runConfig_checkSlot_of_ok hk hslot ?_
    rw [checkLetter_of_lt hv]
    rfl

/-- Settles O18: the four commands are one rule, each with its own registers. -/
theorem slotRegisterCommandsRule : Obligations.SlotRegisterCommandsRule :=
  ⟨slotRegisterRule_of_exec (op := .setNotch) rfl rfl fun _ _ _ => rfl,
    slotRegisterRule_of_exec (op := .setPosition) rfl rfl fun _ _ _ => rfl,
    slotRegisterRule_of_exec (op := .setRing) rfl rfl fun _ _ _ => rfl,
    slotRegisterRule_of_exec (op := .setRingSeed) rfl rfl fun _ _ _ => rfl⟩

/-- Entry i of the shift wiring is (i + s) mod 26 (R65). -/
theorem shiftTable_get_val (sh i : Letter) : ((shiftTable sh)[i]).val = (i.val + sh.val) % 26 := by
  have h := mod26_val ((i.val : Int) + (sh.val : Int))
  simp only [shiftTable, Fin.getElem_fin, Vector.getElem_ofFn]
  omega

/-- LOAD_ROTOR_SHIFT writes a slot from its value as the register commands do. -/
theorem loadRotorShift_slotRegisterRule :
    SlotRegisterRule 0x12#8 .loadRotorShift fun slot sh => { slot with wiring := shiftTable sh, notch := 0 } :=
  slotRegisterRule_of_exec (op := .loadRotorShift) rfl rfl fun _ _ _ => rfl

/-- Settles O16: the table written is the shift wiring. -/
theorem loadRotorShiftRule : Obligations.LoadRotorShiftRule := by
  obtain ⟨hword, hrule⟩ := loadRotorShift_slotRegisterRule
  refine ⟨hword, fun k sh s => ?_⟩
  obtain ⟨hlocked, hslot, hshift, hwrite⟩ := hrule k sh s
  exact ⟨hlocked, hslot, hshift, fun slot hk hs hsh =>
    ⟨shiftTable ⟨sh.toNat, hsh⟩, shiftTable_get_val _, hwrite slot hk hs hsh⟩⟩

/-! ### Commands that write a table of the key store (R72, R74, R75) -/

/-- A configuration command of form AB that checks its two letters and then writes the key store follows the rule of
such commands. -/
theorem tableEntryRule_of_exec {op : Opcode} {write : KeyStore → Letter → Letter → KeyStore} (hf : op.form = .ab)
    (hc : op.commandClass = .config)
    (hexec : ∀ (a b : Byte) (s : State), exec (op.command 0#8 a b) s =
      runConfig (checkLetter .A a >>= fun a => checkLetter .B b >>= fun b => pure (write s.key a b)) s) :
    TableEntryRule op.byte (fun a b => op.command 0#8 a b) write := by
  refine ⟨operandABWord_of_form hf hc, fun a b s => ⟨fun hk => ?_, fun hk ha => ?_, fun hk ha hb => ?_,
    fun hk ha hb => ?_⟩⟩ <;> rw [hexec]
  · exact runConfig_of_locked _ hk
  · rw [checkLetter_of_ge ha]
    exact runConfig_of_error hk rfl
  · rw [checkLetter_of_lt ha, ok_bind, checkLetter_of_ge hb]
    exact runConfig_of_error hk rfl
  · rw [checkLetter_of_lt ha, ok_bind, checkLetter_of_lt hb]
    exact runConfig_of_ok _ hk

/-- Settles O20: the two commands are one rule, each with its own table. -/
theorem tableEntryCommandsRule : Obligations.TableEntryCommandsRule :=
  ⟨tableEntryRule_of_exec (op := .writeRefl) rfl rfl fun _ _ _ => rfl,
    tableEntryRule_of_exec (op := .writePlug) rfl rfl fun _ _ _ => rfl⟩

/-- The plugboard after PLUG_SWAP: the second write wins (R74). -/
def swapEntries (t : Table) (a b : Letter) : Table := (t.set a b).set b a

/-- PLUG_SWAP writes the plugboard from its two letters as the entry commands do. -/
theorem plugSwap_tableEntryRule :
    TableEntryRule 0x31#8 .plugSwap fun key a b => { key with plug := swapEntries key.plug a b } :=
  tableEntryRule_of_exec (op := .plugSwap) rfl rfl fun _ _ _ => rfl

/-- An entry after the two writes. -/
theorem swapEntries_get_val (t : Table) (a b i : Letter) :
    ((swapEntries t a b)[i]).val =
      if i.val = b.val then a.val else if i.val = a.val then b.val else (t[i]).val := by
  simp only [swapEntries, Fin.getElem_fin, Vector.getElem_set, eq_comm (a := i.val)]
  split
  · rfl
  · split <;> rfl

/-- Settles O22: the table written is the plugboard after the two writes. -/
theorem plugSwapRule : Obligations.PlugSwapRule := by
  obtain ⟨hword, hrule⟩ := plugSwap_tableEntryRule
  refine ⟨hword, fun a b s => ?_⟩
  obtain ⟨hlocked, hA, hB, hwrite⟩ := hrule a b s
  exact ⟨hlocked, hA, hB, fun hk ha hb =>
    ⟨swapEntries s.key.plug ⟨a.toNat, ha⟩ ⟨b.toNat, hb⟩, swapEntries_get_val _ _ _, hwrite hk ha hb⟩⟩

end Machine

end Sys2Proof

/-! ## Proofs of the key lifecycle family (41_key_lifecycle.md): R80 to R86 -/

namespace Sys2Proof

namespace Machine

/-! ### The checks of COMMIT's validation (R83 to R86) -/

/-- The active slots are the slots of the same numbers. -/
theorem activeSlots_getElem? {key : KeyStore} {k : Nat} (hk : k < key.rotorCount.toNat) :
    key.activeSlots[k]? = key.slots[k]? :=
  List.getElem?_take_of_lt hk

theorem checkRotors_of_permutations {key : KeyStore}
    (h : ∀ (k : Nat) (slot : RotorSlot), k < key.rotorCount.toNat → key.slots[k]? = some slot →
      IsPermutation slot.wiring) : checkRotors key = .ok () := by
  have hnone : firstNonPermutation 0 key.activeSlots = none :=
    (firstNonPermutation_eq_none_iff 0 _).2 fun slot hs => by
      obtain ⟨k, hk, hget⟩ := mem_activeSlots_iff.1 hs
      exact h k slot hk hget
  rw [checkRotors, hnone]

/-- The rotor check names the smallest active slot whose wiring is no permutation (R84). -/
theorem checkRotors_of_first {key : KeyStore} {k : Nat} {slot : RotorSlot} (hk : k < key.rotorCount.toNat)
    (hs : key.slots[k]? = some slot) (hp : ¬ IsPermutation slot.wiring)
    (hfirst : ∀ (j : Nat) (r : RotorSlot), j < k → key.slots[j]? = some r → IsPermutation r.wiring) :
    checkRotors key = .error ⟨.errRotorNotPerm, BitVec.ofNat 8 k⟩ := by
  have hsome : firstNonPermutation 0 key.activeSlots = some k :=
    (firstNonPermutation_eq_some_iff 0 k _).2
      ⟨k, slot, (Nat.zero_add k).symm, (activeSlots_getElem? hk).trans hs, hp, fun j r hj hr =>
        hfirst j r hj ((activeSlots_getElem? (hj.trans hk)).symm.trans hr)⟩
  rw [checkRotors, hsome]

theorem firstNonInvolution_of_first {t : Table} {x : Letter} (hx : t[t[x]] ≠ x)
    (hfirst : ∀ y : Letter, y < x → t[t[y]] = y) : firstNonInvolution t = some x :=
  (letters_find_eq_some_iff _ x).2 ⟨bne_iff_ne.2 hx, fun y hy => bne_eq_false_iff_eq.2 (hfirst y hy)⟩

theorem firstFixedPoint_of_first {t : Table} {x : Letter} (hx : t[x] = x)
    (hfirst : ∀ y : Letter, y < x → t[y] ≠ y) : firstFixedPoint t = some x :=
  (letters_find_eq_some_iff _ x).2 ⟨beq_iff_eq.2 hx, fun y hy => beq_eq_false_iff_ne.2 (hfirst y hy)⟩

theorem checkReflector_of_involution {key : KeyStore} (h : IsInvolution key.refl) : checkReflector key = .ok () := by
  rw [checkReflector, (firstNonInvolution_eq_none_iff _).2 h]

theorem checkReflector_of_first {key : KeyStore} {x : Letter} (hx : key.refl[key.refl[x]] ≠ x)
    (hfirst : ∀ y : Letter, y < x → key.refl[key.refl[y]] = y) :
    checkReflector key = .error ⟨.errReflNotInvol, letterByte x⟩ := by
  rw [checkReflector, firstNonInvolution_of_first hx hfirst]

/-- The fixed-point check passes when REFL_NO_FIXED does not ask for it, or when there is no fixed point. -/
theorem checkReflectorFixed_of_noFixed {key : KeyStore}
    (h : key.policy.getLsbD 1 = true → HasNoFixedPoint key.refl) : checkReflectorFixed key = .ok () := by
  rw [checkReflectorFixed, KeyStore.reflNoFixed]
  split
  · next hp => rw [(firstFixedPoint_eq_none_iff _).2 (h hp)]
  · rfl

theorem checkReflectorFixed_of_first {key : KeyStore} {x : Letter} (hp : key.policy.getLsbD 1 = true)
    (hx : key.refl[x] = x) (hfirst : ∀ y : Letter, y < x → key.refl[y] ≠ y) :
    checkReflectorFixed key = .error ⟨.errReflFixed, letterByte x⟩ := by
  rw [checkReflectorFixed, KeyStore.reflNoFixed, if_pos hp, firstFixedPoint_of_first hx hfirst]

theorem checkPlugboard_of_first {key : KeyStore} {x : Letter} (hx : key.plug[key.plug[x]] ≠ x)
    (hfirst : ∀ y : Letter, y < x → key.plug[key.plug[y]] = y) :
    checkPlugboard key = .error ⟨.errPlugNotInvol, letterByte x⟩ := by
  rw [checkPlugboard, firstNonInvolution_of_first hx hfirst]

/-! ### What COMMIT answers (R82) -/

theorem exec_commit_of_locked {s : State} (hk : s.Locked) : exec .commit s = .next (s.replied (reply 0 0)) := by
  obtain ⟨-, h⟩ | ⟨hk', -⟩ | ⟨hk', -⟩ | ⟨hk', -⟩ := execCommit_cases s
  · exact h
  all_goals cases hk.symm.trans hk'

/-- COMMIT of a key being built without a build error answers what validation reports. -/
theorem exec_commit_of_error {s : State} {e : ErrorReport} (hk : s.Building) (hb : s.status.buildErr = false)
    (he : validate s.key = .error e) :
    exec .commit s = .next (s.replied (reply e.code.code.toNat e.data.toNat)) := by
  obtain ⟨hk', -⟩ | ⟨-, hb', -⟩ | ⟨-, -, e', he', h⟩ | ⟨-, -, hv, -⟩ := execCommit_cases s
  · cases hk.symm.trans hk'
  · cases hb.symm.trans hb'
  · cases he.symm.trans he'
    exact h
  · cases he.symm.trans hv

/-- COMMIT answers the letter that a check of a table reports. -/
theorem exec_commit_of_letter_error {s : State} {c : StatusCode} {x : Letter} (hk : s.Building)
    (hb : s.status.buildErr = false) (he : validate s.key = .error ⟨c, letterByte x⟩) :
    exec .commit s = .next (s.replied (reply c.code.toNat x.val)) := by
  rw [exec_commit_of_error hk hb he, letterByte_toNat]

/-- COMMIT of a valid key being built without a build error locks it. -/
theorem exec_commit_of_valid {s : State} (hk : s.Building) (hb : s.status.buildErr = false) (hv : s.key.Valid) :
    exec .commit s = .next ({ s with status := { s.status with keyValid := true } }.replied (reply 0 0)) := by
  have hok := (validate_eq_ok_iff s.key).2 hv
  obtain ⟨hk', -⟩ | ⟨-, hb', -⟩ | ⟨-, -, e, he, -⟩ | ⟨-, -, -, h⟩ := execCommit_cases s
  · cases hk.symm.trans hk'
  · cases hb.symm.trans hb'
  · cases hok.symm.trans he
  · exact h

/-- Validation of a key that is not valid reports an error. -/
theorem validate_eq_error_of_not_valid {key : KeyStore} (hv : ¬ key.Valid) : ∃ e, validate key = .error e := by
  cases h : validate key with
  | error e => exact ⟨e, rfl⟩
  | ok u => exact absurd ((validate_eq_ok_iff key).1 h) hv

/-- The codes of a failed validation, as numbers (R124). -/
theorem code_of_validate_error {key : KeyStore} {e : ErrorReport} (h : validate key = .error e) :
    e.code.code.toNat = 0x10 ∨ e.code.code.toNat = 0x11 ∨ e.code.code.toNat = 0x12 ∨ e.code.code.toNat = 0x13 := by
  obtain h | h | h | h := validate_error h <;> rw [h] <;> decide

/-- Settles O29: each clause runs the checks before the failing one, which pass, and then the failing one. -/
theorem commitReportsTheFirstFailure : Obligations.CommitReportsTheFirstFailure := by
  refine fun s hk hb => ⟨exec_commit_of_valid hk hb, fun k slot hlt hs hp hfirst => ?_, fun hrotors =>
    ⟨fun x hx hfirst => ?_, fun hrefl => ⟨fun x hpol hx hfirst => ?_, fun hfixed x hx hfirst => ?_⟩⟩⟩
  · have hv : validate s.key = .error ⟨.errRotorNotPerm, BitVec.ofNat 8 k⟩ := by
      rw [validate, checkRotors_of_first hlt hs hp hfirst, error_bind]
    have hdata : (BitVec.ofNat 8 k).toNat = k := Nat.mod_eq_of_lt (hlt.trans s.key.rotorCount.isLt)
    rw [exec_commit_of_error hk hb hv, hdata]
    rfl
  · have hv : validate s.key = .error ⟨.errReflNotInvol, letterByte x⟩ := by
      rw [validate, checkRotors_of_permutations hrotors, ok_bind, checkReflector_of_first hx hfirst, error_bind]
    exact exec_commit_of_letter_error (c := .errReflNotInvol) hk hb hv
  · have hv : validate s.key = .error ⟨.errReflFixed, letterByte x⟩ := by
      rw [validate, checkRotors_of_permutations hrotors, ok_bind, checkReflector_of_involution hrefl, ok_bind,
        checkReflectorFixed_of_first hpol hx hfirst, error_bind]
    exact exec_commit_of_letter_error (c := .errReflFixed) hk hb hv
  · have hv : validate s.key = .error ⟨.errPlugNotInvol, letterByte x⟩ := by
      rw [validate, checkRotors_of_permutations hrotors, ok_bind, checkReflector_of_involution hrefl, ok_bind,
        checkReflectorFixed_of_noFixed hfixed, ok_bind, checkPlugboard_of_first hx hfirst]
    exact exec_commit_of_letter_error (c := .errPlugNotInvol) hk hb hv

/-- Settles O28, by the cases of the lock, of BUILD_ERR and of the key's validity. -/
theorem commitRule : Obligations.CommitRule := by
  refine ⟨noOperandWord_of_form (op := .commit) rfl, fun s => ⟨exec_commit_of_locked, exec_commit_of_buildErr,
    exec_commit_of_valid, fun hk hb hv => ?_⟩⟩
  obtain ⟨e, he⟩ := validate_eq_error_of_not_valid hv
  exact ⟨_, _, code_of_validate_error he, e.data.isLt, exec_commit_of_error hk hb he⟩

/-! ### KEY_CLEAR and UNLOCK (R80, R81) -/

theorem exec_keyClear (s : State) :
    exec .keyClear s = .next ({ s with
      key := KeyStore.reset s.maxRotors s.rom
      status := { s.status with keyValid := false, buildErr := false } }.replied (reply 0 0)) :=
  congrArg Host.Outcome.next (respond_eq_replied ..)

/-- A rotor slot of the reset key store holds the identity and zeros (R34). -/
theorem reset_slot_values {n : Nat} {rom : StdRom} {slot : RotorSlot} (h : slot ∈ (KeyStore.reset n rom).slots) :
    (∀ i : Letter, slot.wiring[i] = i) ∧ slot.notch = 0 ∧ slot.pos = 0 ∧ slot.ring = 0 := by
  cases List.eq_of_mem_replicate h
  exact ⟨identityTable_get, rfl, rfl, rfl⟩

/-- Settles O25: the key store after KEY_CLEAR is the reset one. -/
theorem keyClearRule : Obligations.KeyClearRule :=
  ⟨noOperandWord_of_form (op := .keyClear) rfl, fun s => ⟨KeyStore.reset s.maxRotors s.rom, exec_keyClear s, rfl,
    reset_maxRotors .., fun _ => reset_slot_values, rfl, identityTable_get, rfl⟩⟩

/-- Settles O27: UNLOCK only clears KEY_VALID and answers. -/
theorem unlockRule : Obligations.UnlockRule :=
  ⟨noOperandWord_of_form (op := .unlock) rfl, fun _ => congrArg Host.Outcome.next (respond_eq_replied ..)⟩

end Machine

end Sys2Proof

/-! ## Proofs of the pipeline family (42_pipeline.md): R87 to R99 -/

namespace Sys2Proof

namespace Machine

/-! ### The checks of a pipeline command (R87) -/

/-- The pipeline opcodes are 0x50 to 0x55 (R87). -/
theorem commandClass_eq_pipeline_iff (op : Opcode) :
    op.commandClass = .pipeline ↔ 0x50 ≤ op.byte.toNat ∧ op.byte.toNat ≤ 0x55 := by cases op <;> decide

theorem runPipeline_of_ok {s : State} (data : Byte) (h : s.PipelineReady) :
    runPipeline (.ok data) s = .next (s.replied (reply 0 data.toNat)) := runPipeline_of_ready _ h

/-- An operand out of range is field B's, and only answered (R87, R124). -/
theorem runPipeline_of_range {s : State} (h : s.PipelineReady) :
    runPipeline (.error ⟨.errRange, fieldNumber .B⟩) s = .next (s.replied (reply 0x05 3)) :=
  (runPipeline_of_ready _ h).trans (congrArg Host.Outcome.next (raiseError_of_plain s (by decide) (by decide)))

/-- An inverse miss sets FAULT and answers its slot (R91). -/
theorem runPipeline_of_miss {s : State} {e : ErrorReport} (h : s.PipelineReady) (he : e.code = .faultInverseMiss) :
    runPipeline (.error e) s = .next (s.faulted.replied (reply 0x20 e.data.toNat)) := by
  obtain ⟨c, d⟩ := e
  cases he
  exact (runPipeline_of_ready _ h).trans (congrArg Host.Outcome.next (raiseError_of_miss ..))

/-- Every pipeline command checks FAULT first. -/
theorem exec_pipeline_of_fault {i : Instr} {s : State} (hi : i.commandClass = .pipeline)
    (hf : s.status.fault = true) : exec i s = .next (s.replied (reply 0x07 0)) := by
  obtain ⟨body, h, -⟩ := exec_pipeline i s hi
  rw [h, runPipeline_of_fault body hf]

/-- Every pipeline command checks the key next. -/
theorem exec_pipeline_of_noKey {i : Instr} {s : State} (hi : i.commandClass = .pipeline)
    (hf : s.status.fault = false) (hk : s.Building) : exec i s = .next (s.replied (reply 0x04 0)) := by
  obtain ⟨body, h, -⟩ := exec_pipeline i s hi
  rw [h, runPipeline_of_noKey body hf hk]

/-- Every pipeline command then checks its operand. -/
theorem exec_pipeline_of_not_wellFormed {i : Instr} {s : State} (hi : i.commandClass = .pipeline)
    (hr : s.PipelineReady) (hwf : i.wellFormed s.maxRotors = false) :
    exec i s = .next (s.replied (reply 0x05 3)) := by
  obtain ⟨body, h, hbody⟩ := exec_pipeline i s hi
  rw [h, hbody.refuses hwf, runPipeline_of_range hr]

/-- With its checks passed, a pipeline command answers a byte or misses an inverse. -/
theorem exec_pipeline_of_wellFormed {i : Instr} {s : State} (hi : i.commandClass = .pipeline)
    (hr : s.PipelineReady) (hwf : i.wellFormed s.maxRotors = true) :
    (∃ data : Nat, data < 256 ∧ exec i s = .next (s.replied (reply 0 data))) ∨
    (∃ k : Nat, k < 256 ∧ exec i s = .next (s.faulted.replied (reply 0x20 k))) := by
  obtain ⟨body, h, hbody⟩ := exec_pipeline i s hi
  cases hb : body with
  | ok data => exact .inl ⟨_, data.isLt, by rw [h, hb, runPipeline_of_ok data hr]⟩
  | error e =>
    obtain ⟨hmiss, -⟩ := hbody.misses e hwf hb
    exact .inr ⟨_, e.data.isLt, by rw [h, hb, runPipeline_of_miss hr hmiss]⟩

/-- A reserved field of a pipeline command is only answered: BUILD_ERR is for configuration commands (R62, R87). -/
theorem executeWord_pipeline_reserved {w : Word} {op : Opcode} {f : Field} (s : State)
    (hd : decode w = .reserved op f) (hc : op.commandClass = .pipeline) :
    executeWord w s = .next (s.replied (reply 0x02 (fieldNumber f).toNat)) := by
  obtain ⟨ho, hr⟩ := fields_of_reserved hd
  rw [executeWord_of_reserved s ho hr, hc, refusedReserved_of_plain _ (by simp)]

/-- Settles O31, from what a pipeline command can do. -/
theorem pipelineChecksComeInOrder : Obligations.PipelineChecksComeInOrder := by
  refine ⟨commandClass_eq_pipeline_iff, fun w op f s hd hc => ?_, fun i s hi => ⟨exec_pipeline_of_fault hi,
    exec_pipeline_of_noKey hi, exec_pipeline_of_not_wellFormed hi, exec_pipeline_of_wellFormed hi⟩⟩
  obtain ⟨hf1, hf3⟩ := fieldNumber_mem f
  exact ⟨_, hf1, hf3, executeWord_pipeline_reserved s hd hc⟩

/-! ### One rotor (R89, R91) -/

/-- The entry of a rotor, over naturals kept positive by adding 26. -/
theorem entry_eq_ofNat (slot : RotorSlot) (v : Letter) :
    slot.entry v = Fin.ofNat 26 (v.val + 26 + slot.pos.val - slot.ring.val) := by
  apply Fin.ext
  have h := mod26_val ((v.val : Int) + slot.offset)
  simp only [RotorSlot.offset] at h
  simp only [RotorSlot.entry, RotorSlot.offset, Fin.val_ofNat]
  omega

/-- The exit of a rotor, over naturals kept positive by adding 26. -/
theorem exit_eq_ofNat (slot : RotorSlot) (o : Letter) :
    slot.exit o = Fin.ofNat 26 (o.val + 26 + slot.ring.val - slot.pos.val) := by
  apply Fin.ext
  have h := mod26_val ((o.val : Int) - slot.offset)
  simp only [RotorSlot.offset] at h
  simp only [RotorSlot.exit, RotorSlot.offset, Fin.val_ofNat]
  omega

/-- One rotor of the forward pass, by its entry and exit. -/
theorem forward_eq_ofNat (slot : RotorSlot) (v : Letter) :
    slot.forward v = Fin.ofNat 26
      ((slot.wiring[Fin.ofNat 26 (v.val + 26 + slot.pos.val - slot.ring.val)]).val + 26 + slot.ring.val
        - slot.pos.val) := by
  rw [RotorSlot.forward, exit_eq_ofNat, get_congr _ (entry_eq_ofNat slot v)]

/-- The search of a rotor finds the smallest index of its entry. -/
theorem backward_of_first {slot : RotorSlot} {v j : Letter} (k : Nat) (hj : slot.wiring[j] = slot.entry v)
    (hfirst : ∀ j' : Letter, j' < j → slot.wiring[j'] ≠ slot.entry v) :
    slot.backward k v = .ok (slot.exit j) := by
  have hsome : findInverse slot.wiring (slot.entry v) = some j :=
    (letters_find_eq_some_iff _ j).2 ⟨beq_iff_eq.2 hj, fun j' hlt => beq_eq_false_iff_ne.2 (hfirst j' hlt)⟩
  rw [RotorSlot.backward, hsome]

/-- A rotor in whose wiring the entry is missing faults with its slot number. -/
theorem backward_of_miss {slot : RotorSlot} {v : Letter} (k : Nat)
    (hmiss : ∀ j : Letter, slot.wiring[j] ≠ slot.entry v) :
    slot.backward k v = .error ⟨.faultInverseMiss, BitVec.ofNat 8 k⟩ := by
  have hnone : findInverse slot.wiring (slot.entry v) = none :=
    (letters_find_eq_none_iff _).2 fun j => beq_eq_false_iff_ne.2 (hmiss j)
  rw [RotorSlot.backward, hnone]

/-! ### The rotor passes, by the last active slot (R89, R91) -/

theorem activeSlots_of_zero {key : KeyStore} (h : key.rotorCount = 0#8) : key.activeSlots = [] := by
  rw [KeyStore.activeSlots, h]
  rfl

/-- The key store with its first `n` slots active. -/
def KeyStore.withCount (key : KeyStore) (n : Nat) : KeyStore := { key with rotorCount := BitVec.ofNat 8 n }

theorem activeSlots_withCount_length {key : KeyStore} {n : Nat} (hn : n < 256) (hs : n ≤ key.slots.length) :
    (key.withCount n).activeSlots.length = n := by
  have hcount : (BitVec.ofNat 8 n).toNat = n := Nat.mod_eq_of_lt hn
  rw [KeyStore.activeSlots, List.length_take, KeyStore.withCount, hcount, Nat.min_eq_left hs]

section LastSlot

variable {key : KeyStore} {n : Nat} {slot : RotorSlot} (hn : key.rotorCount.toNat = n + 1)
  (hs : key.slots[n]? = some slot)

include hn hs

/-- The forward pass meets the last active slot last. -/
theorem fwdPass_succ (v : Letter) : fwdPass key v = slot.forward (fwdPass (key.withCount n) v) := by
  rw [fwdPass, activeSlots_succ hn hs, List.foldl_append]
  rfl

/-- The backward pass meets the last active slot first. -/
theorem bwdPass_succ (v : Letter) : bwdPass key v = (slot.backward n v >>= bwdPass (key.withCount n)) := by
  have hlt := key.rotorCount.isLt
  have hlen : (key.withCount n).activeSlots.length = n :=
    activeSlots_withCount_length (by omega) (Nat.le_of_lt (lt_of_getSlot hs))
  calc bwdPass key v
      = bwdSlots 0 ((key.withCount n).activeSlots ++ [slot]) v := by rw [bwdPass, activeSlots_succ hn hs]; rfl
    _ = (slot.backward n v >>= bwdPass (key.withCount n)) := by rw [bwdSlots_append, hlen, Nat.zero_add]; rfl

end LastSlot

/-- Settles O32: without active slots the pass is empty, and otherwise the last slot comes last. -/
theorem forwardPassFormula : Obligations.ForwardPassFormula := by
  refine fun key v => ⟨fun h => ?_, fun n slot hn hs u hu => ?_⟩
  · rw [fwdPass, activeSlots_of_zero h]
    rfl
  · subst hu
    exact congrArg Fin.val ((fwdPass_succ hn hs v).trans (forward_eq_ofNat slot _))

/-! ### The pipeline commands on one index (R93, R96 to R99) -/

/-- A pipeline command of form B that checks its letter and then runs `stage`, whose errors are inverse misses, follows
the rule of such commands. -/
theorem stageRule_of_exec {op : Opcode} {stage : KeyStore → Letter → Except ErrorReport Letter} (hf : op.form = .b)
    (hc : op.commandClass = .pipeline)
    (hexec : ∀ (v : Byte) (s : State), exec (op.command 0#8 0#8 v) s =
      runPipeline (checkLetter .B v >>= fun v => stage s.key v >>= fun o => pure (letterByte o)) s)
    (hmiss : ∀ {key : KeyStore} {v : Letter} {e : ErrorReport}, stage key v = .error e → e.code = .faultInverseMiss) :
    StageRule op.byte (op.command 0#8 0#8) stage := by
  refine ⟨hc ▸ operandBWord_of_form hf, fun v s => ⟨fun hfault => ?_, fun hfault hk => ?_, fun hr hv => ?_,
    fun hr hv o ho => ?_, fun hr hv e he => ?_⟩⟩ <;> rw [hexec]
  · exact runPipeline_of_fault _ hfault
  · exact runPipeline_of_noKey _ hfault hk
  · rw [checkLetter_of_ge hv, error_bind, runPipeline_of_range hr]
  · rw [checkLetter_of_lt hv, ok_bind, ho, ok_bind, pure_eq_ok, runPipeline_of_ok _ hr, letterByte_toNat]
  · rw [checkLetter_of_lt hv, ok_bind, he, error_bind, runPipeline_of_miss hr (hmiss he)]

/-- Settles O36: the four commands are one rule, each with its own stage. -/
theorem stageCommandsRule : Obligations.StageCommandsRule :=
  ⟨stageRule_of_exec (op := .stagePlug) rfl rfl (fun _ _ => rfl) (fun h => nomatch h),
    stageRule_of_exec (op := .stageFwd) rfl rfl (fun _ _ => rfl) (fun h => nomatch h),
    stageRule_of_exec (op := .stageRefl) rfl rfl (fun _ _ => rfl) (fun h => nomatch h),
    stageRule_of_exec (op := .stageBwd) rfl rfl (fun _ _ => rfl) bwdPass_error⟩

/-- Settles O33: the last slot comes first, and STAGE_BWD answers its miss by the rule of the stage commands. -/
theorem backwardPassFormula : Obligations.BackwardPassFormula := by
  refine ⟨fun key v => ⟨fun h => ?_, fun n slot hn hs => ?_⟩, fun v hv s k hr he => ?_⟩
  · rw [bwdPass, activeSlots_of_zero h]
    rfl
  · rw [bwdPass_succ hn hs, ← entry_eq_ofNat]
    refine ⟨fun j hj hfirst => ?_, fun hmiss => ?_⟩
    · rw [backward_of_first n hj hfirst, ok_bind, exit_eq_ofNat]
      rfl
    · rw [backward_of_miss n hmiss, error_bind]
  · obtain ⟨-, -, -, -, hrule⟩ := stageCommandsRule
    obtain ⟨-, -, -, -, hmiss⟩ := hrule v s
    exact hmiss hr hv _ he

/-! ### The whole pipeline E (R92) -/

/-- E is the five stages in order, its output the plugboard's, unless the backward pass faults. -/
theorem encipher_eq (key : KeyStore) (v : Letter) :
    encipher key v = match bwdPass key (key.refl[fwdPass key key.plug[v]]) with
      | .ok u => .ok key.plug[u]
      | .error e => .error e := by
  rw [encipher, plugStage, reflStage]
  cases bwdPass key (key.refl[fwdPass key key.plug[v]]) <;> rfl

/-- XLATE_INDEX runs E. -/
theorem xlateIndex_stageRule : StageRule 0x50#8 .xlateIndex encipher :=
  stageRule_of_exec (op := .xlateIndex) rfl rfl (fun _ _ => rfl) encipher_error

/-- Settles O34: E is R92's composition. -/
theorem xlateIndexRule : Obligations.XlateIndexRule := by
  have h := xlateIndex_stageRule
  rw [show encipher = _ from funext₂ encipher_eq] at h
  exact h

/-! ### One character (R94) -/

theorem classifyByte_of_space {key : KeyStore} {c : Byte} (hc : c.toNat = 0x20) (hp : key.policy.getLsbD 0 = true) :
    classifyByte key c = some (23, true) := by
  have hc' : c = 0x20#8 := BitVec.eq_of_toNat_eq hc
  rw [classifyByte, if_pos ⟨hp, hc'⟩]

/-- Without a space under SPACE_TO_X, the model's test for one fails. -/
theorem not_spaceToX_of_not_space {key : KeyStore} {c : Byte}
    (hs : ¬ (c.toNat = 0x20 ∧ key.policy.getLsbD 0 = true)) :
    ¬ (key.spaceToX = true ∧ c = 0x20#8) := fun ⟨hp, hc⟩ => hs ⟨hc ▸ rfl, hp⟩

theorem classifyByte_of_capital {key : KeyStore} {c : Byte} {i : Letter} (hc : c.toNat = 0x41 + i.val) :
    classifyByte key c = some (i, true) := by
  rw [classifyByte, if_neg (not_spaceToX_of_not_space (by omega)), dif_pos (by omega)]
  simp [hc]

theorem classifyByte_of_small {key : KeyStore} {c : Byte} {i : Letter} (hc : c.toNat = 0x61 + i.val) :
    classifyByte key c = some (i, false) := by
  rw [classifyByte, if_neg (not_spaceToX_of_not_space (by omega)), dif_neg (by omega), dif_pos (by omega)]
  simp [hc]

theorem classifyByte_of_other {key : KeyStore} {c : Byte} (hs : ¬ (c.toNat = 0x20 ∧ key.policy.getLsbD 0 = true))
    (hu : ¬ (0x41 ≤ c.toNat ∧ c.toNat ≤ 0x5A)) (hl : ¬ (0x61 ≤ c.toNat ∧ c.toNat ≤ 0x7A)) :
    classifyByte key c = none := by
  rw [classifyByte, if_neg (not_spaceToX_of_not_space hs), dif_neg hu, dif_neg hl]

theorem letterToAscii_toNat (v : Letter) (capital : Bool) :
    (letterToAscii v capital).toNat = (if capital then 0x41 else 0x61) + v.val := by
  have hv := v.isLt
  cases capital <;> simp [letterToAscii, BitVec.toNat_add] <;> omega

/-- XLATE_CHAR is the common behaviour of R87 over the transform of its byte. -/
theorem exec_xlateChar (c : Byte) (s : State) : exec (.xlateChar c) s = runPipeline (xlateByte s.key c) s := rfl

section ReadyChar

variable {s : State} {c : Byte} {i : Letter} {capital : Bool} (hr : s.PipelineReady)

include hr

/-- A byte processed as a letter answers E of it, in its case. -/
theorem exec_xlateChar_of_ok {o : Letter} (hc : classifyByte s.key c = some (i, capital))
    (ho : encipher s.key i = .ok o) :
    exec (.xlateChar c) s = .next (s.replied (reply 0 ((if capital then 0x41 else 0x61) + o.val))) := by
  have hbody : xlateByte s.key c = .ok (letterToAscii o capital) := by simp [xlateByte, hc, ho]
  rw [exec_xlateChar, hbody, runPipeline_of_ok _ hr, letterToAscii_toNat]

/-- A byte processed as a letter on which E faults, faults. -/
theorem exec_xlateChar_of_error {e : ErrorReport} (hc : classifyByte s.key c = some (i, capital))
    (he : encipher s.key i = .error e) :
    exec (.xlateChar c) s = .next (s.faulted.replied (reply 0x20 e.data.toNat)) := by
  have hbody : xlateByte s.key c = .error e := by simp [xlateByte, hc, he]
  rw [exec_xlateChar, hbody, runPipeline_of_miss hr (encipher_error he)]

/-- Every other byte passes through. -/
theorem exec_xlateChar_of_other (hc : classifyByte s.key c = none) :
    exec (.xlateChar c) s = .next (s.replied (reply 0 c.toNat)) := by
  have hbody : xlateByte s.key c = .ok c := by simp [xlateByte, hc]
  rw [exec_xlateChar, hbody, runPipeline_of_ok _ hr]

end ReadyChar

/-- Settles O35, by the class of the byte. -/
theorem xlateCharRule : Obligations.XlateCharRule := by
  refine ⟨operandBWord_of_form (op := .xlateChar) rfl, encipher_eq, fun c s => ⟨exec_pipeline_of_fault rfl,
    exec_pipeline_of_noKey rfl, fun hr o => ⟨fun hc hp ho => ?_, fun i hc ho => ?_, fun i hc ho => ?_⟩,
    fun hr i e hc he => ?_, fun hr hs hu hl => ?_⟩⟩
  · exact exec_xlateChar_of_ok hr (classifyByte_of_space hc hp) ho
  · exact exec_xlateChar_of_ok hr (classifyByte_of_capital hc) ho
  · exact exec_xlateChar_of_ok hr (classifyByte_of_small hc) ho
  · obtain ⟨hc, hp, rfl⟩ | hc | hc := hc
    · exact exec_xlateChar_of_error hr (classifyByte_of_space hc hp) he
    · exact exec_xlateChar_of_error hr (classifyByte_of_capital hc) he
    · exact exec_xlateChar_of_error hr (classifyByte_of_small hc) he
  · exact exec_xlateChar_of_other hr (classifyByte_of_other hs hu hl)

end Machine

end Sys2Proof

/-! ## Proofs of the read-back family (43_readback.md): R109 to R122 -/

namespace Sys2Proof

namespace Machine

/-! ### Words of the read forms (R49, R54) -/

section ReadWord

variable {op : Opcode} (hc : op.commandClass = .readBack)

include hc

/-- The words of a read opcode of form S. -/
theorem operandSWord_of_form (hf : op.form = .s) : OperandSWord op.byte fun k => op.command k 0#8 0#8 := by
  have hS : op.form.uses .S = true := by rw [hf]; rfl
  have hA : op.form.uses .A = false := by rw [hf]; rfl
  have hB : op.form.uses .B = false := by rw [hf]; rfl
  refine ⟨fun k => decode_wordOf fun f hu => ?_, fun k a b s ha => ?_, fun k b s hb => ?_⟩
  · cases f <;> simp [fieldOf, hS] at hu ⊢
  · rw [← hc]
    exact executeWord_wordOf_reserved s (reservedField_eq_A (.inr hS) (by simpa using ha) hA)
  · rw [← hc]
    exact executeWord_wordOf_reserved s (reservedField_eq_B (.inr hS) (.inl (by simp)) (by simpa using hb) hB)

/-- The words of a read opcode of form A. -/
theorem operandAWord_of_form (hf : op.form = .a) : OperandAWord op.byte fun a => op.command 0#8 a 0#8 := by
  have hS : op.form.uses .S = false := by rw [hf]; rfl
  have hA : op.form.uses .A = true := by rw [hf]; rfl
  have hB : op.form.uses .B = false := by rw [hf]; rfl
  refine ⟨fun a => decode_wordOf fun f hu => ?_, fun k a b s hk => ?_, fun a b s hb => ?_⟩
  · cases f <;> simp [fieldOf, hA] at hu ⊢
  · rw [← hc]
    exact executeWord_wordOf_reserved s (reservedField_eq_S (by simpa using hk) hS)
  · rw [← hc]
    exact executeWord_wordOf_reserved s (reservedField_eq_B (.inl (by simp)) (.inr hA) (by simpa using hb) hB)

/-- The words of a read opcode of form SA. -/
theorem operandSAWord_of_form (hf : op.form = .sa) : OperandSAWord op.byte fun k a => op.command k a 0#8 := by
  have hS : op.form.uses .S = true := by rw [hf]; rfl
  have hA : op.form.uses .A = true := by rw [hf]; rfl
  have hB : op.form.uses .B = false := by rw [hf]; rfl
  refine ⟨fun k a => decode_wordOf fun f hu => ?_, fun k a b s hb => ?_⟩
  · cases f <;> simp [fieldOf, hS, hA] at hu ⊢
  · rw [← hc]
    exact executeWord_wordOf_reserved s (reservedField_eq_B (.inr hS) (.inr hA) (by simpa using hb) hB)

end ReadWord

/-! ### What a read answers (R108) -/

section ReadAnswer

variable (s : State)

/-- An operand out of range is answered with the number of its field. -/
theorem runRead_of_range (f : Field) :
    runRead (.error ⟨.errRange, fieldNumber f⟩) s = .next (s.replied (reply 0x05 (fieldNumber f).toNat)) :=
  runRead_of_error s (by decide)

/-- A selector out of range, which is field S, is answered with the number of that field. -/
theorem runRead_of_selector :
    runRead (.error ⟨.errSelector, fieldNumber .S⟩) s = .next (s.replied (reply 0x06 1)) :=
  runRead_of_error s (by decide)

/-- A letter read is the DATA answered. -/
theorem runRead_letterByte (v : Letter) : runRead (.ok (letterByte v)) s = .next (s.replied (reply 0 v.val)) := by
  rw [runRead_of_ok, letterByte_toNat]

/-- A read of a slot the block does not have is refused, whatever it reads. -/
theorem runRead_checkSlot_of_ge {k : Byte} (rest : RotorSlot → Except ErrorReport Byte)
    (hk : s.maxRotors ≤ k.toNat) :
    runRead (checkSlot s.key k >>= rest) s = .next (s.replied (reply 0x05 1)) := by
  rw [checkSlot_of_ge (key := s.key) hk]
  exact runRead_of_range s .S

/-- A read of a standard rotor of a type the ROM does not have is refused, whatever it reads. -/
theorem runRead_checkRotorType_of_not {t : Byte} (rest : Fin 8 → Except ErrorReport Byte)
    (ht : t.toNat < 1 ∨ 8 < t.toNat) :
    runRead (checkRotorType .S t >>= rest) s = .next (s.replied (reply 0x06 1)) := by
  rw [checkRotorType_of_not ht]
  exact runRead_of_selector s

/-- The body of a read of one entry of a table, named in field A. -/
def readEntry (table : Table) (a : Byte) : Except ErrorReport Byte :=
  checkLetter .A a >>= fun i => pure (letterByte table[i])

theorem runRead_readEntry_of_ge (table : Table) {a : Byte} (ha : 26 ≤ a.toNat) :
    runRead (readEntry table a) s = .next (s.replied (reply 0x05 2)) := by
  rw [readEntry, checkLetter_of_ge ha]
  exact runRead_of_range s .A

theorem runRead_readEntry_of_lt (table : Table) {a : Byte} (ha : a.toNat < 26) :
    runRead (readEntry table a) s = .next (s.replied (reply 0 (table[(⟨a.toNat, ha⟩ : Letter)]).val)) := by
  rw [readEntry, checkLetter_of_lt ha]
  exact runRead_letterByte s _

end ReadAnswer

/-! ### NOP and the scalar registers (R109, R116 to R119) -/

/-- The STATUS byte is 4*BUILD_ERR + 2*FAULT + KEY_VALID (R118). -/
theorem status_byte_toNat (st : Status) :
    st.byte.toNat = (if st.buildErr = true then 4 else 0) + (if st.fault = true then 2 else 0) +
      (if st.keyValid = true then 1 else 0) := by
  obtain ⟨keyValid, fault, buildErr⟩ := st
  revert keyValid fault buildErr
  decide

/-- READ_STATUS answers its flags. -/
theorem exec_readStatus (s : State) : exec .readStatus s = .next (s.replied (reply 0
    ((if s.status.buildErr = true then 4 else 0) + (if s.status.fault = true then 2 else 0) +
      (if s.status.keyValid = true then 1 else 0)))) := by
  rw [← status_byte_toNat]
  exact runRead_of_ok s.status.byte s

/-- READ_MAX_ROTORS answers the number of slots, which fits in DATA by R8. -/
theorem exec_readMaxRotors {s : State} (h : s.maxRotors ≤ 255) :
    exec .readMaxRotors s = .next (s.replied (reply 0 s.maxRotors)) := by
  have hdata : (BitVec.ofNat 8 s.maxRotors).toNat = s.maxRotors := Nat.mod_eq_of_lt (Nat.lt_succ_of_le h)
  calc exec .readMaxRotors s
      = .next (s.replied (reply 0 (BitVec.ofNat 8 s.maxRotors).toNat)) := runRead_of_ok (BitVec.ofNat 8 s.maxRotors) s
    _ = .next (s.replied (reply 0 s.maxRotors)) := by rw [hdata]

/-- Settles O38: the five commands are reads with no operand. -/
theorem scalarReadsRule : Obligations.ScalarReadsRule :=
  ⟨noOperandWord_of_form (op := .nop) rfl, noOperandWord_of_form (op := .readRotorCount) rfl,
    noOperandWord_of_form (op := .readPolicy) rfl, noOperandWord_of_form (op := .readStatus) rfl,
    noOperandWord_of_form (op := .readMaxRotors) rfl,
    fun s => ⟨runRead_of_ok 0#8 s, runRead_of_ok s.key.rotorCount s, runRead_of_ok s.key.policy s, exec_readStatus s,
      exec_readMaxRotors⟩⟩

/-! ### The rotor slots (R110 to R113) -/

/-- READ_WIRING: the slot, then the entry of its wiring. -/
theorem exec_readWiring (k a : Byte) (s : State) :
    exec (.readWiring k a) s = runRead (checkSlot s.key k >>= fun slot => readEntry slot.wiring a) s := rfl

/-- A read command of form S that checks its slot and then answers one of its letters follows the rule of such
commands. -/
theorem slotReadRule_of_exec {op : Opcode} {read : RotorSlot → Letter} (hf : op.form = .s)
    (hc : op.commandClass = .readBack)
    (hexec : ∀ (k : Byte) (s : State), exec (op.command k 0#8 0#8) s =
      runRead (checkSlot s.key k >>= fun slot => pure (letterByte (read slot))) s) :
    SlotReadRule op.byte (fun k => op.command k 0#8 0#8) read := by
  refine ⟨operandSWord_of_form hc hf, fun k s => ⟨fun hk => ?_, fun slot hslot => ?_⟩⟩ <;> rw [hexec]
  · exact runRead_checkSlot_of_ge s _ hk
  · rw [checkSlot_of_get hslot]
    exact runRead_letterByte s _

/-- Settles O39: READ_WIRING by the cases of the slot and of the index, and the three registers by one rule. -/
theorem slotReadsRule : Obligations.SlotReadsRule := by
  refine ⟨⟨operandSAWord_of_form (op := .readWiring) rfl rfl, fun k a s =>
      ⟨fun hk => ?_, fun hk ha => ?_, fun slot hslot ha => ?_⟩⟩,
    slotReadRule_of_exec (op := .readNotch) rfl rfl fun _ _ => rfl,
    slotReadRule_of_exec (op := .readPosition) rfl rfl fun _ _ => rfl,
    slotReadRule_of_exec (op := .readRing) rfl rfl fun _ _ => rfl⟩ <;> rw [exec_readWiring]
  · exact runRead_checkSlot_of_ge s _ hk
  · obtain ⟨slot, -, h⟩ := checkSlot_of_lt (key := s.key) hk
    rw [h]
    exact runRead_readEntry_of_ge s slot.wiring ha
  · rw [checkSlot_of_get hslot]
    exact runRead_readEntry_of_lt s slot.wiring ha

/-! ### The reflector and the plugboard (R114, R115) -/

/-- A read command of form A that answers an entry of a table of the key store follows the rule of such commands. -/
theorem tableReadRule_of_exec {op : Opcode} {read : KeyStore → Table} (hf : op.form = .a)
    (hc : op.commandClass = .readBack)
    (hexec : ∀ (a : Byte) (s : State), exec (op.command 0#8 a 0#8) s = runRead (readEntry (read s.key) a) s) :
    TableReadRule op.byte (fun a => op.command 0#8 a 0#8) read := by
  refine ⟨operandAWord_of_form hc hf, fun a s => ⟨fun ha => ?_, fun ha => ?_⟩⟩ <;> rw [hexec]
  · exact runRead_readEntry_of_ge s _ ha
  · exact runRead_readEntry_of_lt s _ ha

/-- Settles O40: the two commands are one rule, each with its own table. -/
theorem tableReadsRule : Obligations.TableReadsRule :=
  ⟨tableReadRule_of_exec (op := .readRefl) rfl rfl fun _ _ => rfl,
    tableReadRule_of_exec (op := .readPlug) rfl rfl fun _ _ => rfl⟩

/-! ### The ROM (R120 to R122) -/

/-- READ_ROM_WIRING: the type, then the entry of its wiring. -/
theorem exec_readRomWiring (t a : Byte) (s : State) :
    exec (.readRomWiring t a) s =
      runRead (checkRotorType .S t >>= fun t => readEntry s.rom.rotors[t].wiring a) s := rfl

/-- READ_ROM_NOTCH: the type, then its notch. -/
theorem exec_readRomNotch (t : Byte) (s : State) :
    exec (.readRomNotch t) s =
      runRead (checkRotorType .S t >>= fun t => pure (letterByte s.rom.rotors[t].notch)) s := rfl

/-- READ_ROM_REFL: the selector, then the entry of its reflector. -/
theorem exec_readRomRefl (r a : Byte) (s : State) :
    exec (.readRomRefl r a) s =
      runRead (checkReflSelector .S r >>= fun r => readEntry s.rom.refls[r] a) s := rfl

/-- Settles O41, by the cases of the type or selector and then of the index. -/
theorem romReadsRule : Obligations.RomReadsRule := by
  refine ⟨operandSAWord_of_form (op := .readRomWiring) rfl rfl, operandSWord_of_form (op := .readRomNotch) rfl rfl,
    operandSAWord_of_form (op := .readRomRefl) rfl rfl, fun t a s => ⟨fun ht => ⟨?_, ?_⟩, fun ht1 ht8 ha => ?_,
      fun std ht1 hstd => ?_, fun ht => ?_, fun ht ha => ?_, fun table htable ha => ?_⟩⟩
  · exact runRead_checkRotorType_of_not s _ ht
  · exact runRead_checkRotorType_of_not s _ ht
  · rw [exec_readRomWiring, checkRotorType_of_mem ht1 ht8]
    exact runRead_readEntry_of_ge s _ ha
  · obtain ⟨ht8, rfl⟩ := Vector.getElem?_eq_some_iff.1 hstd
    rw [exec_readRomNotch, exec_readRomWiring, checkRotorType_of_mem ht1 (by omega)]
    exact ⟨runRead_letterByte s _, runRead_readEntry_of_lt s _⟩
  · rw [exec_readRomRefl, checkReflSelector_of_gt ht]
    exact runRead_of_selector s
  · rw [exec_readRomRefl, checkReflSelector_of_le ht]
    exact runRead_readEntry_of_ge s _ ha
  · obtain ⟨ht, rfl⟩ := Vector.getElem?_eq_some_iff.1 htable
    rw [exec_readRomRefl, checkReflSelector_of_le (Nat.le_of_lt_succ ht)]
    exact runRead_readEntry_of_lt s _ ha

end Machine

end Sys2Proof

/-! ## Proofs of the exceptions family (60_exceptions.md): R123 -/

namespace Sys2Proof

namespace Machine

/-! ### What a refused word does (R123) -/

/-- The state `t` after the word `w` is refused in `s` with the given STATUS and DATA: the response, and with it either
no flag, or BUILD_ERR on a configuration command of a key being built, or FAULT on an inverse miss (R13, R123). -/
inductive RefusalEffect (w : Word) (s : State) (status data : Nat) : State → Prop
  | answered : RefusalEffect w s status data (s.replied (reply status data))
  | buildFailed (building : s.Building) (code : status = 0x02 ∨ status = 0x05 ∨ status = 0x06)
      (config : ∃ op : Opcode, opField w = op.byte ∧ op.commandClass = .config) :
      RefusalEffect w s status data (s.buildFailed.replied (reply status data))
  | missed (code : status = 0x20) : RefusalEffect w s status data (s.faulted.replied (reply status data))

/-- The result of the word `w` in `s` is a next state with one more response, and where that response is not OK, the
state is what a refusal leaves. -/
def AnswersOrRefuses (w : Word) (s : State) (r : Result) : Prop :=
  ∃ (t : State) (status data : Nat), r = .next t ∧ t.responses = s.responses ++ [reply status data] ∧
    status < 256 ∧ data < 256 ∧ (status ≠ 0 → RefusalEffect w s status data t)

/-- An answer OK is no refusal, whatever the word wrote before it. -/
theorem answersOrRefuses_of_ok {w : Word} {s u : State} {data : Nat} (hu : u.responses = s.responses)
    (hd : data < 256) : AnswersOrRefuses w s (.next (u.replied (reply 0 data))) :=
  ⟨_, 0, data, rfl, by rw [replied_responses, hu], by decide, hd, fun h => absurd rfl h⟩

/-- The effect of a refusal, as a result. -/
theorem answersOrRefuses_of_refusal {w : Word} {s t : State} {status data : Nat} (ht : RefusalEffect w s status data t)
    (hs : status < 256) (hd : data < 256) : AnswersOrRefuses w s (.next t) :=
  ⟨t, status, data, rfl, by cases ht <;> rfl, hs, hd, fun _ => ht⟩

/-- A command answers OK or is refused with the effect of a refusal. -/
theorem exec_answersOrRefuses {w : Word} {i : Instr} (s : State) (hw : opField w = i.opcode.byte) :
    AnswersOrRefuses w s (exec i s) := by
  obtain ⟨status, data, hd, hs, h⟩ | ⟨-, -, key, -, h⟩ | ⟨hc, hk, status, data, hd, hs, h⟩ | ⟨-, -, k, hk, h⟩ |
    ⟨-, h⟩ | ⟨-, h⟩ | ⟨-, -, -, -, h⟩ := exec_cases i s <;> rw [h]
  · have hcodes : ∀ n ∈ [0x00, 0x02, 0x03, 0x04, 0x05, 0x06, 0x07, 0x10, 0x11, 0x12, 0x13, 0x14], n < 256 := by decide
    exact answersOrRefuses_of_refusal .answered (hcodes status hs) hd
  · exact answersOrRefuses_of_ok rfl (by decide)
  · exact answersOrRefuses_of_refusal (.buildFailed hk hs ⟨i.opcode, hw, hc⟩) (by omega) hd
  · exact answersOrRefuses_of_refusal (.missed rfl) (by decide) hk
  · exact answersOrRefuses_of_ok rfl (by decide)
  · exact answersOrRefuses_of_ok rfl (by decide)
  · exact answersOrRefuses_of_ok rfl (by decide)

/-- A refused reserved field has the effect of a refusal. -/
theorem refusedReserved_refusalEffect {w : Word} {op : Opcode} (s : State) (n : Nat) (ho : opField w = op.byte) :
    RefusalEffect w s 0x02 n (s.refusedReserved op.commandClass n) := by
  by_cases h : op.commandClass = .config ∧ s.Building
  · obtain ⟨hc, hk⟩ := h
    rw [hc, refusedReserved_of_building n hk]
    exact .buildFailed hk (.inl rfl) ⟨op, ho, hc⟩
  · rw [refusedReserved_of_plain n h]
    exact .answered

/-- A word answers OK or is refused with the effect of a refusal. -/
theorem executeWord_answersOrRefuses (w : Word) (s : State) : AnswersOrRefuses w s (executeWord w s) := by
  obtain ⟨-, h⟩ | ⟨op, f, ho, -, h⟩ | ⟨i, -, ho, h⟩ := executeWord_cases w s <;> rw [h]
  · exact answersOrRefuses_of_refusal .answered (by decide) (opField w).isLt
  · exact answersOrRefuses_of_refusal (refusedReserved_refusalEffect s _ ho) (by decide) (fieldNumber f).isLt
  · exact exec_answersOrRefuses s ho

/-- A word whose response is not OK leaves the state that a refusal with that response leaves. -/
theorem refusalEffect_of_response {w : Word} {s t : State} {status data : Nat} (ht : executeWord w s = .next t)
    (hs : status < 256) (hd : data < 256) (hr : t.responses = s.responses ++ [reply status data]) (h0 : status ≠ 0) :
    RefusalEffect w s status data t := by
  obtain ⟨t', status', data', ht', hr', hs', hd', heffect⟩ := executeWord_answersOrRefuses w s
  cases ht'.symm.trans ht
  have hreply : reply status' data' = reply status data := by simpa using hr'.symm.trans hr
  obtain ⟨rfl, rfl⟩ := reply_inj hs' hd' hs hd hreply
  exact heffect h0

/-- Settles O12, by the three effects a refusal can have. -/
theorem refusedCommandsChangeOnlyTwoFlags : Obligations.RefusedCommandsChangeOnlyTwoFlags := by
  intro w s t status data ht hs hd hr h0
  cases refusalEffect_of_response ht hs hd hr h0 with
  | answered => exact ⟨⟨_, _, rfl⟩, fun h => absurd rfl h, fun h => absurd rfl h⟩
  | buildFailed hk hcode hconfig => exact ⟨⟨_, _, rfl⟩, fun h => absurd rfl h, fun _ => ⟨rfl, hk, hcode, hconfig⟩⟩
  | missed hcode => exact ⟨⟨_, _, rfl⟩, fun _ => ⟨hcode, rfl⟩, fun h => absurd rfl h⟩

end Machine

end Sys2Proof

/-! ## Proofs of the reset family (70_reset_and_hazards.md): R139 -/

namespace Sys2Proof

namespace Machine

/-- A reset applies the reset input, whatever command it cuts off (R139). -/
theorem takeMove_reset (cutOff : Option Word) (s : State) : takeMove (.reset cutOff) s = .next (applyReset s) := rfl

/-- Settles O9: the key store after the reset input is the reset one, and so are the flags. -/
theorem resetRestoresTheResetState : Obligations.ResetRestoresTheResetState := by
  intro s cutOff
  refine ⟨applyReset s, takeMove_reset cutOff s, ?_⟩
  rw [applyReset_maxRotors, applyReset_key]
  exact ⟨rfl, rfl, fun _ => reset_slot_values, rfl, identityTable_get, rfl, applyReset_status s, applyReset_rom s,
    applyReset_responses s⟩

end Machine

end Sys2Proof

/-! ## Proofs of the statements on encodings and runs (20_memory.md, 30_encoding.md): R42, R54, R57, R60 -/

namespace Sys2Proof

/-! ### Encoding and decoding (R57, R60) -/

/-- Settles O3, by the encoder's fields. -/
theorem decodeOfEncodeIsTheCommand : Obligations.DecodeOfEncodeIsTheCommand := decode_encode

/-- Settles O4: the unused fields of a command's word are 0, so its operands are the whole word. -/
theorem commandWordsEncodeBack : Obligations.CommandWordsEncodeBack := fun _ _ => encode_of_decode

/-! ### The mask and match of a form (R49, R57) -/

/-- The byte a mask holds over a field: zeros where the form uses it. -/
def Form.maskByte (form : Form) (f : Field) : Byte := if form.uses f then 0#8 else BitVec.allOnes 8

theorem mask_eq_wordOf (form : Form) :
    form.mask = wordOf (BitVec.allOnes 8) (form.maskByte .S) (form.maskByte .A) (form.maskByte .B) := by
  cases form <;> decide

theorem wordOf_and_wordOf (op k a b op' k' a' b' : Byte) :
    wordOf op k a b &&& wordOf op' k' a' b' = wordOf (op &&& op') (k &&& k') (a &&& a') (b &&& b') := by
  rw [wordOf, wordOf, wordOf, ← BitVec.and_append, ← BitVec.and_append, ← BitVec.and_append]

/-- A field under its mask is 0 exactly when the form uses it or it is 0. -/
theorem and_maskByte_eq_zero_iff (form : Form) (f : Field) (b : Byte) :
    b &&& form.maskByte f = 0#8 ↔ (form.uses f = false → b = 0#8) := by
  unfold Form.maskByte
  split
  · next h => simp [h]
  · next h => rw [BitVec.and_allOnes]; simp [h]

/-- A word meets the mask and match of a row exactly when it has the row's OP and no reserved field set. -/
theorem and_mask_eq_iff (w : Word) (op : Opcode) :
    w &&& op.form.mask = wordOf op.byte 0#8 0#8 0#8 ↔ opField w = op.byte ∧ reservedField op.form w = none := by
  have hw : w &&& op.form.mask = wordOf (opField w) (sField w &&& op.form.maskByte .S)
      (aField w &&& op.form.maskByte .A) (bField w &&& op.form.maskByte .B) := by
    conv_lhs => rw [← wordOf_fields w, mask_eq_wordOf, wordOf_and_wordOf, BitVec.and_allOnes]
  rw [hw, wordOf_inj, and_maskByte_eq_zero_iff, and_maskByte_eq_zero_iff, and_maskByte_eq_zero_iff,
    reservedField_none]
  refine and_congr_right fun _ => ⟨?_, fun h => ⟨h .S, h .A, h .B⟩⟩
  rintro ⟨hS, hA, hB⟩ (_ | _ | _)
  exacts [hS, hA, hB]

/-- OP bytes tell opcodes apart. -/
theorem byte_injective {op op' : Opcode} (h : op.byte = op'.byte) : op = op' := by
  simpa using congrArg opcodeOf h

/-- A word decodes to the command of a row exactly when it has the row's OP and no reserved field set. -/
theorem decode_eq_row_command_iff (w : Word) (op : Opcode) :
    decode w = .command (op.command (sField w) (aField w) (bField w)) ↔
      opField w = op.byte ∧ reservedField op.form w = none := by
  rw [decode_eq_command_iff]
  constructor
  · rintro ⟨op', ho, hr, hc⟩
    have hop : op' = op := by simpa using congrArg Instr.opcode hc
    exact hop ▸ ⟨ho, hr⟩
  · exact fun ⟨ho, hr⟩ => ⟨op, ho, hr, rfl⟩

/-- Settles O5: mask and match say that the OP is the row's and no reserved field is set, which the decoder tests. -/
theorem decoderIsTheMaskTable : Obligations.DecoderIsTheMaskTable := by
  refine fun w => ⟨fun op => ?_, fun op op' h h' => ?_, fun op ho hne => ?_⟩
  · rw [and_mask_eq_iff, decode_eq_row_command_iff]
  · obtain ⟨ho, -⟩ := (and_mask_eq_iff w op).1 h
    obtain ⟨ho', -⟩ := (and_mask_eq_iff w op').1 h'
    exact byte_injective (ho.symm.trans ho')
  · cases hr : reservedField op.form w with
    | none => exact absurd ((and_mask_eq_iff w op).2 ⟨ho, hr⟩) hne
    | some f =>
      obtain ⟨hnonzero, hunused⟩ := reservedField_some hr
      exact ⟨f, hnonzero, hunused, f, by simp [decode_of_opcode ho, hr]⟩

namespace Machine

/-- Settles O7: the decoder names the first reserved field, and the port refuses it. -/
theorem reservedFieldsAnswerReserved : Obligations.ReservedFieldsAnswerReserved := fun _ _ s ho =>
  ⟨fun hw hu => executeWord_of_reserved s ho (reservedField_eq_S hw hu),
    fun hS hw hu => executeWord_of_reserved s ho (reservedField_eq_A hS hw hu),
    fun hS hA hw hu => executeWord_of_reserved s ho (reservedField_eq_B hS hA hw hu)⟩

/-- Settles O2: the four encodings are computed, their decodings follow, and the two refusals are those of a reserved
field B and of an unassigned OP. -/
theorem workedEncodingExamples : Obligations.WorkedEncodingExamples := by
  have hwrite : encode (.writeWiring 2#8 7#8 16#8) = 0x13020710#32 := by decide
  have hchar : encode (.xlateChar 0x61#8) = 0x51000061#32 := by decide
  have hcount : encode (.setRotorCount 3#8) = 0x10000003#32 := by decide
  have hcommit : encode .commit = 0x03000000#32 := by decide
  refine ⟨hwrite ▸ decode_encode _, hchar ▸ decode_encode _, hcount ▸ decode_encode _, hcommit ▸ decode_encode _,
    hwrite, hchar, hcount, hcommit, fun s => ?_, fun s => ?_⟩
  · exact (executeWord_of_reserved (op := .commit) (f := .B) s (by decide) (by decide)).trans
      (congrArg Host.Outcome.next (refusedReserved_of_plain 3 (by simp [Opcode.commandClass])))
  · exact executeWord_of_unassigned s (by decide)

/-! ### Words one at a time (R42) -/

/-- Settles O8: a step takes the oldest move, and a word that decodes to a command runs it. -/
theorem stepRunsTheDecodedCommand : Obligations.StepRunsTheDecodedCommand := by
  refine ⟨fun s w rest i hp hd => ?_, fun _ _ _ => step_of_cons, fun _ _ _ => step_of_cons, fun _ => step_of_empty⟩
  rw [step_of_cons hp, takeMove, executeWord, hd]

/-- A run of one more step ends with that step. -/
theorem run_succ_of_run {n : Nat} {s t u : State} (h : Host.Core.run Sys2Proof.core n s = .next t)
    (hu : step t = .next u) : Host.Core.run Sys2Proof.core (n + 1) s = .next u := by
  induction n generalizing s with
  | zero =>
    cases h
    exact run_succ 0 hu
  | succ n ih =>
    obtain ⟨s', hs'⟩ := step_next s
    rw [run_succ n hs'] at h
    rw [run_succ _ hs']
    exact ih h

/-- A step whose oldest move is a word leaves the moves behind it and gives one response. -/
theorem step_of_send {s : State} {w : Word} {rest : List HostMove} (hp : s.pending = .send w :: rest) :
    ∃ (t : State) (r : Word), executeWord w { s with pending := rest } = .next t ∧ step s = .next t ∧
      t.pending = rest ∧ t.responses = s.responses ++ [r] := by
  obtain ⟨t, status, data, ht, hr, -, -, hpend, -⟩ := executeWord_answersOnce w { s with pending := rest }
  exact ⟨t, _, ht, (step_of_cons hp).trans ht, hpend, hr⟩

/-- A run over words takes them all, leaves the moves behind them and gives one response each. -/
theorem run_words (ws : List Word) {s : State} {rest : List HostMove}
    (hp : s.pending = ws.map HostMove.send ++ rest) :
    ∃ (t : State) (rs : List Word), Host.Core.run Sys2Proof.core ws.length s = .next t ∧ t.pending = rest ∧
      t.responses = s.responses ++ rs ∧ rs.length = ws.length := by
  induction ws generalizing s with
  | nil => exact ⟨s, [], rfl, hp, (List.append_nil _).symm, rfl⟩
  | cons w ws ih =>
    obtain ⟨s', r, -, hstep, hpend, hresp⟩ := step_of_send hp
    obtain ⟨t, rs, hrun, htp, htr, hlen⟩ := ih hpend
    exact ⟨t, r :: rs, (run_succ _ hstep).trans hrun, htp, by simp [htr, hresp], by simp [hlen]⟩

/-- Settles O11, by induction over the words taken; the next word is the next step. -/
theorem runAnswersEveryWordInOrder : Obligations.RunAnswersEveryWordInOrder := by
  intro ws ws' s hp
  obtain ⟨t, rs, hrun, hpend, hresp, hlen⟩ := run_words ws (hp.trans List.map_append)
  refine ⟨t, rs, hrun, hpend, hresp, hlen, ?_⟩
  rintro w rest rfl
  obtain ⟨u, r, hu, hstep, -, hur⟩ := step_of_send hpend
  exact ⟨u, r, hu, hur, run_succ_of_run hrun hstep⟩

end Machine

end Sys2Proof

/-! ## Proofs of the laws of the pipeline (42_pipeline.md, section 4): R91, R100 to R103, R106, R107, R144 -/

namespace Sys2Proof

namespace Machine

/-! ### The inverse search (R47, R91) -/

/-- A table with an inverse table is a permutation. -/
theorem isPermutation_of_inverse {t inv : Table} (h : ∀ j : Letter, inv[t[j]] = j) : IsPermutation t := by
  have hinj : Function.Injective fun j : Letter => t[j] := fun i j hij => by
    rw [← h i, ← h j]
    exact get_congr inv hij
  exact Finite.injective_iff_surjective.1 hinj

/-- The search finds the smallest index of the entry. -/
theorem findInverse_eq_some_iff (t : Table) (e j : Letter) :
    findInverse t e = some j ↔ t[j] = e ∧ ∀ j' : Letter, j' < j → t[j'] ≠ e := by
  simp only [findInverse, letters_find_eq_some_iff, beq_iff_eq, beq_eq_false_iff_ne]

theorem findInverse_eq_none_iff (t : Table) (e : Letter) : findInverse t e = none ↔ ∀ j : Letter, t[j] ≠ e := by
  simp only [findInverse, letters_find_eq_none_iff, beq_eq_false_iff_ne]

/-- Settles O59: a table with an inverse is a permutation, in which the search is the inverse. -/
theorem inverseTableGivesTheSearch : Obligations.InverseTableGivesTheSearch := by
  refine fun t e => ⟨findInverse_eq_some_iff t e, findInverse_eq_none_iff t e, fun inv hinv => ?_⟩
  have hperm := isPermutation_of_inverse hinv
  obtain ⟨j, rfl⟩ := hperm e
  rw [findInverse_of_isPermutation hperm j, hinv j]

/-! ### One rotor (R100) -/

/-- A permutation's backward map undoes its forward map. -/
theorem backward_forward {slot : RotorSlot} (h : IsPermutation slot.wiring) (k : Nat) (v : Letter) :
    slot.backward k (slot.forward v) = .ok v := by
  have hentry : slot.entry (slot.forward v) = slot.wiring[slot.entry v] := entry_exit ..
  rw [RotorSlot.backward, hentry, findInverse_of_isPermutation h]
  exact congrArg Except.ok (exit_entry slot v)

/-- A permutation's backward map finds the letter its forward map takes to the given one. -/
theorem exists_backward_eq {slot : RotorSlot} (h : IsPermutation slot.wiring) (k : Nat) (v : Letter) :
    ∃ u : Letter, slot.backward k v = .ok u ∧ slot.forward u = v := by
  obtain ⟨j, hj⟩ := h (slot.entry v)
  have hforward : slot.forward (slot.exit j) = v := by
    rw [RotorSlot.forward, get_congr _ (entry_exit slot j), hj, exit_entry]
  exact ⟨slot.exit j, hforward ▸ backward_forward h k (slot.exit j), hforward⟩

/-- The slot with what its two maps depend on, and no more: the wiring and the offset POS - RING. -/
def RotorSlot.normal (slot : RotorSlot) : RotorSlot :=
  { wiring := slot.wiring, notch := 0, pos := slot.pos - slot.ring, ring := 0 }

theorem normal_entry (slot : RotorSlot) (v : Letter) : slot.normal.entry v = slot.entry v := by
  rw [entry_eq, entry_eq, RotorSlot.normal, sub_zero]

theorem normal_exit (slot : RotorSlot) (o : Letter) : slot.normal.exit o = slot.exit o := by
  rw [exit_eq, exit_eq, RotorSlot.normal, sub_zero]

@[simp] theorem normal_forward (slot : RotorSlot) (v : Letter) : slot.normal.forward v = slot.forward v := by
  rw [RotorSlot.forward, RotorSlot.forward, normal_exit, get_congr _ (normal_entry slot v)]
  rfl

@[simp] theorem normal_backward (slot : RotorSlot) (k : Nat) (v : Letter) :
    slot.normal.backward k v = slot.backward k v := by
  simp only [RotorSlot.backward, normal_entry, normal_exit]
  rfl

/-! ### What the passes depend on (R21, R24, R100, R107) -/

theorem foldl_forward_normal (slots : List RotorSlot) (v : Letter) :
    (slots.map RotorSlot.normal).foldl (fun v slot => slot.forward v) v =
      slots.foldl (fun v slot => slot.forward v) v := by
  simp only [List.foldl_map, normal_forward]

theorem bwdSlots_normal (k : Nat) (slots : List RotorSlot) (v : Letter) :
    bwdSlots k (slots.map RotorSlot.normal) v = bwdSlots k slots v := by
  induction slots generalizing k with
  | nil => rfl
  | cons slot slots ih => simp only [List.map_cons, bwdSlots, ih, normal_backward]

/-- The rotors of two key stores are alike: as many active slots, with the same wirings and offsets in order. -/
def KeyStore.SameRotors (key key' : KeyStore) : Prop :=
  key.activeSlots.map RotorSlot.normal = key'.activeSlots.map RotorSlot.normal

section SameRotors

variable {key key' : KeyStore} (h : key.SameRotors key')

include h

theorem fwdPass_congr (v : Letter) : fwdPass key v = fwdPass key' v := by
  rw [fwdPass, fwdPass, ← foldl_forward_normal, h, foldl_forward_normal]

theorem bwdPass_congr (v : Letter) : bwdPass key v = bwdPass key' v := by
  rw [bwdPass, bwdPass, ← bwdSlots_normal, h, bwdSlots_normal]

/-- With the same reflector and plugboard too, E is the same. -/
theorem encipher_congr (hrefl : key.refl = key'.refl) (hplug : key.plug = key'.plug) (v : Letter) :
    encipher key v = encipher key' v := by
  simp only [encipher, plugStage, reflStage, fwdPass_congr h, bwdPass_congr h, hrefl, hplug]

end SameRotors

/-- Replacing a slot by one with the same wiring and offset leaves the rotors alike. -/
theorem sameRotors_set {key : KeyStore} {k : Nat} {slot new : RotorSlot} (hslot : key.slots[k]? = some slot)
    (hnew : new.normal = slot.normal) :
    KeyStore.SameRotors { key with slots := key.slots.set k new } key := by
  obtain ⟨hk, rfl⟩ := List.getElem?_eq_some_iff.1 hslot
  have hmap : (key.slots.set k new).map RotorSlot.normal = key.slots.map RotorSlot.normal := by
    rw [List.map_set, hnew, ← List.getElem_map RotorSlot.normal (h := by simpa using hk), List.set_getElem_self]
  simp only [KeyStore.SameRotors, KeyStore.activeSlots, List.map_take, hmap]

/-- Settles O49: the two maps of a rotor invert each other, and both depend on its offset alone. -/
theorem rotorMapsAreInverseAndRelative : Obligations.RotorMapsAreInverseAndRelative := by
  refine ⟨fun slot k v h => ⟨backward_forward h k v, exists_backward_eq h k v⟩, fun key k slot amount v hslot => ?_⟩
  have hsame := sameRotors_set (new := { slot with pos := slot.pos + amount, ring := slot.ring + amount }) hslot
    (by simp only [RotorSlot.normal, add_sub_add_right_eq_sub])
  exact ⟨fwdPass_congr hsame v, bwdPass_congr hsame v⟩

/-- A slot with POS = RING is its wiring alone. -/
theorem forward_of_seeded {slot : RotorSlot} (h : slot.pos = slot.ring) (v : Letter) :
    slot.forward v = slot.wiring[v] := by
  have hentry : slot.entry v = v := by rw [entry_eq, h, sub_self, add_zero]
  rw [RotorSlot.forward, exit_eq, h, sub_self, sub_zero, get_congr _ hentry]

/-- A list of slots with POS = RING is a list of wirings. -/
theorem map_normal_of_seeded {slots : List RotorSlot} (h : ∀ slot ∈ slots, slot.pos = slot.ring) :
    slots.map RotorSlot.normal =
      (slots.map fun slot => slot.wiring).map fun t => { wiring := t, notch := 0, pos := 0, ring := 0 } := by
  rw [List.map_map]
  exact List.map_congr_left fun slot hs => by simp [RotorSlot.normal, h slot hs]

/-- Settles O57: with POS = RING every offset is 0. -/
theorem seededRingsCancel : Obligations.SeededRingsCancel := by
  refine ⟨fun key v h => ?_, fun key key' v h h' hrefl hplug hwirings => ?_⟩
  · exact List.foldl_ext _ _ v fun u slot hs => forward_of_seeded (h slot hs) u
  · have hsame : key.SameRotors key' := by
      rw [KeyStore.SameRotors, map_normal_of_seeded h, map_normal_of_seeded h', hwirings]
    exact encipher_congr hsame hrefl hplug v

/-! ### Shift rotors (R65, R144) -/

/-- A table whose entries are (i + s) mod 26 adds the letter s mod 26. -/
theorem get_of_shift {t : Table} {sh : Nat} (h : ∀ i : Letter, (t[i]).val = (i.val + sh) % 26) (i : Letter) :
    t[i] = i + Fin.ofNat 26 sh := by
  apply Fin.ext
  rw [h, Fin.val_add, Fin.val_ofNat, Nat.add_mod_mod]

/-- Settles O58: the offset cancels around the addition of s. -/
theorem shiftRotorsIgnoreTheirOffset : Obligations.ShiftRotorsIgnoreTheirOffset := by
  intro slot sh k v h
  have hget := get_of_shift h
  have hperm : IsPermutation slot.wiring := fun w => ⟨w - Fin.ofNat 26 sh, by rw [hget, sub_add_cancel]⟩
  have hforward : slot.forward v = v + Fin.ofNat 26 sh := by
    rw [RotorSlot.forward, hget, entry_eq, exit_eq]
    abel
  have hval : (slot.forward v).val = (v.val + sh) % 26 := by
    rw [hforward, Fin.val_add, Fin.val_ofNat, Nat.add_mod_mod]
  refine ⟨hperm, hval, fun u hu => ?_⟩
  rw [Fin.ext (hu.trans hval.symm), backward_forward hperm]

/-! ### The passes and E of a valid key (R101 to R103) -/

/-- The backward pass of permutations undoes their forward pass. -/
theorem bwdSlots_foldl_forward {slots : List RotorSlot} (h : ∀ slot ∈ slots, IsPermutation slot.wiring) (k : Nat)
    (v : Letter) : bwdSlots k slots (slots.foldl (fun v slot => slot.forward v) v) = .ok v := by
  induction slots generalizing k v with
  | nil => rfl
  | cons slot slots ih =>
    obtain ⟨hslot, hslots⟩ := List.forall_mem_cons.1 h
    rw [List.foldl_cons, bwdSlots, ih hslots, ok_bind, backward_forward hslot]

/-- The backward pass of permutations finds the letter their forward pass takes to the given one. -/
theorem exists_bwdSlots_eq {slots : List RotorSlot} (h : ∀ slot ∈ slots, IsPermutation slot.wiring) (k : Nat)
    (v : Letter) :
    ∃ u : Letter, bwdSlots k slots v = .ok u ∧ slots.foldl (fun v slot => slot.forward v) u = v := by
  induction slots generalizing k with
  | nil => exact ⟨v, rfl, rfl⟩
  | cons slot slots ih =>
    obtain ⟨hslot, hslots⟩ := List.forall_mem_cons.1 h
    obtain ⟨w, hw, hwv⟩ := ih hslots (k + 1)
    obtain ⟨u, hu, huw⟩ := exists_backward_eq hslot k w
    exact ⟨u, by rw [bwdSlots, hw, ok_bind, hu], by rw [List.foldl_cons, huw, hwv]⟩

section ValidKey

variable {key : KeyStore} (hv : key.Valid)

include hv

theorem isPermutation_of_valid (slot : RotorSlot) (hs : slot ∈ key.activeSlots) : IsPermutation slot.wiring := by
  obtain ⟨k, hk, hget⟩ := mem_activeSlots_iff.1 hs
  exact hv.rotors k slot hk hget

theorem bwdPass_fwdPass (v : Letter) : bwdPass key (fwdPass key v) = .ok v :=
  bwdSlots_foldl_forward (isPermutation_of_valid hv) 0 v

theorem exists_bwdPass_eq (v : Letter) : ∃ u : Letter, bwdPass key v = .ok u ∧ fwdPass key u = v :=
  exists_bwdSlots_eq (isPermutation_of_valid hv) 0 v

/-- On a valid key the backward pass is the inverse of the forward pass. -/
theorem bwdPass_eq_ok_iff (v u : Letter) : bwdPass key v = .ok u ↔ fwdPass key u = v := by
  constructor
  · intro h
    obtain ⟨w, hw, hwv⟩ := exists_bwdPass_eq hv v
    cases h.symm.trans hw
    exact hwv
  · rintro rfl
    exact bwdPass_fwdPass hv u

/-- On a valid key E is conjugate to the reflector by the plugboard and the forward pass, which shows that it is
symmetric. -/
theorem encipher_eq_ok_iff (v u : Letter) :
    encipher key v = .ok u ↔ fwdPass key key.plug[u] = key.refl[fwdPass key key.plug[v]] := by
  rw [← bwdPass_eq_ok_iff hv, encipher_eq]
  cases bwdPass key (key.refl[fwdPass key key.plug[v]]) with
  | error e => simp
  | ok w =>
    simp only [Except.ok.injEq]
    constructor
    · rintro rfl
      exact (hv.plugboard w).symm
    · rintro rfl
      exact hv.plugboard u

/-- E never faults. -/
theorem exists_encipher_eq (v : Letter) : ∃ u : Letter, encipher key v = .ok u := by
  obtain ⟨w, hw, -⟩ := exists_bwdPass_eq hv key.refl[fwdPass key key.plug[v]]
  exact ⟨key.plug[w], by rw [encipher_eq, hw]⟩

/-- E is its own inverse. -/
theorem encipher_symm {v u : Letter} (h : encipher key v = .ok u) : encipher key u = .ok v := by
  rw [encipher_eq_ok_iff hv] at h ⊢
  rw [get_congr _ h]
  exact (hv.reflector _).symm

/-- A fixed point of E is one of the reflector. -/
theorem encipher_ne_self (hfixed : HasNoFixedPoint key.refl) (v : Letter) : encipher key v ≠ .ok v :=
  fun h => hfixed _ ((encipher_eq_ok_iff hv v v).1 h).symm

end ValidKey

/-- Settles O50, by induction on the active slots. -/
theorem backwardPassInvertsForwardPass : Obligations.BackwardPassInvertsForwardPass :=
  fun _ v hv => ⟨bwdPass_fwdPass hv v, exists_bwdPass_eq hv v⟩

/-- Settles O51, by the symmetry of E. -/
theorem encipherIsAnInvolution : Obligations.EncipherIsAnInvolution := by
  intro key hv
  have hinv (v : Letter) : ∃ u : Letter, encipher key v = .ok u ∧ encipher key u = .ok v := by
    obtain ⟨u, hu⟩ := exists_encipher_eq hv v
    exact ⟨u, hu, encipher_symm hv hu⟩
  refine ⟨hinv, fun u => ?_, fun v v' u h h' => ?_⟩
  · obtain ⟨v, -, hvu⟩ := hinv u
    exact ⟨v, hvu⟩
  · exact Except.ok.inj ((encipher_symm hv h).symm.trans (encipher_symm hv h'))

/-- Settles O52: validation and the ROM's laws both give a reflector without fixed points. -/
theorem noLetterEnciphersToItself : Obligations.NoLetterEnciphersToItself := by
  refine ⟨fun key v hv hfixed => encipher_ne_self hv hfixed v,
    fun key v hv hpol => encipher_ne_self hv (hv.noFixed hpol) v, fun key rom r v hv hrom hrefl => ?_⟩
  obtain ⟨-, hrefls⟩ := hrom
  obtain ⟨-, hfixed⟩ := hrefls r
  exact encipher_ne_self hv (hrefl ▸ hfixed) v

/-! ### No rotors (R106) -/

/-- Without active slots E is the reflector between two plugboard passes. -/
theorem encipher_of_noRotors {key : KeyStore} (h : key.rotorCount = 0#8) (v : Letter) :
    encipher key v = .ok key.plug[key.refl[key.plug[v]]] := by
  have hfwd (u : Letter) : fwdPass key u = u := (forwardPassFormula key u).1 h
  have hbwd (u : Letter) : bwdPass key u = .ok u := (backwardPassFormula.1 key u).1 h
  rw [encipher_eq, hbwd, get_congr key.refl (hfwd _)]

/-- Settles O56: each clause is the composition of the three tables. -/
theorem zeroRotorsLeaveTheReflector : Obligations.ZeroRotorsLeaveTheReflector := by
  intro key h
  have hE := encipher_of_noRotors h
  refine ⟨hE, fun hplug v => ?_, fun hinv a b hab => ?_, fun hinv hrefl v => ?_⟩
  · rw [hE, hplug, get_congr _ (hplug v)]
  · subst hab
    rw [hE, Except.ok.injEq]
    exact ⟨hinv.isPermutation.injective, get_congr key.plug⟩
  · rw [hE, get_congr _ (hrefl _), hinv]

end Machine

end Sys2Proof

/-! ## Proofs of the statements on a valid key's pipeline and on the invariant (42_pipeline.md, 41_key_lifecycle.md,
60_exceptions.md): R59, R78, R91, R104, R105, R127, R128 -/

namespace Sys2Proof

namespace Machine

/-! ### The pipeline commands on a valid key (R91, R102) -/

/-- On a valid key the transform of a byte never faults. -/
theorem exists_xlateByte_eq {key : KeyStore} (hv : key.Valid) (c : Byte) : ∃ d : Byte, xlateByte key c = .ok d := by
  cases hc : classifyByte key c with
  | none => exact ⟨c, by simp [xlateByte, hc]⟩
  | some p =>
    obtain ⟨u, hu⟩ := exists_encipher_eq hv p.1
    exact ⟨letterToAscii u p.2, by simp [xlateByte, hc, hu]⟩

/-- A command that follows the rule of the stage commands answers OK when its operand is in range and its stage gives
a letter. -/
theorem exec_of_stageRule {op : Byte} {cmd : Byte → Instr} {stage : KeyStore → Letter → Except ErrorReport Letter}
    {s : State} {v : Byte} (h : StageRule op cmd stage) (hr : s.PipelineReady) (hv : letterInRange v = true)
    (hstage : ∀ u : Letter, ∃ o : Letter, stage s.key u = .ok o) :
    ∃ data : Nat, data < 256 ∧ exec (cmd v) s = .next (s.replied (reply 0 data)) := by
  obtain ⟨-, hrule⟩ := h
  obtain ⟨-, -, -, hok, -⟩ := hrule v s
  obtain ⟨o, ho⟩ := hstage ⟨v.toNat, of_decide_eq_true hv⟩
  exact ⟨o.val, by omega, hok hr _ o ho⟩

/-- Settles O53: no stage of a valid key faults. -/
theorem validKeyPipelineCompletes : Obligations.ValidKeyPipelineCompletes := by
  intro i s hi hr hv hwf
  obtain ⟨hplug, hfwd, hrefl, hbwd⟩ := stageCommandsRule
  match i, hi with
  | .xlateIndex v, _ => exact exec_of_stageRule xlateIndex_stageRule hr hwf (exists_encipher_eq hv)
  | .xlateChar c, _ =>
    obtain ⟨d, hd⟩ := exists_xlateByte_eq hv c
    exact ⟨d.toNat, d.isLt, by rw [exec_xlateChar, hd, runPipeline_of_ok d hr]⟩
  | .stagePlug v, _ => exact exec_of_stageRule hplug hr hwf fun _ => ⟨_, rfl⟩
  | .stageFwd v, _ => exact exec_of_stageRule hfwd hr hwf fun _ => ⟨_, rfl⟩
  | .stageRefl v, _ => exact exec_of_stageRule hrefl hr hwf fun _ => ⟨_, rfl⟩
  | .stageBwd v, _ =>
    refine exec_of_stageRule hbwd hr hwf fun u => ?_
    obtain ⟨o, ho, -⟩ := exists_bwdPass_eq hv u
    exact ⟨o, ho⟩

/-- On a valid key a pipeline command only answers, whatever its operand. -/
theorem exec_pipeline_of_valid {i : Instr} {s : State} (hi : i.commandClass = .pipeline) (hr : s.PipelineReady)
    (hv : s.key.Valid) : ∃ r : Word, exec i s = .next (s.replied r) := by
  cases hwf : i.wellFormed s.maxRotors with
  | true =>
    obtain ⟨data, -, h⟩ := validKeyPipelineCompletes i s hi hr hv hwf
    exact ⟨_, h⟩
  | false => exact ⟨_, exec_pipeline_of_not_wellFormed hi hr hwf⟩

/-! ### Characters and texts (R104, R105) -/

/-- A capital is processed as its letter. -/
theorem exists_capital {c : Byte} (h : 0x41 ≤ c.toNat) (h' : c.toNat ≤ 0x5A) : ∃ i : Letter, c.toNat = 0x41 + i.val :=
  ⟨⟨c.toNat - 0x41, by omega⟩, by simp only; omega⟩

/-- A small letter is processed as its letter. -/
theorem exists_small {c : Byte} (h : 0x61 ≤ c.toNat) (h' : c.toNat ≤ 0x7A) : ∃ i : Letter, c.toNat = 0x61 + i.val :=
  ⟨⟨c.toNat - 0x61, by omega⟩, by simp only; omega⟩

/-- Settles O54, by the class of the byte; E takes a space's X and its output to each other. -/
theorem charCaseIsKept : Obligations.CharCaseIsKept := by
  refine fun c s hr hv => ⟨fun h h' => ?_, fun h h' => ?_, fun hu hl hs => ?_, fun hp => ?_⟩
  · obtain ⟨i, hi⟩ := exists_capital h h'
    obtain ⟨o, ho⟩ := exists_encipher_eq hv i
    exact ⟨0x41 + o.val, by omega, by omega, exec_xlateChar_of_ok hr (classifyByte_of_capital hi) ho⟩
  · obtain ⟨i, hi⟩ := exists_small h h'
    obtain ⟨o, ho⟩ := exists_encipher_eq hv i
    exact ⟨0x61 + o.val, by omega, by omega, exec_xlateChar_of_ok hr (classifyByte_of_small hi) ho⟩
  · exact exec_xlateChar_of_other hr (classifyByte_of_other hs hu hl)
  · obtain ⟨u, hu⟩ := exists_encipher_eq hv 23
    have hcapital : (BitVec.ofNat 8 (0x41 + u.val)).toNat = 0x41 + u.val := by
      rw [BitVec.toNat_ofNat]
      omega
    exact ⟨u, hu, exec_xlateChar_of_ok hr (classifyByte_of_space rfl hp) hu,
      exec_xlateChar_of_ok hr (classifyByte_of_capital hcapital) (encipher_symm hv hu)⟩

/-- An ASCII letter is processed as the letter and case it stands for. -/
theorem classifyByte_letterToAscii (key : KeyStore) (v : Letter) (capital : Bool) :
    classifyByte key (letterToAscii v capital) = some (v, capital) := by
  cases capital with
  | true => exact classifyByte_of_capital (letterToAscii_toNat v true)
  | false => exact classifyByte_of_small (letterToAscii_toNat v false)

/-- With SPACE_TO_X = 0, a byte processed as a letter is that letter in ASCII. -/
theorem letterToAscii_of_classifyByte {key : KeyStore} {c : Byte} {v : Letter} {capital : Bool}
    (hp : key.policy.getLsbD 0 = false) (hc : classifyByte key c = some (v, capital)) :
    letterToAscii v capital = c := by
  apply BitVec.eq_of_toNat_eq
  rw [letterToAscii_toNat]
  by_cases hu : 0x41 ≤ c.toNat ∧ c.toNat ≤ 0x5A
  · obtain ⟨i, hi⟩ := exists_capital hu.1 hu.2
    cases (classifyByte_of_capital hi).symm.trans hc
    exact hi.symm
  · by_cases hl : 0x61 ≤ c.toNat ∧ c.toNat ≤ 0x7A
    · obtain ⟨i, hi⟩ := exists_small hl.1 hl.2
      cases (classifyByte_of_small hi).symm.trans hc
      exact hi.symm
    · cases (classifyByte_of_other (by rw [hp]; simp) hu hl).symm.trans hc

/-- On a valid key with SPACE_TO_X = 0 the transform of a byte is its own inverse. -/
theorem exists_xlateByte_symm {key : KeyStore} (hv : key.Valid) (hp : key.policy.getLsbD 0 = false) (c : Byte) :
    ∃ d : Byte, xlateByte key c = .ok d ∧ xlateByte key d = .ok c := by
  cases hc : classifyByte key c with
  | none => exact ⟨c, by simp [xlateByte, hc], by simp [xlateByte, hc]⟩
  | some p =>
    obtain ⟨u, hu⟩ := exists_encipher_eq hv p.1
    have hback := letterToAscii_of_classifyByte hp hc
    exact ⟨letterToAscii u p.2, by simp [xlateByte, hc, hu],
      by simp [xlateByte, classifyByte_letterToAscii, encipher_symm hv hu, hback]⟩

/-! ### Runs over the commands of a pseudo-instruction (R59) -/

/-- A run over commands of one kind, each of which answers a word and takes the key store from `put b` to
`put (write b a)`: the writes follow one another, and the answers stand in order. -/
theorem run_sendCommands {α β : Type} {cmd : α → Instr} {put : β → KeyStore} {write : β → α → β} {answer : α → Word}
    {st : Status}
    (hexec : ∀ (a : α) (b : β) (t : State), t.status = st → t.key = put b →
      exec (cmd a) t = .next ({ t with key := put (write b a) }.replied (answer a)))
    (as : List α) {b : β} {s : State} (hst : s.status = st) (hkey : s.key = put b)
    (hp : s.pending = sendCommands (as.map cmd)) :
    Host.Core.run Sys2Proof.core as.length s =
      .next { s with key := put (as.foldl write b), pending := [], responses := s.responses ++ as.map answer } := by
  induction as generalizing b s with
  | nil =>
    obtain ⟨key, status, rom, pending, responses⟩ := s
    cases hkey
    cases hp
    simp [run_zero]
  | cons a as ih =>
    have hrest := ih (b := write b a) (s := { s with
      key := put (write b a)
      pending := sendCommands (as.map cmd)
      responses := s.responses ++ [answer a] }) hst rfl rfl
    refine (run_of_command as.length hp (decode_encode (cmd a)) (hexec a b _ hst hkey)).trans (hrest.trans ?_)
    simp [List.append_assoc]

/-- Settles O55: the transform of each byte is its own inverse, and the runs are over the bytes. -/
theorem textDecryptsUnderTheSameKey : Obligations.TextDecryptsUnderTheSameKey := by
  intro text s hr hv hp hpend
  choose f hf hff using exists_xlateByte_symm hv hp
  have hinv (c : Byte) : f (f c) = c := Except.ok.inj ((hf (f c)).symm.trans (hff c))
  have hexec (c : Byte) (_ : Unit) (t : State) (hst : t.status = s.status) (hkey : t.key = s.key) :
      exec (.xlateChar c) t = .next ({ t with key := s.key }.replied (reply 0 (f c).toNat)) := by
    have hr' : t.PipelineReady := by rwa [State.PipelineReady, hst]
    rw [exec_xlateChar, hkey, hf, runPipeline_of_ok _ hr', ← hkey]
  have hrun (text : List Byte) (s' : State) := run_sendCommands (s := s') (b := ()) (write := fun _ _ => ()) hexec text
  refine ⟨text.map f, List.length_map _, (hrun text s rfl rfl hpend).trans ?_, (hrun (text.map f)
    { s with pending := sendCommands (Pseudo.xlateStr (text.map f)).expand } rfl rfl rfl).trans ?_⟩
  · rw [List.map_map]
    rfl
  · simp [Function.comp_def, hinv]

/-! ### Tables built by hand (R59, R66, R72) -/

/-- Writing the entries of a table over another, one letter after the other, leaves the table. -/
theorem foldl_set_getElem (table : Table) (ls : List Letter) (t : Table) (j : Letter) :
    (ls.foldl (fun t i => t.set i table[i]) t)[j] = if j ∈ ls then table[j] else t[j] := by
  induction ls generalizing t with
  | nil => simp
  | cons i ls ih =>
    rw [List.foldl_cons, ih]
    by_cases hj : j ∈ ls
    · simp [hj]
    · by_cases hi : j = i
      · subst hi
        simp [hj]
      · have hne : i.val ≠ j.val := fun h => hi (Fin.ext h.symm)
        simp [hj, hi, Vector.getElem_set_ne _ _ hne]

theorem foldl_set_letters (table t : Table) : letters.foldl (fun t i => t.set i table[i]) t = table :=
  Vector.ext fun i hi => by simpa using foldl_set_getElem table letters t ⟨i, hi⟩

/-- A run over the commands that write the entries of a table, one by one, where `put` places the table written: the
table stands there, and 26 responses OK are given. -/
theorem run_tableWrites {cmd : Letter → Instr} {put : Table → KeyStore} {table t : Table} {s : State}
    (hexec : ∀ (i : Letter) (t : Table) (u : State), u.Building → u.key = put t →
      exec (cmd i) u = .next ({ u with key := put (t.set i table[i]) }.replied (reply 0 0)))
    (hk : s.Building) (hkey : s.key = put t) (hp : s.pending = sendCommands (letters.map cmd)) :
    Host.Core.run Sys2Proof.core 26 s =
      .next { s with key := put table, pending := [], responses := s.responses ++ List.replicate 26 0#32 } := by
  have hrun := run_sendCommands (answer := fun _ => reply 0 0) (st := s.status)
    (fun i t u hst => hexec i t u (by rw [State.Building, hst]; exact hk)) letters rfl hkey hp
  have hanswers : letters.map (fun _ => reply 0 0) = List.replicate 26 0#32 := by
    rw [List.map_const', letters, List.length_finRange]
    rfl
  rw [foldl_set_letters, hanswers, letters, List.length_finRange] at hrun
  exact hrun

/-- Settles O24: each command writes the entry of its letter, in the slot or in the reflector. -/
theorem handBuiltTablesAreLoaded : Obligations.HandBuiltTablesAreLoaded := by
  refine fun table s hk => ⟨fun k slot hslot hp => ?_, fun hp => ?_⟩
  · obtain ⟨hklt, hget⟩ := List.getElem?_eq_some_iff.1 hslot
    refine run_tableWrites (cmd := fun i => .writeWiring k (letterByte i) (letterByte table[i]))
      (put := fun t => (s.withSlot k { slot with wiring := t }).key) (t := slot.wiring)
      (fun i t u hu hkey => ?_) hk ?_ hp
    · have hslot' : u.key.slots[k.toNat]? = some { slot with wiring := t } := by
        rw [hkey]
        simp [State.withSlot, hklt]
      obtain ⟨-, -, -, -, -, hwrite⟩ := writeWiringRule k (letterByte i) (letterByte table[i]) u
      rw [hwrite _ hu hslot' (by simp) (by simp)]
      simp [State.withSlot, hkey]
    · subst hget
      exact congrArg (fun slots => { s.key with slots := slots }) (List.set_getElem_self hklt).symm
  · refine run_tableWrites (cmd := fun i => .writeRefl (letterByte i) (letterByte table[i]))
      (put := fun t => { s.key with refl := t }) (t := s.key.refl)
      (fun i t u hu hkey => ?_) hk rfl hp
    obtain ⟨⟨-, hrule⟩, -⟩ := tableEntryCommandsRule
    obtain ⟨-, -, -, hwrite⟩ := hrule (letterByte i) (letterByte table[i]) u
    rw [hwrite hu (by simp) (by simp)]
    simp [hkey]

end Machine

end Sys2Proof

/-! ## Proofs of the invariant (R77, R78) and of the safety of runs (R127, R128) -/

namespace Sys2Proof

namespace Machine

/-! ### What keeps the invariant (R78) -/

/-- A write of a key being built keeps the invariant, when ROTOR_COUNT and POLICY stay in range. -/
theorem State.Inv.of_building {s t : State} (h : s.Inv) (hmax : t.maxRotors = s.maxRotors)
    (hcount : t.key.rotorCount.toNat ≤ s.maxRotors) (hpolicy : t.key.policy.toNat < 4) (hrom : t.rom = s.rom)
    (hk : t.Building) : t.Inv where
  maxRotors := hmax ▸ h.maxRotors
  rotorCount := hmax ▸ hcount
  policy := hpolicy
  rom := hrom ▸ h.rom
  lockedValid := fun hl => by cases hk.symm.trans hl
  lockedBuilt := fun hl => by cases hk.symm.trans hl

/-- A change of the flags alone keeps the invariant, when a key it leaves locked is valid and has no build error. -/
theorem State.Inv.of_key_eq {s t : State} (h : s.Inv) (hkey : t.key = s.key) (hrom : t.rom = s.rom)
    (hvalid : t.Locked → s.key.Valid) (hbuilt : t.Locked → t.status.buildErr = false) : t.Inv where
  maxRotors := by rw [State.maxRotors, hkey]; exact h.maxRotors
  rotorCount := by rw [State.maxRotors, hkey]; exact h.rotorCount
  policy := hkey ▸ h.policy
  rom := hrom ▸ h.rom
  lockedValid := hkey ▸ hvalid
  lockedBuilt := hbuilt

/-- One more response keeps the invariant. -/
theorem State.Inv.replied {s : State} (h : s.Inv) (r : Word) : (s.replied r).Inv :=
  h.of_key_eq rfl rfl h.lockedValid h.lockedBuilt

/-- A build failure of a key being built keeps the invariant. -/
theorem State.Inv.buildFailed {s : State} (h : s.Inv) (hk : s.Building) : s.buildFailed.Inv :=
  h.of_building rfl h.rotorCount h.policy rfl hk

/-- Taking a move from the queue keeps the invariant. -/
theorem State.Inv.pending {s : State} (h : s.Inv) (rest : List HostMove) : { s with pending := rest }.Inv :=
  h.of_key_eq rfl rfl h.lockedValid h.lockedBuilt

/-- The reset key store, not locked, meets the invariant under R8 and R32. -/
theorem inv_of_reset {t : State} {n : Nat} (hn : 1 ≤ n ∧ n ≤ 255) (hrom : t.rom.Lawful)
    (hkey : t.key = KeyStore.reset n t.rom) (hk : t.Building) : t.Inv where
  maxRotors := by rw [State.maxRotors, hkey, reset_maxRotors]; exact hn
  rotorCount := by rw [hkey]; exact Nat.zero_le _
  policy := by rw [hkey]; exact Nat.zero_lt_succ 3
  rom := hrom
  lockedValid := fun hl => by cases hk.symm.trans hl
  lockedBuilt := fun hl => by cases hk.symm.trans hl

theorem State.Inv.applyReset {s : State} (h : s.Inv) : (applyReset s).Inv := inv_of_reset h.maxRotors h.rom rfl rfl

theorem State.Inv.refusedReserved {s : State} (h : s.Inv) (c : CommandClass) (n : Nat) :
    (s.refusedReserved c n).Inv := by
  unfold State.refusedReserved
  split
  · next hc => exact (h.buildFailed hc.2).replied _
  · exact h.replied _

/-- Every command keeps the invariant: only COMMIT locks a key, and it locks a valid one. -/
theorem exec_keeps_inv {i : Instr} {s t : State} (h : s.Inv) (ht : exec i s = .next t) : t.Inv := by
  obtain ⟨_, _, -, -, e⟩ | ⟨-, hk, key, hw, e⟩ | ⟨-, hk, _, _, -, -, e⟩ | ⟨-, -, _, -, e⟩ | ⟨-, e⟩ | ⟨-, e⟩ |
    ⟨-, hk, hb, hv, e⟩ := exec_cases i s <;> cases e.symm.trans ht
  · exact h.replied _
  · refine (h.of_building (t := { s with key := key }) hw.maxRotors ?_ ?_ rfl hk).replied _
    · obtain hc | hc := hw.rotorCount
      · exact hc ▸ h.rotorCount
      · exact hc
    · obtain hp | hp := hw.policy
      · exact hp ▸ h.policy
      · exact hp
  · exact (h.buildFailed hk).replied _
  · exact h.of_key_eq rfl rfl h.lockedValid h.lockedBuilt
  · exact inv_of_reset h.maxRotors h.rom rfl rfl
  · exact h.of_building rfl h.rotorCount h.policy rfl rfl
  · exact h.of_key_eq rfl rfl (fun _ => hv) fun _ => hb

/-- Every word keeps the invariant. -/
theorem executeWord_keeps_inv {w : Word} {s t : State} (h : s.Inv) (ht : executeWord w s = .next t) : t.Inv := by
  obtain ⟨-, e⟩ | ⟨op, f, -, -, e⟩ | ⟨i, -, -, e⟩ := executeWord_cases w s
  · cases e.symm.trans ht
    exact h.replied _
  · cases e.symm.trans ht
    exact h.refusedReserved ..
  · exact exec_keeps_inv h (e.symm.trans ht)

/-- What a step does: nothing, the oldest word, or a reset. -/
theorem step_cases {s t : State} (ht : step s = .next t) :
    t = s ∨ (∃ (w : Word) (rest : List HostMove), executeWord w { s with pending := rest } = .next t) ∨
      ∃ rest : List HostMove, t = applyReset { s with pending := rest } := by
  cases hp : s.pending with
  | nil =>
    rw [step_of_empty hp] at ht
    exact .inl (Host.Outcome.next.inj ht).symm
  | cons m rest =>
    rw [step_of_cons hp] at ht
    cases m with
    | send w => exact .inr (.inl ⟨w, rest, ht⟩)
    | reset cutOff => exact .inr (.inr ⟨rest, (Host.Outcome.next.inj ht).symm⟩)

/-- Settles O43, by the three things a step does. -/
theorem stepKeepsTheInvariant : Obligations.StepKeepsTheInvariant := by
  intro s t h ht
  obtain rfl | ⟨w, rest, hw⟩ | ⟨rest, rfl⟩ := step_cases ht
  · exact h
  · exact executeWord_keeps_inv (h.pending rest) hw
  · exact (h.pending rest).applyReset

/-! ### FAULT stays clear (R91, R127) -/

/-- The commands that run the backward pass are pipeline commands. -/
theorem commandClass_of_backward {i : Instr}
    (h : i.opcode = .xlateIndex ∨ i.opcode = .xlateChar ∨ i.opcode = .stageBwd) : i.commandClass = .pipeline := by
  rw [Instr.commandClass]
  obtain h | h | h := h <;> rw [h] <;> rfl

/-- Under the invariant no command misses an inverse: its key is valid. -/
theorem exec_keeps_faultClear {i : Instr} {s t : State} (h : s.Inv) (hf : s.status.fault = false)
    (ht : exec i s = .next t) : t.status.fault = false := by
  obtain ⟨_, _, -, -, e⟩ | ⟨-, -, _, -, e⟩ | ⟨-, -, _, _, -, -, e⟩ | ⟨hr, ho, -, -, -⟩ | ⟨-, e⟩ | ⟨-, e⟩ |
    ⟨-, -, -, -, e⟩ := exec_cases i s
  case inr.inr.inr.inl =>
    obtain ⟨r, e⟩ := exec_pipeline_of_valid (commandClass_of_backward ho) hr (h.lockedValid hr.2)
    cases e.symm.trans ht
    exact hf
  all_goals
    cases e.symm.trans ht
    exact hf

theorem executeWord_keeps_faultClear {w : Word} {s t : State} (h : s.Inv) (hf : s.status.fault = false)
    (ht : executeWord w s = .next t) : t.status.fault = false := by
  obtain ⟨-, e⟩ | ⟨op, f, -, -, e⟩ | ⟨i, -, -, e⟩ := executeWord_cases w s
  · cases e.symm.trans ht
    exact hf
  · cases e.symm.trans ht
    rw [refusedReserved_fault, hf]
  · exact exec_keeps_faultClear h hf (e.symm.trans ht)

/-- Settles O44: on a valid key the pipeline only answers, and no other command sets FAULT. -/
theorem inverseMissIsUnreachable : Obligations.InverseMissIsUnreachable := by
  intro s t h hf ht
  obtain rfl | ⟨w, rest, hw⟩ | ⟨rest, rfl⟩ := step_cases ht
  · exact hf
  · exact executeWord_keeps_faultClear (h.pending rest) hf hw
  · rfl

/-! ### Runs from reset (R34, R128, R148) -/

/-- What every step keeps, every run keeps; and a run never stops. -/
theorem run_keeps {P : State → Prop} (hstep : ∀ s t : State, P s → step s = .next t → P t) (n : Nat) {s : State}
    (hs : P s) : ∃ t : State, Host.Core.run Sys2Proof.core n s = .next t ∧ P t := by
  induction n generalizing s with
  | zero => exact ⟨s, rfl, hs⟩
  | succ n ih =>
    obtain ⟨s', hs'⟩ := step_next s
    obtain ⟨t, ht, hPt⟩ := ih (hstep s s' hs hs')
    exact ⟨t, (run_succ n hs').trans ht, hPt⟩

theorem resetOf_inv {c : Config} (hc : c.Lawful) : (State.resetOf c).Inv := by
  obtain ⟨h1, h255, hrom⟩ := hc
  exact inv_of_reset ⟨h1, h255⟩ hrom rfl rfl

theorem config_default_lawful : Config.default.Lawful := by decide

/-- Settles O42: the reset key store meets the invariant, and the default parameters are lawful. -/
theorem resetStateMeetsTheInvariant : Obligations.ResetStateMeetsTheInvariant :=
  ⟨fun _ hc => ⟨resetOf_inv hc, rfl⟩, config_default_lawful, resetOf_inv config_default_lawful⟩

/-- Settles O45: every step keeps the invariant together with FAULT = 0. -/
theorem everyRunFromResetIsSafe : Obligations.EveryRunFromResetIsSafe := by
  intro c moves n hc
  obtain ⟨t, hrun, hinv, hfault⟩ := run_keeps (P := fun s => s.Inv ∧ s.status.fault = false)
    (fun s t hs ht => ⟨stepKeepsTheInvariant s t hs.1 ht, inverseMissIsUnreachable s t hs.1 hs.2 ht⟩) n
    (s := { State.resetOf c with pending := moves }) ⟨(resetOf_inv hc).pending moves, rfl⟩
  refine ⟨⟨t, hrun, hfault⟩, fun t' ht' => ?_⟩
  cases hrun.symm.trans ht'
  exact hinv

/-! ### The lifecycle (R77, R79, R80) -/

theorem reset_valid (n : Nat) {rom : StdRom} (hrom : rom.Lawful) : (KeyStore.reset n rom).Valid where
  rotors := fun k _ hk _ => absurd hk (Nat.not_lt_zero k)
  reflector := (hrom.2 0).1
  noFixed := fun _ => (hrom.2 0).2
  plugboard := fun x => (get_congr identityTable (identityTable_get x)).trans (identityTable_get x)

/-- Settles O26: the reset key store is valid. -/
theorem keyClearThenCommitSucceeds : Obligations.KeyClearThenCommitSucceeds := by
  intro s hrom
  refine ⟨_, _, exec_keyClear s, exec_commit_of_valid rfl rfl (reset_valid _ hrom), rfl, rfl, ?_⟩
  simp only [replied_responses, List.append_assoc]
  rfl

/-- Settles O30: the key of a locked state is valid, so that COMMIT sets the one flag UNLOCK cleared. -/
theorem unlockThenCommitRestores : Obligations.UnlockThenCommitRestores := by
  intro s h hk
  obtain ⟨-, hunlock⟩ := unlockRule
  have hcommit := exec_commit_of_valid (s := { s with status := { s.status with keyValid := false } }.replied
    (reply 0 0)) rfl (h.lockedBuilt hk) (h.lockedValid hk)
  refine ⟨_, hunlock s, rfl, rfl, hcommit.trans ?_⟩
  obtain ⟨key, ⟨keyValid, fault, buildErr⟩, rom, pending, responses⟩ := s
  cases hk
  rfl

/-- While the key is locked, no command but KEY_CLEAR changes the key store. -/
theorem exec_key_of_locked {i : Instr} {s t : State} (hk : s.Locked) (hi : i ≠ .keyClear)
    (ht : exec i s = .next t) : t.key = s.key := by
  obtain ⟨_, _, -, -, e⟩ | ⟨-, hk', -⟩ | ⟨-, -, _, _, -, -, e⟩ | ⟨-, -, _, -, e⟩ | ⟨hi', -⟩ | ⟨-, e⟩ |
    ⟨-, -, -, -, e⟩ := exec_cases i s
  case inr.inl => cases hk.symm.trans hk'
  case inr.inr.inr.inr.inl => exact absurd hi' hi
  all_goals
    cases e.symm.trans ht
    rfl

/-- Only KEY_CLEAR, UNLOCK and COMMIT change the phase, each in its direction. -/
theorem exec_phase {i : Instr} {s t : State} (ht : exec i s = .next t) :
    t.status.keyValid = s.status.keyValid ∨ (t.Building ∧ (i = .keyClear ∨ i = .unlock)) ∨
      (t.Locked ∧ i = .commit) := by
  obtain ⟨_, _, -, -, e⟩ | ⟨-, -, _, -, e⟩ | ⟨-, -, _, _, -, -, e⟩ | ⟨-, -, _, -, e⟩ | ⟨hi, e⟩ | ⟨hi, e⟩ |
    ⟨hi, -, -, -, e⟩ := exec_cases i s <;> cases e.symm.trans ht
  · exact .inl rfl
  · exact .inl rfl
  · exact .inl rfl
  · exact .inl rfl
  · exact .inr (.inl ⟨rfl, .inl hi⟩)
  · exact .inr (.inl ⟨rfl, .inr hi⟩)
  · exact .inr (.inr ⟨rfl, hi⟩)

theorem encode_unlock : encode .unlock = 0x02000000#32 := by decide

theorem encode_commit : encode .commit = 0x03000000#32 := by decide

/-- Settles O46: a refused word changes neither the key store nor the phase, and a command is known by its word. -/
theorem lockedKeyIsNeverWritten : Obligations.LockedKeyIsNeverWritten := by
  intro w s t ht
  obtain ⟨-, e⟩ | ⟨op, f, -, -, e⟩ | ⟨i, hd, -, e⟩ := executeWord_cases w s
  · cases e.symm.trans ht
    exact ⟨fun _ _ => rfl, fun hb hl => (by cases hb.symm.trans hl), fun hl hb => (by cases hb.symm.trans hl)⟩
  · cases e.symm.trans ht
    have hphase := refusedReserved_keyValid s op.commandClass (fieldNumber f).toNat
    refine ⟨fun _ _ => refusedReserved_key .., fun hb hl => ?_, fun hl hb => ?_⟩
    · cases hb.symm.trans (hphase.symm.trans hl)
    · cases hl.symm.trans (hphase.symm.trans hb)
  · have ht := e.symm.trans ht
    have hw := encode_of_decode hd
    refine ⟨fun hl hne => exec_key_of_locked hl ?_ ht, fun hb hl => ?_, fun hl hb => ?_⟩
    · rintro rfl
      exact hne (hw.symm.trans encode_keyClear)
    · obtain h | ⟨hb', -⟩ | ⟨-, rfl⟩ := exec_phase ht
      · cases hb.symm.trans (h.symm.trans hl)
      · cases hb'.symm.trans hl
      · exact hw.symm.trans encode_commit
    · obtain h | ⟨-, rfl | rfl⟩ | ⟨hl', -⟩ := exec_phase ht
      · cases hl.symm.trans (h.symm.trans hb)
      · exact .inl (hw.symm.trans encode_keyClear)
      · exact .inr (hw.symm.trans encode_unlock)
      · cases hl'.symm.trans hb

end Machine

end Sys2Proof

/-! ## Proofs of the statements that compare two executions of a command (R21, R24, R39, R108, R127) -/

namespace Sys2Proof

namespace Machine

/-! ### NOP and the read commands (R108) -/

/-- NOP and the read commands are OP 0 and 0x60 to 0x6C (R108). -/
theorem commandClass_eq_readBack_iff (op : Opcode) :
    op.commandClass = .readBack ↔ op.byte.toNat = 0 ∨ (0x60 ≤ op.byte.toNat ∧ op.byte.toNat ≤ 0x6C) := by
  cases op <;> decide

/-- Settles O37, from what a read command's body answers. -/
theorem readCommandsChangeNothing : Obligations.ReadCommandsChangeNothing := by
  refine ⟨commandClass_eq_readBack_iff, fun i s hi => ?_⟩
  obtain ⟨body, hexec, hbody⟩ := exec_readBack i s hi
  cases hwf : i.wellFormed s.maxRotors with
  | true =>
    obtain ⟨data, rfl⟩ := hbody.accepts hwf
    exact ⟨0, data.toNat, data.isLt, hexec.trans (runRead_of_ok data s), fun _ => rfl, fun h => by cases h⟩
  | false =>
    obtain ⟨c, f, rfl, rfl | rfl⟩ := hbody.refuses hwf
    · exact ⟨0x05, _, (fieldNumber f).isLt, hexec.trans (runRead_of_error s (by decide)), fun h => (by cases h),
        fun _ => .inl rfl⟩
    · exact ⟨0x06, _, (fieldNumber f).isLt, hexec.trans (runRead_of_error s (by decide)), fun h => (by cases h),
        fun _ => .inr rfl⟩

/-! ### Notches and inactive slots (R21, R24) -/

/-- What the pipeline depends on: active slots with the same wirings, positions and rings are alike. -/
theorem sameRotors_of_samePipeline {key key' : KeyStore} (h : key.SamePipeline key') : key.SameRotors key' := by
  obtain ⟨hcount, -, -, -, hslots⟩ := h
  apply List.ext_getElem?
  intro k
  rw [List.getElem?_map, List.getElem?_map]
  by_cases hk : k < key.rotorCount.toNat
  · rw [activeSlots_getElem? hk, activeSlots_getElem? (hcount ▸ hk)]
    have hnormal := congrArg (Option.map fun p : Table × Letter × Letter =>
      ({ wiring := p.1, notch := 0, pos := p.2.1 - p.2.2, ring := 0 } : RotorSlot)) (hslots k hk)
    rwa [Option.map_map, Option.map_map] at hnormal
  · have hk' : ¬ k < key'.rotorCount.toNat := hcount ▸ hk
    rw [KeyStore.activeSlots, KeyStore.activeSlots, List.getElem?_take, List.getElem?_take, if_neg hk, if_neg hk']

theorem samePipeline_refl (key : KeyStore) : key.SamePipeline key := ⟨rfl, rfl, rfl, rfl, fun _ _ => rfl⟩

theorem firstNonPermutation_normal (k : Nat) (slots : List RotorSlot) :
    firstNonPermutation k (slots.map RotorSlot.normal) = firstNonPermutation k slots := by
  induction slots generalizing k with
  | nil => rfl
  | cons slot slots ih =>
    simp only [List.map_cons, firstNonPermutation, ih]
    rfl

section SamePipeline

variable {key key' : KeyStore} (h : key.SamePipeline key')

include h

theorem checkRotors_congr : checkRotors key = checkRotors key' := by
  have hfirst : firstNonPermutation 0 key.activeSlots = firstNonPermutation 0 key'.activeSlots := by
    rw [← firstNonPermutation_normal, sameRotors_of_samePipeline h, firstNonPermutation_normal]
  rw [checkRotors, checkRotors, hfirst]

theorem validate_congr : validate key = validate key' := by
  have hrotors := checkRotors_congr h
  obtain ⟨-, hrefl, hplug, hpolicy, -⟩ := h
  have hreflector : checkReflector key = checkReflector key' := by rw [checkReflector, checkReflector, hrefl]
  have hfixed : checkReflectorFixed key = checkReflectorFixed key' := by
    rw [checkReflectorFixed, checkReflectorFixed, KeyStore.reflNoFixed, KeyStore.reflNoFixed, hrefl, hpolicy]
  have hplugboard : checkPlugboard key = checkPlugboard key' := by rw [checkPlugboard, checkPlugboard, hplug]
  rw [validate, validate, hrotors, hreflector, hfixed, hplugboard]

theorem encipher_congr_of_samePipeline (v : Letter) : encipher key v = encipher key' v := by
  have hsame := sameRotors_of_samePipeline h
  obtain ⟨-, hrefl, hplug, -, -⟩ := h
  exact encipher_congr hsame hrefl hplug v

theorem xlateByte_congr (c : Byte) : xlateByte key c = xlateByte key' c := by
  have hE : encipher key = encipher key' := funext (encipher_congr_of_samePipeline h)
  obtain ⟨-, -, -, hpolicy, -⟩ := h
  have hclass : classifyByte key c = classifyByte key' c := by
    rw [classifyByte, classifyByte, KeyStore.spaceToX, KeyStore.spaceToX, hpolicy]
  rw [xlateByte, xlateByte, hclass, hE]

end SamePipeline

/-- A pipeline command runs one body on two states whose key stores the pipeline cannot tell apart. -/
theorem exec_pipeline_sameBody {i : Instr} {s s' : State} (hi : i.commandClass = .pipeline)
    (h : s.key.SamePipeline s'.key) :
    ∃ body, exec i s = runPipeline body s ∧ exec i s' = runPipeline body s' := by
  have hrotors := sameRotors_of_samePipeline h
  have hE := encipher_congr_of_samePipeline h
  have hX := xlateByte_congr h
  obtain ⟨-, hrefl, hplug, -, -⟩ := h
  match i, hi with
  | .xlateIndex v, _ => exact ⟨_, rfl, by simp only [exec, execXlateIndex, hE]⟩
  | .xlateChar c, _ => exact ⟨_, rfl, by simp only [exec, execXlateChar, hX]⟩
  | .stagePlug v, _ => exact ⟨_, rfl, by simp only [exec, execStagePlug, plugStage, hplug]⟩
  | .stageFwd v, _ => exact ⟨_, rfl, by simp only [exec, execStageFwd, fwdPass_congr hrotors]⟩
  | .stageRefl v, _ => exact ⟨_, rfl, by simp only [exec, execStageRefl, reflStage, hrefl]⟩
  | .stageBwd v, _ => exact ⟨_, rfl, by simp only [exec, execStageBwd, bwdPass_congr hrotors]⟩

/-- The two results are one answer, given with the same flags, on the states `s` and `s'`, which keep all else. -/
def AnswerAlike (s s' : State) (r r' : Result) : Prop :=
  ∃ (status : Status) (w : Word),
    r = .next ({ s with status := status }.replied w) ∧ r' = .next ({ s' with status := status }.replied w)

section AnswerAlike

variable {s s' : State} (h : s.status = s'.status)

include h

theorem answerAlike_replied (w : Word) : AnswerAlike s s' (.next (s.replied w)) (.next (s'.replied w)) :=
  ⟨s.status, w, rfl, by rw [h]⟩

theorem answerAlike_raiseError (cls : Option CommandClass) (e : ErrorReport) :
    AnswerAlike s s' (.next (raiseError cls e s)) (.next (raiseError cls e s')) :=
  ⟨statusAfterError cls e.code s.status, responseWord e.code.code e.data, rfl, by rw [h]; rfl⟩

theorem runPipeline_answerAlike (body : Except ErrorReport Byte) :
    AnswerAlike s s' (runPipeline body s) (runPipeline body s') := by
  cases hf : s.status.fault with
  | true =>
    rw [runPipeline_of_fault body hf, runPipeline_of_fault body (h ▸ hf)]
    exact answerAlike_replied h _
  | false =>
    have hf' : s'.status.fault = false := h ▸ hf
    cases hk : s.status.keyValid with
    | false =>
      have hk' : s'.status.keyValid = false := h ▸ hk
      rw [runPipeline_of_noKey body hf hk, runPipeline_of_noKey body hf' hk']
      exact answerAlike_replied h _
    | true =>
      have hk' : s'.status.keyValid = true := h ▸ hk
      rw [runPipeline_of_ready body ⟨hf, hk⟩, runPipeline_of_ready body ⟨hf', hk'⟩]
      cases body with
      | error e => exact answerAlike_raiseError h ..
      | ok data => exact answerAlike_replied h _

theorem runRead_answerAlike (body : Except ErrorReport Byte) :
    AnswerAlike s s' (runRead body s) (runRead body s') := by
  cases body with
  | error e => exact answerAlike_raiseError h ..
  | ok data =>
    rw [runRead_of_ok, runRead_of_ok]
    exact answerAlike_replied h _

theorem exec_commit_answerAlike (hkey : s.key.SamePipeline s'.key) :
    AnswerAlike s s' (exec .commit s) (exec .commit s') := by
  cases hk : s.status.keyValid with
  | true =>
    have hk' : s'.status.keyValid = true := h ▸ hk
    rw [exec_commit_of_locked hk, exec_commit_of_locked hk']
    exact answerAlike_replied h _
  | false =>
    have hk' : s'.status.keyValid = false := h ▸ hk
    cases hb : s.status.buildErr with
    | true =>
      rw [exec_commit_of_buildErr hk hb, exec_commit_of_buildErr hk' (h ▸ hb)]
      exact answerAlike_replied h _
    | false =>
      have hb' : s'.status.buildErr = false := h ▸ hb
      cases hv : validate s.key with
      | error e =>
        have hv' : validate s'.key = .error e := validate_congr hkey ▸ hv
        rw [exec_commit_of_error hk hb hv, exec_commit_of_error hk' hb' hv']
        exact answerAlike_replied h _
      | ok _ =>
        have hv' : validate s'.key = .ok () := validate_congr hkey ▸ hv
        rw [exec_commit_of_valid hk hb ((validate_eq_ok_iff _).1 hv),
          exec_commit_of_valid hk' hb' ((validate_eq_ok_iff _).1 hv')]
        exact ⟨_, _, rfl, by rw [h]⟩

end AnswerAlike

/-- Settles O60: a pipeline command runs one body, and validation finds the same. -/
theorem notchesAndInactiveSlotsDoNotMatter : Obligations.NotchesAndInactiveSlotsDoNotMatter := by
  rintro i s s' (hi | rfl) hst hkey
  · obtain ⟨body, hs, hs'⟩ := exec_pipeline_sameBody hi hkey
    rw [hs, hs']
    exact runPipeline_answerAlike hst body
  · exact exec_commit_answerAlike hst hkey

/-! ### Commands under FAULT (R127) -/

/-- The two results are one effect and one answer, without FAULT and under it. -/
def BlindToFault (r r' : Result) : Prop :=
  ∃ (t : State) (status data : Nat), status < 256 ∧ data < 256 ∧
    r = .next (t.replied (reply status data)) ∧ r' = .next (t.faulted.replied (reply status data))

theorem blindToFault_respond (c : StatusCode) (d : Byte) (s : State) :
    BlindToFault (.next (respond c d s)) (.next (respond c d s.faulted)) :=
  ⟨s, _, _, c.code.isLt, d.isLt, by rw [respond_eq_replied], by rw [respond_eq_replied]⟩

theorem blindToFault_raiseError (cls : Option CommandClass) (e : ErrorReport) (s : State) :
    BlindToFault (.next (raiseError cls e s)) (.next (raiseError cls e s.faulted)) :=
  blindToFault_respond e.code e.data { s with status := statusAfterError cls e.code s.status }

theorem runConfig_blindToFault (body : Except ErrorReport KeyStore) (s : State) :
    BlindToFault (runConfig body s) (runConfig body s.faulted) := by
  unfold runConfig
  rw [faulted_status]
  split
  · exact blindToFault_raiseError ..
  · cases body with
    | error e => exact blindToFault_raiseError ..
    | ok key => exact blindToFault_respond .ok 0#8 { s with key := key }

theorem runRead_blindToFault (body : Except ErrorReport Byte) (s : State) :
    BlindToFault (runRead body s) (runRead body s.faulted) := by
  cases body with
  | error e => exact blindToFault_raiseError ..
  | ok data => exact blindToFault_respond ..

theorem execCommit_blindToFault (s : State) : BlindToFault (execCommit s) (execCommit s.faulted) := by
  unfold execCommit
  rw [faulted_status, faulted_key]
  split
  · exact blindToFault_respond ..
  · split
    · exact blindToFault_raiseError ..
    · split
      · exact blindToFault_raiseError ..
      · exact blindToFault_respond .ok 0#8 { s with status := { s.status with keyValid := true } }

theorem exec_lifecycle_blindToFault {i : Instr} (s : State) (hi : i.commandClass = .lifecycle) :
    BlindToFault (exec i s) (exec i s.faulted) := by
  match i, hi with
  | .keyClear, _ => exact blindToFault_respond .ok 0#8 { s with
      key := KeyStore.reset s.maxRotors s.rom, status := { s.status with keyValid := false, buildErr := false } }
  | .unlock, _ => exact blindToFault_respond .ok 0#8 { s with status := { s.status with keyValid := false } }
  | .commit, _ => exact execCommit_blindToFault s

/-- A configuration command runs one body without FAULT and under it: it reads the key store, the ROM and KEY_VALID
alone. -/
theorem exec_config_faulted {i : Instr} (s : State) (hi : i.commandClass = .config) :
    ∃ body, exec i s = runConfig body s ∧ exec i s.faulted = runConfig body s.faulted := by
  cases i
  case plugClear => exact ⟨.ok _, rfl, rfl⟩
  all_goals cases hi <;> exact ⟨_, rfl, rfl⟩

/-- A read command runs one body on two states with the same key store and ROM; only READ_STATUS reads the flags. -/
theorem exec_readBack_sameBody {i : Instr} {s s' : State} (hi : i.commandClass = .readBack) (hkey : s.key = s'.key)
    (hrom : s.rom = s'.rom) (hst : i = .readStatus → s.status = s'.status) :
    ∃ body, exec i s = runRead body s ∧ exec i s' = runRead body s' := by
  obtain ⟨key, status, rom, pending, responses⟩ := s
  obtain ⟨key', status', rom', pending', responses'⟩ := s'
  subst hkey hrom
  cases i
  case nop | readRotorCount | readPolicy | readMaxRotors => exact ⟨.ok _, rfl, rfl⟩
  case readStatus =>
    cases hst rfl
    exact ⟨.ok _, rfl, rfl⟩
  all_goals cases hi <;> exact ⟨_, rfl, rfl⟩

/-- Outside the pipeline, every command but READ_STATUS has one effect and one answer without FAULT and under it. -/
theorem exec_blindToFault {i : Instr} (s : State) (hi : i.commandClass ≠ .pipeline) (hne : i ≠ .readStatus) :
    BlindToFault (exec i s) (exec i s.faulted) := by
  cases hc : i.commandClass with
  | lifecycle => exact exec_lifecycle_blindToFault s hc
  | config =>
    obtain ⟨body, hs, hs'⟩ := exec_config_faulted s hc
    rw [hs, hs']
    exact runConfig_blindToFault body s
  | pipeline => exact absurd hc hi
  | readBack =>
    obtain ⟨body, hs, hs'⟩ := exec_readBack_sameBody (s := s) (s' := s.faulted) hc rfl rfl fun h => absurd h hne
    rw [hs, hs']
    exact runRead_blindToFault body s

/-- READ_STATUS shows FAULT in its bit 1 (R30, R118). -/
theorem exec_readStatus_faulted {s : State} (hf : s.status.fault = false) :
    ∃ data : Nat, data + 2 < 256 ∧ exec .readStatus s = .next (s.replied (reply 0 data)) ∧
      exec .readStatus s.faulted = .next (s.faulted.replied (reply 0 (data + 2))) := by
  refine ⟨(if s.status.buildErr = true then 4 else 0) + (if s.status.keyValid = true then 1 else 0), ?_, ?_, ?_⟩
  · split <;> split <;> decide
  · rw [exec_readStatus, hf]
    rfl
  · rw [exec_readStatus, faulted_status, Nat.add_right_comm]
    rfl

/-- What a command does to FAULT: nothing, or an inverse miss of a command that runs the backward pass sets it. -/
theorem exec_fault_cases {i : Instr} {s t : State} (ht : exec i s = .next t) :
    t.status.fault = s.status.fault ∨ (t.status.fault = true ∧
      (i.opcode = .xlateIndex ∨ i.opcode = .xlateChar ∨ i.opcode = .stageBwd) ∧
      ∃ k : Nat, k < 256 ∧ t.responses = s.responses ++ [reply 0x20 k]) := by
  obtain ⟨_, _, -, -, e⟩ | ⟨-, -, _, -, e⟩ | ⟨-, -, _, _, -, -, e⟩ | ⟨-, ho, k, hk, e⟩ | ⟨-, e⟩ | ⟨-, e⟩ |
    ⟨-, -, -, -, e⟩ := exec_cases i s <;> cases e.symm.trans ht
  case inr.inr.inr.inl => exact .inr ⟨rfl, ho, k, hk, rfl⟩
  all_goals exact .inl rfl

theorem executeWord_fault_cases {w : Word} {s t : State} (ht : executeWord w s = .next t) :
    t.status.fault = s.status.fault ∨ (t.status.fault = true ∧
      (opField w = 0x50#8 ∨ opField w = 0x51#8 ∨ opField w = 0x55#8) ∧
      ∃ k : Nat, k < 256 ∧ t.responses = s.responses ++ [reply 0x20 k]) := by
  obtain ⟨-, e⟩ | ⟨op, f, -, -, e⟩ | ⟨i, -, ho, e⟩ := executeWord_cases w s
  · cases e.symm.trans ht
    exact .inl rfl
  · cases e.symm.trans ht
    exact .inl (refusedReserved_fault ..)
  · refine (exec_fault_cases (e.symm.trans ht)).imp_right fun ⟨hf, hop, hresp⟩ => ⟨hf, ?_, hresp⟩
    exact hop.imp (fun h => by rw [ho, h]; rfl) (Or.imp (fun h => by rw [ho, h]; rfl) fun h => by rw [ho, h]; rfl)

/-- Settles O47, by what a word does to FAULT and by what a command reads of it. -/
theorem onlyResetClearsFault : Obligations.OnlyResetClearsFault := by
  refine ⟨fun w s t ht => ⟨fun hf => ?_, fun hf hf' => ?_⟩, fun i s hf => ⟨fun hi => exec_pipeline_of_fault hi rfl,
    fun hi => ?_⟩, fun s cutOff => ⟨_, takeMove_reset cutOff s, rfl⟩⟩
  · obtain h | ⟨h, -⟩ := executeWord_fault_cases ht
    · exact h.trans hf
    · exact h
  · obtain h | ⟨-, h⟩ := executeWord_fault_cases ht
    · cases hf'.symm.trans (h.trans hf)
    · exact h
  · by_cases hne : i = .readStatus
    · subst hne
      obtain ⟨data, hdata, hs, hs'⟩ := exec_readStatus_faulted hf
      exact ⟨s, 0, data, data + 2, by decide, by omega, hdata, hs, hs', fun h => absurd rfl h, fun _ => ⟨rfl, rfl⟩⟩
    · obtain ⟨t, status, data, hstatus, hdata, hs, hs'⟩ := exec_blindToFault s hi hne
      exact ⟨t, status, data, data, hstatus, hdata, hdata, hs, hs', fun _ => rfl, fun h => absurd h hne⟩

end Machine

end Sys2Proof

/-! ## Proof of the statement on repeated commands (20_memory.md, section 2): R39 -/

namespace Sys2Proof

namespace Machine

/-! ### The writes of a configuration command, twice -/

/-- On a key being built, with the slots and the ROM of `s`, the command answers OK and writes the key store by a
function that keeps the number of slots and does nothing more the second time. -/
def PutsOnce (i : Instr) (s : State) : Prop :=
  ∃ put : KeyStore → KeyStore, (∀ key, put (put key) = put key) ∧ (∀ key, (put key).maxRotors = key.maxRotors) ∧
    ∀ t : State, t.Building → t.maxRotors = s.maxRotors → t.rom = s.rom →
      exec i t = .next ({ t with key := put t.key }.replied (reply 0 0))

/-- The key store with slot k rewritten, where it has one. -/
def KeyStore.modifySlot (key : KeyStore) (k : Byte) (write : RotorSlot → RotorSlot) : KeyStore :=
  { key with slots := key.slots.modify k.toNat write }

theorem withSlot_eq_modifySlot {t : State} {k : Byte} {slot : RotorSlot} (write : RotorSlot → RotorSlot)
    (h : t.key.slots[k.toNat]? = some slot) :
    t.withSlot k (write slot) = { t with key := t.key.modifySlot k write } := by
  rw [State.withSlot, KeyStore.modifySlot, List.modify_eq_set_getElem?, h]
  rfl

/-- A command that rewrites slot k, in a way that does nothing more the second time. -/
theorem putsOnce_of_slotWrite {i : Instr} {k : Byte} {write : RotorSlot → RotorSlot} {s : State}
    (hk : k.toNat < s.maxRotors) (htwice : ∀ slot, write (write slot) = write slot)
    (hexec : ∀ (t : State) (slot : RotorSlot), t.Building → t.rom = s.rom → t.key.slots[k.toNat]? = some slot →
      exec i t = .next ((t.withSlot k (write slot)).replied (reply 0 0))) : PutsOnce i s := by
  refine ⟨fun key => key.modifySlot k write, fun key => ?_, fun key => List.length_modify .., fun t hb hmax hrom => ?_⟩
  · have hcomp : write ∘ write = write := funext htwice
    simp only [KeyStore.modifySlot, List.modify_modify_eq, hcomp]
  · obtain ⟨slot, hslot, -⟩ := checkSlot_of_lt (key := t.key) (hmax.symm ▸ hk)
    rw [hexec t slot hb hrom hslot, withSlot_eq_modifySlot write hslot]

/-- A command that follows the rule of the slot registers writes its slot once. -/
theorem putsOnce_of_slotRegisterRule {op : Byte} {cmd : Byte → Byte → Instr} {write : RotorSlot → Letter → RotorSlot}
    {k v : Byte} {s : State} (h : SlotRegisterRule op cmd write)
    (htwice : ∀ slot x, write (write slot x) x = write slot x)
    (hwf : (slotInRange s.maxRotors k && letterInRange v) = true) : PutsOnce (cmd k v) s := by
  obtain ⟨hk, hv⟩ := Bool.and_eq_true_iff.1 hwf
  refine putsOnce_of_slotWrite (write := fun slot => write slot ⟨v.toNat, of_decide_eq_true hv⟩) (of_decide_eq_true hk)
    (fun slot => htwice slot _) fun t slot hb _ hslot => ?_
  obtain ⟨-, -, -, hwrite⟩ := h.2 k v t
  exact hwrite slot hb hslot _

/-- A command that follows the rule of the table entries writes its table once. -/
theorem putsOnce_of_tableEntryRule {op : Byte} {cmd : Byte → Byte → Instr}
    {write : KeyStore → Letter → Letter → KeyStore} {a b : Byte} {s : State} (h : TableEntryRule op cmd write)
    (htwice : ∀ key x y, write (write key x y) x y = write key x y)
    (hmax : ∀ key x y, (write key x y).maxRotors = key.maxRotors)
    (hwf : (letterInRange a && letterInRange b) = true) : PutsOnce (cmd a b) s := by
  obtain ⟨ha, hb⟩ := Bool.and_eq_true_iff.1 hwf
  refine ⟨fun key => write key ⟨a.toNat, of_decide_eq_true ha⟩ ⟨b.toNat, of_decide_eq_true hb⟩,
    fun key => htwice key _ _, fun key => hmax key _ _, fun t hk _ _ => ?_⟩
  obtain ⟨-, -, -, hwrite⟩ := h.2 a b t
  exact hwrite hk _ _

theorem swapEntries_twice (t : Table) (a b : Letter) : swapEntries (swapEntries t a b) a b = swapEntries t a b := by
  apply Vector.ext
  intro i hi
  apply Fin.ext
  have hget (t : Table) := swapEntries_get_val t a b ⟨i, hi⟩
  simp only [Fin.getElem_fin] at hget
  rw [hget, hget]
  split
  · rfl
  · split <;> rfl

/-- Every configuration command with its operands in range writes its registers once. -/
theorem config_putsOnce {i : Instr} {s : State} (hi : i.commandClass = .config)
    (hwf : i.wellFormed s.maxRotors = true) : PutsOnce i s := by
  obtain ⟨hnotch, hpos, hring, hseed⟩ := slotRegisterCommandsRule
  obtain ⟨hrefl, hplug⟩ := tableEntryCommandsRule
  match i, hi with
  | .setRotorCount n, _ =>
    refine ⟨fun key => { key with rotorCount := n }, fun _ => rfl, fun _ => rfl, fun t hb hmax _ => ?_⟩
    obtain ⟨-, -, hwrite⟩ := setRotorCountRule.2 n t
    exact hwrite hb (hmax.symm ▸ of_decide_eq_true hwf)
  | .loadRotorStd k t, _ =>
    obtain ⟨hk, ht⟩ := Bool.and_eq_true_iff.1 hwf
    have ht : 1 ≤ t.toNat ∧ t.toNat ≤ 8 := of_decide_eq_true ht
    have hstd := Vector.getElem?_eq_getElem (xs := s.rom.rotors) (i := t.toNat - 1) (by omega)
    refine putsOnce_of_slotWrite (write := fun slot => { slot with
      wiring := (s.rom.rotors[t.toNat - 1]'(by omega)).wiring, notch := (s.rom.rotors[t.toNat - 1]'(by omega)).notch })
      (of_decide_eq_true hk) (fun _ => rfl) fun u slot hb hrom hslot => ?_
    obtain ⟨-, -, -, hwrite⟩ := loadRotorStdRule.2 k t u
    exact hwrite slot _ hb hslot ht.1 (hrom.symm ▸ hstd)
  | .loadRotorShift k sh, _ => exact putsOnce_of_slotRegisterRule loadRotorShift_slotRegisterRule (fun _ _ => rfl) hwf
  | .writeWiring k a v, _ =>
    obtain ⟨hka, hv⟩ := Bool.and_eq_true_iff.1 hwf
    obtain ⟨hk, ha⟩ := Bool.and_eq_true_iff.1 hka
    refine putsOnce_of_slotWrite (write := fun slot => { slot with
      wiring := slot.wiring.set a.toNat ⟨v.toNat, of_decide_eq_true hv⟩ (of_decide_eq_true ha) })
      (of_decide_eq_true hk) (fun _ => by simp) fun u slot hb _ hslot => ?_
    obtain ⟨-, -, -, -, -, hwrite⟩ := writeWiringRule k a v u
    exact hwrite slot hb hslot _ _
  | .setNotch k v, _ => exact putsOnce_of_slotRegisterRule hnotch (fun _ _ => rfl) hwf
  | .setPosition k v, _ => exact putsOnce_of_slotRegisterRule hpos (fun _ _ => rfl) hwf
  | .setRing k v, _ => exact putsOnce_of_slotRegisterRule hring (fun _ _ => rfl) hwf
  | .setRingSeed k v, _ => exact putsOnce_of_slotRegisterRule hseed (fun _ _ => rfl) hwf
  | .loadReflStd r, _ =>
    have hr : r.toNat ≤ 1 := of_decide_eq_true hwf
    have htable := Vector.getElem?_eq_getElem (xs := s.rom.refls) (i := r.toNat) (by omega)
    refine ⟨fun key => { key with refl := s.rom.refls[r.toNat]'(by omega) }, fun _ => rfl, fun _ => rfl,
      fun t hb _ hrom => ?_⟩
    obtain ⟨-, -, hwrite⟩ := loadReflStdRule.2 r t
    exact hwrite _ hb (hrom.symm ▸ htable)
  | .writeRefl a v, _ => exact putsOnce_of_tableEntryRule hrefl (fun _ _ _ => by simp) (fun _ _ _ => rfl) hwf
  | .plugClear, _ =>
    exact ⟨fun key => { key with plug := identityTable }, fun _ => rfl, fun _ => rfl, fun t hb _ _ => by
      rw [exec_plugClear, runConfig_of_ok _ hb]⟩
  | .plugSwap a b, _ =>
    exact putsOnce_of_tableEntryRule plugSwap_tableEntryRule (fun _ _ _ => by simp only [swapEntries_twice])
      (fun _ _ _ => rfl) hwf
  | .writePlug a v, _ => exact putsOnce_of_tableEntryRule hplug (fun _ _ _ => by simp) (fun _ _ _ => rfl) hwf
  | .setPolicy f, _ =>
    refine ⟨fun key => { key with policy := f }, fun _ => rfl, fun _ => rfl, fun t hb _ _ => ?_⟩
    obtain ⟨-, -, hwrite⟩ := setPolicyRule.2 f t
    exact hwrite hb (of_decide_eq_true hwf)

/-! ### A command executed again only answers (R39) -/

/-- A configuration command executed again only answers: it is locked out, fails the failed build, or writes what
stands there. -/
theorem exec_config_again {i : Instr} {s t : State} (hi : i.commandClass = .config) (ht : exec i s = .next t) :
    ∃ r : Word, exec i t = .next (t.replied r) := by
  cases hk : s.status.keyValid with
  | true =>
    cases (exec_config_of_locked hi hk).symm.trans ht
    exact ⟨_, exec_config_of_locked hi hk⟩
  | false =>
    cases hwf : i.wellFormed s.maxRotors with
    | true =>
      obtain ⟨put, htwice, hmax, hexec⟩ := config_putsOnce hi hwf
      cases (hexec s hk rfl rfl).symm.trans ht
      have hagain := hexec (State.replied { s with key := put s.key } (reply 0 0)) hk (hmax s.key) rfl
      rw [replied_key, htwice] at hagain
      exact ⟨_, hagain⟩
    | false =>
      obtain ⟨_, _, -, -, -, h⟩ := exec_config_of_not_wellFormed hi hk hwf
      cases h.symm.trans ht
      obtain ⟨_, _, -, -, -, h'⟩ := exec_config_of_not_wellFormed (s := s.buildFailed.replied _) hi hk hwf
      exact ⟨_, h'⟩

/-- NOP and the read commands, the pipeline commands and COMMIT give one answer on two states with the same key store,
flags and ROM. -/
theorem exec_answerAlike {i : Instr} {s s' : State}
    (hi : i.commandClass = .readBack ∨ i.commandClass = .pipeline ∨ i = .commit) (hkey : s.key = s'.key)
    (hst : s.status = s'.status) (hrom : s.rom = s'.rom) : AnswerAlike s s' (exec i s) (exec i s') := by
  obtain hi | hi := hi
  · obtain ⟨body, hs, hs'⟩ := exec_readBack_sameBody hi hkey hrom fun _ => hst
    rw [hs, hs']
    exact runRead_answerAlike hst body
  · exact notchesAndInactiveSlotsDoNotMatter i s s' hi hst (hkey ▸ samePipeline_refl s.key)

/-- Such a command that only answered gives the same answer again. -/
theorem exec_replied_again {i : Instr} {s : State} {r : Word}
    (hi : i.commandClass = .readBack ∨ i.commandClass = .pipeline ∨ i = .commit) (h : exec i s = .next (s.replied r)) :
    exec i (s.replied r) = .next ((s.replied r).replied r) := by
  obtain ⟨status, w, hs, hs'⟩ := exec_answerAlike (s := s) (s' := s.replied r) hi rfl rfl rfl
  have heq : s.replied r = { s with status := status }.replied w := Host.Outcome.next.inj (h.symm.trans hs)
  have hstatus : status = s.status := (congrArg State.status heq).symm
  have hw : w = r := by simpa using (congrArg State.responses heq).symm
  rw [hs', hstatus, hw]
  rfl

/-- A read command only answers. -/
theorem exec_readBack_replied {i : Instr} {s t : State} (hi : i.commandClass = .readBack) (ht : exec i s = .next t) :
    ∃ r : Word, t = s.replied r := by
  obtain ⟨status, data, -, h, -⟩ := readCommandsChangeNothing.2 i s hi
  exact ⟨_, Host.Outcome.next.inj (ht.symm.trans h)⟩

/-- A pipeline command only answers, or sets FAULT and answers. -/
theorem exec_pipeline_replied {i : Instr} {s t : State} (hi : i.commandClass = .pipeline) (ht : exec i s = .next t) :
    (∃ r : Word, t = s.replied r) ∨ (s.status.fault = false ∧ ∃ r : Word, t = s.faulted.replied r) := by
  cases hf : s.status.fault with
  | true => exact .inl ⟨_, Host.Outcome.next.inj (ht.symm.trans (exec_pipeline_of_fault hi hf))⟩
  | false =>
    cases hk : s.status.keyValid with
    | false => exact .inl ⟨_, Host.Outcome.next.inj (ht.symm.trans (exec_pipeline_of_noKey hi hf hk))⟩
    | true =>
      cases hwf : i.wellFormed s.maxRotors with
      | false => exact .inl ⟨_, Host.Outcome.next.inj (ht.symm.trans (exec_pipeline_of_not_wellFormed hi ⟨hf, hk⟩ hwf))⟩
      | true =>
        obtain ⟨data, -, h⟩ | ⟨k, -, h⟩ := exec_pipeline_of_wellFormed hi ⟨hf, hk⟩ hwf
        · exact .inl ⟨_, Host.Outcome.next.inj (ht.symm.trans h)⟩
        · exact .inr ⟨rfl, _, Host.Outcome.next.inj (ht.symm.trans h)⟩

/-- COMMIT executed again only answers: on the key it locked, or as it did before. -/
theorem exec_commit_again {s t : State} (ht : exec .commit s = .next t) :
    ∃ r : Word, exec .commit t = .next (t.replied r) := by
  obtain ⟨-, h⟩ | ⟨-, -, h⟩ | ⟨-, -, _, -, h⟩ | ⟨-, -, -, h⟩ := execCommit_cases s
  case inr.inr.inr =>
    cases h.symm.trans ht
    exact ⟨_, exec_commit_of_locked rfl⟩
  all_goals
    cases h.symm.trans ht
    exact ⟨_, exec_replied_again (.inr (.inr rfl)) h⟩

/-- Every command executed again only answers. -/
theorem exec_again {i : Instr} {s t : State} (ht : exec i s = .next t) :
    ∃ r : Word, exec i t = .next (t.replied r) := by
  cases hc : i.commandClass with
  | lifecycle =>
    match i, hc with
    | .keyClear, _ =>
      cases (exec_keyClear s).symm.trans ht
      refine ⟨reply 0 0, (exec_keyClear _).trans ?_⟩
      rw [replied_maxRotors, State.maxRotors, reset_maxRotors]
      rfl
    | .unlock, _ =>
      cases (unlockRule.2 s).symm.trans ht
      exact ⟨_, unlockRule.2 _⟩
    | .commit, _ => exact exec_commit_again ht
  | config => exact exec_config_again hc ht
  | pipeline =>
    obtain ⟨r, rfl⟩ | ⟨-, r, rfl⟩ := exec_pipeline_replied hc ht
    · exact ⟨r, exec_replied_again (.inr (.inl hc)) ht⟩
    · exact ⟨_, exec_pipeline_of_fault hc rfl⟩
  | readBack =>
    obtain ⟨r, rfl⟩ := exec_readBack_replied hc ht
    exact ⟨r, exec_replied_again (.inl hc) ht⟩

/-- Settles O48: executed again, a command only answers, and one that only answered before gives that answer. -/
theorem repeatedCommandsChangeNothingMore : Obligations.RepeatedCommandsChangeNothingMore := by
  intro i s t u ht hu
  obtain ⟨r, h⟩ := exec_again ht
  cases h.symm.trans hu
  refine ⟨rfl, rfl, rfl, rfl, fun hi => ?_⟩
  obtain ⟨r', rfl⟩ : ∃ r' : Word, t = s.replied r' := by
    obtain hi | ⟨hi, hf⟩ := hi
    · exact exec_readBack_replied hi ht
    · obtain h' | ⟨hf', _, rfl⟩ := exec_pipeline_replied hi ht
      · exact h'
      · cases hf.trans hf'
  have hagain := exec_replied_again (hi.imp_right fun h => .inl h.1) ht
  exact ⟨r', rfl, Host.Outcome.next.inj (hu.symm.trans hagain)⟩

end Machine

end Sys2Proof
